-- ==== Sys2Proof/Word.lean ====
section
/-! DEFINITION. The word types of the block (00_scope.md R8, R9). All are unsigned; a `BitVec` addition
wraps, which is the truncation every register write of R10 makes. -/

namespace Sys2Proof

/-- A byte of memory, a general register, a timer: 8 bits (R8 `REG_BITS`, `TIMER_BITS`). -/
abbrev Byte := BitVec 8

/-- A byte address of memory, the index register, the program counter: 12 bits (R8 `ADDR_BITS`). -/
abbrev Addr := BitVec 12

/-- An instruction word: 16 bits (R9, R100). -/
abbrev Word16 := BitVec 16

/-- A 4-bit field of an instruction: a register index, a count or a plane mask (R101). -/
abbrev Nibble := BitVec 4

end Sys2Proof
end

