-- ==== Sys2Proof/Syntax.lean ====
section
/-! DEFINITION. The instructions: one constructor for each of the 43 rows of spec/opcode_table.json, in
the table's order (30_encoding.md R106). Operands carry the widths of R101 in their types. -/

namespace Sys2Proof

/-- An instruction of the opcode map R106. `x` and `y` name registers V0..VF, `n` is a count, `nn` an
8-bit immediate, `nnn` a 12-bit address; none is extended or scaled (R103). -/
inductive Instr where
  /-- `CLS`, word `0-E0`, R263. -/
  | cls
  /-- `RET`, word `0-EE`, R131. -/
  | ret
  /-- `SCD n`, word `0-Cn`, R267. -/
  | scd (n : Nibble)
  /-- `SCU n`, word `0-Dn`, R268. -/
  | scu (n : Nibble)
  /-- `SCR`, word `0-FB`, R269. -/
  | scr
  /-- `SCL`, word `0-FC`, R270. -/
  | scl
  /-- `EXIT`, word `0-FD`, R300. -/
  | exit
  /-- `LOW`, word `0-FE`, R265. -/
  | low
  /-- `HIGH`, word `0-FF`, R266. -/
  | high
  /-- `JP nnn`, word `1nnn`, R132. -/
  | jp (nnn : Addr)
  /-- `CALL nnn`, word `2nnn`, R133. -/
  | call (nnn : Addr)
  /-- `SE Vx, nn`, word `3xnn`, R134. -/
  | seImm (x : Nibble) (nn : Byte)
  /-- `SNE Vx, nn`, word `4xnn`, R135. -/
  | sneImm (x : Nibble) (nn : Byte)
  /-- `SE Vx, Vy`, word `5xy0`, R136. -/
  | seReg (x y : Nibble)
  /-- `LD Vx, nn`, word `6xnn`, R161. -/
  | ldImm (x : Nibble) (nn : Byte)
  /-- `ADD Vx, nn`, word `7xnn`, R162. -/
  | addImm (x : Nibble) (nn : Byte)
  /-- `LD Vx, Vy`, word `8xy0`, R163. -/
  | ldReg (x y : Nibble)
  /-- `OR Vx, Vy`, word `8xy1`, R164. -/
  | or (x y : Nibble)
  /-- `AND Vx, Vy`, word `8xy2`, R165. -/
  | and (x y : Nibble)
  /-- `XOR Vx, Vy`, word `8xy3`, R166. -/
  | xor (x y : Nibble)
  /-- `ADD Vx, Vy`, word `8xy4`, R167. -/
  | addReg (x y : Nibble)
  /-- `SUB Vx, Vy`, word `8xy5`, R168. -/
  | sub (x y : Nibble)
  /-- `SHR Vx, Vy`, word `8xy6`, R169. -/
  | shr (x y : Nibble)
  /-- `SUBN Vx, Vy`, word `8xy7`, R170. -/
  | subn (x y : Nibble)
  /-- `SHL Vx, Vy`, word `8xyE`, R171. -/
  | shl (x y : Nibble)
  /-- `SNE Vx, Vy`, word `9xy0`, R137. -/
  | sneReg (x y : Nibble)
  /-- `LD I, nnn`, word `Annn`, R201. -/
  | ldI (nnn : Addr)
  /-- `JP V0, nnn`, word `Bnnn`, R138. -/
  | jpV0 (nnn : Addr)
  /-- `RND Vx, nn`, word `Cxnn`, R172. -/
  | rnd (x : Nibble) (nn : Byte)
  /-- `DRW Vx, Vy, n`, word `Dxyn`, R264. -/
  | drw (x y n : Nibble)
  /-- `SKP Vx`, word `Ex9E`, R234. -/
  | skp (x : Nibble)
  /-- `SKNP Vx`, word `ExA1`, R235. -/
  | sknp (x : Nibble)
  /-- `PLANE x`, word `Fx01`, R271: `x` is a mask of planes, no register index. -/
  | plane (x : Nibble)
  /-- `LD Vx, DT`, word `Fx07`, R231. -/
  | ldVxDT (x : Nibble)
  /-- `LD Vx, K`, word `Fx0A`, R236. -/
  | ldVxK (x : Nibble)
  /-- `LD DT, Vx`, word `Fx15`, R232. -/
  | ldDTVx (x : Nibble)
  /-- `LD ST, Vx`, word `Fx18`, R233. -/
  | ldSTVx (x : Nibble)
  /-- `ADD I, Vx`, word `Fx1E`, R202. -/
  | addI (x : Nibble)
  /-- `LD F, Vx`, word `Fx29`, R206. -/
  | ldF (x : Nibble)
  /-- `LD HF, Vx`, word `Fx30`, R207. -/
  | ldHF (x : Nibble)
  /-- `LD B, Vx`, word `Fx33`, R205. -/
  | ldB (x : Nibble)
  /-- `LD [I], Vx`, word `Fx55`, R203: stores V0..Vx. -/
  | store (x : Nibble)
  /-- `LD Vx, [I]`, word `Fx65`, R204: loads V0..Vx. -/
  | load (x : Nibble)
  deriving DecidableEq, Repr

end Sys2Proof
end

