-- ==== Sys2Proof/Config.lean ====
section
/-! DEFINITION. What is fixed for one machine (the parameters of 00_scope.md R8) and the free values of the
inputs no one supplied. The parameters are plain data that a state carries and no command writes, so a
statement over all states holds for every choice of them (log 1). -/

namespace Sys2Proof

/-- The quirk set of 10_state.md R44, the five named Boolean fields. -/
structure Quirks where
  /-- `Q_SHIFT`, bit 0: when set, `SHR` and `SHL` shift Vx in place (90_conflicts.md C1). -/
  shift : Bool
  /-- `Q_LOADSTORE`, bit 1: when set, `LD [I], Vx` and `LD Vx, [I]` add x+1 to I. -/
  loadStore : Bool
  /-- `Q_JUMP`, bit 2: when set, `JP V0, nnn` adds Vx with x = nnn[11:8]. -/
  jump : Bool
  /-- `Q_LORES_WIDE`, bit 3: when set, `DRW` with n = 0 draws 16x16 in lores. -/
  loresWide : Bool
  /-- `Q_TALL`, bit 4: when set, `DRW` with n = 0 draws 8x16 in lores if `Q_LORES_WIDE` is clear. -/
  tall : Bool
  deriving DecidableEq, Repr

/-- The name of one quirk field. -/
inductive QuirkField where
  | shift | loadStore | jump | loresWide | tall
  deriving DecidableEq, Repr

/-- `QUIRK_TOGGLE` when it names an opcode (45_system.md R302): a word `w` with `w & mask = bits` flips
`field`. -/
structure QuirkToggle where
  bits : Word16
  mask : Word16
  field : QuirkField
  deriving DecidableEq, Repr

/-- `SCROLL_MODE` (44_display.md R259). -/
inductive ScrollMode where
  /-- Scrolling changes nothing: the baseline and the default. -/
  | noop
  /-- Scrolling shifts the active planes and fills with zeros (R260). -/
  | shift
  deriving DecidableEq, Repr

/-- The parameters of R8 that the spec leaves to a model. -/
structure Config where
  /-- `STACK_DEPTH`, at least 12 (10_state.md R38, D3). -/
  stackDepth : Nat
  /-- `FONT_SMALL`, 80 bytes (20_memory.md R75). -/
  fontSmall : List Byte
  /-- `FONT_LARGE`, 160 bytes or absent (20_memory.md R76). -/
  fontLarge : Option (List Byte)
  /-- The quirk values that RESET gives to `QUIRKS` (10_state.md R44, R51). -/
  quirks : Quirks
  /-- `QUIRK_TOGGLE` (45_system.md R302). -/
  quirkToggle : Option QuirkToggle
  /-- `SCROLL_MODE` (44_display.md R259). -/
  scrollMode : ScrollMode
  /-- `EXIT_CODE` (45_system.md R300, D10). -/
  exitCode : Int
  /-- `BATCH`, the host's steps per tick (60_exceptions.md R322). -/
  batch : Nat
  /-- `DEBOUNCE`, the host's polls a key stays latched (60_exceptions.md R321). -/
  debounce : Nat
  deriving DecidableEq, Repr

/-- `KEYS` of a step that no pending command supplies: any 16-bit value (93 row 14). A free value, log 5. -/
opaque Config.freeKeys : Nat → BitVec 16

/-- `RND` of a step that no pending command supplies: any byte (93 row 1, D29). A free value, log 5. -/
opaque Config.freeRnd : Nat → BitVec 8

/-- `GEOM_OK` of a step that no pending command supplies, lores at `false` and hires at `true`: either
verdict (93 row 13). A free value, log 5. -/
opaque Config.freeGeomOk : Nat → Bool → Bool

end Sys2Proof
end

