-- ==== Sys2Proof/WellFormed.lean ====
section
/-! DEFINITION. What a well-formed instruction and a well-formed choice of parameters are. -/

namespace Sys2Proof

/-- The checks on an instruction. 30_encoding.md R101 and R103 admit every value of every operand
field, and the fields' widths stand in the types of `Instr`, so no term of `Instr` is ill formed; the
match names every constructor, so that a constructor with a check to make cannot slip past. -/
def Instr.wf : Instr → Bool
  | .cls | .ret | .scr | .scl | .exit | .low | .high => true
  | .scd _ | .scu _ => true
  | .jp _ | .call _ | .ldI _ | .jpV0 _ => true
  | .seImm _ _ | .sneImm _ _ | .ldImm _ _ | .addImm _ _ | .rnd _ _ => true
  | .seReg _ _ | .sneReg _ _ | .ldReg _ _ | .or _ _ | .and _ _ | .xor _ _ => true
  | .addReg _ _ | .sub _ _ | .shr _ _ | .subn _ _ | .shl _ _ => true
  | .drw _ _ _ => true
  | .skp _ | .sknp _ | .plane _ | .ldVxDT _ | .ldVxK _ | .ldDTVx _ | .ldSTVx _ => true
  | .addI _ | .ldF _ | .ldHF _ | .ldB _ | .store _ | .load _ => true

/-- `QUIRK_TOGGLE` names at least one word: its pattern has no bit outside its mask (45_system.md R302). -/
def QuirkToggle.wf (t : QuirkToggle) : Bool :=
  t.bits &&& t.mask == t.bits

/-- The parameters have the sizes of 00_scope.md R8: a stack of at least 12 entries (D3), a small font
of 80 bytes, a large font of 160 bytes when there is one, and a toggle pattern that some word meets. A
debounce and a batch of at least one are DESIGN CHOICE (log 19): R8, R321 and R322 give no lower bound. -/
def Config.wf (c : Config) : Bool :=
  decide (12 ≤ c.stackDepth) && c.fontSmall.length == 80
    && c.fontLarge.all (fun f => f.length == 160)
    && c.quirkToggle.all QuirkToggle.wf
    && decide (1 ≤ c.batch) && decide (1 ≤ c.debounce)

end Sys2Proof
end

