-- ==== Sys2Proof/Decode.lean ====
section
/-! DEFINITION. The decoder, total on every word and on every list of bytes, the encoder, and the opcode
table of 30_encoding.md R106 as rows of a mask and a pattern. -/

namespace Sys2Proof

/-! ### Fields of an instruction word (R101) -/

/-- `o = op[15:12]`, the opcode group. -/
def groupField (w : Word16) : Nibble := w.extractLsb' 12 4
/-- `x = op[11:8]`. -/
def xField (w : Word16) : Nibble := w.extractLsb' 8 4
/-- `y = op[7:4]`. -/
def yField (w : Word16) : Nibble := w.extractLsb' 4 4
/-- `n = op[3:0]`. -/
def nField (w : Word16) : Nibble := w.extractLsb' 0 4
/-- `nn = op[7:0]`. -/
def nnField (w : Word16) : Byte := w.extractLsb' 0 8
/-- `nnn = op[11:0]`. -/
def nnnField (w : Word16) : Addr := w.extractLsb' 0 12

/-! ### Decoding -/

/-- Why no row of the opcode map matches: the groups that have unmapped words (R109), and a byte string
that ends before the second byte of the word. -/
inductive DecodeReject where
  /-- Group 0 with a low byte that is none of 0xCn, 0xDn, 0xE0, 0xEE, 0xFB..0xFF. -/
  | unmappedGroup0
  /-- `5xyn` with n ≠ 0 (R108). -/
  | unmappedGroup5
  /-- `8xyn` with n one of 8..D, F. -/
  | unmappedGroup8
  /-- `9xyn` with n ≠ 0 (R108). -/
  | unmappedGroup9
  /-- `Exnn` with nn neither 0x9E nor 0xA1. -/
  | unmappedGroupE
  /-- `Fxnn` with nn not listed in R109. -/
  | unmappedGroupF
  /-- Fewer than two bytes are left: no word of R100. -/
  | truncated
  deriving DecidableEq, Repr

/-- What the decoder reads: one row's instruction, or a rejection by name. -/
inductive Decoded where
  | ok (i : Instr)
  | reject (r : DecodeReject)
  deriving DecidableEq, Repr

/-- The instruction read, if there is one. -/
def Decoded.toOption : Decoded → Option Instr
  | .ok i => some i
  | .reject _ => none

/-- Group 0 (R107): `y` selects the scrolls by rows, the whole low byte the rest; `x` is not examined. -/
def decodeGroup0 (w : Word16) : Decoded :=
  match (yField w).toNat with
  | 0xC => .ok (.scd (nField w))
  | 0xD => .ok (.scu (nField w))
  | _ =>
    match (nnField w).toNat with
    | 0xE0 => .ok .cls
    | 0xEE => .ok .ret
    | 0xFB => .ok .scr
    | 0xFC => .ok .scl
    | 0xFD => .ok .exit
    | 0xFE => .ok .low
    | 0xFF => .ok .high
    | _ => .reject .unmappedGroup0

/-- Group 8 is decoded on `n` (R106, R108). -/
def decodeGroup8 (w : Word16) : Decoded :=
  match (nField w).toNat with
  | 0x0 => .ok (.ldReg (xField w) (yField w))
  | 0x1 => .ok (.or (xField w) (yField w))
  | 0x2 => .ok (.and (xField w) (yField w))
  | 0x3 => .ok (.xor (xField w) (yField w))
  | 0x4 => .ok (.addReg (xField w) (yField w))
  | 0x5 => .ok (.sub (xField w) (yField w))
  | 0x6 => .ok (.shr (xField w) (yField w))
  | 0x7 => .ok (.subn (xField w) (yField w))
  | 0xE => .ok (.shl (xField w) (yField w))
  | _ => .reject .unmappedGroup8

/-- Group E is decoded on `nn` (R106, R108). -/
def decodeGroupE (w : Word16) : Decoded :=
  match (nnField w).toNat with
  | 0x9E => .ok (.skp (xField w))
  | 0xA1 => .ok (.sknp (xField w))
  | _ => .reject .unmappedGroupE

/-- Group F is decoded on `nn` (R106, R108). -/
def decodeGroupF (w : Word16) : Decoded :=
  match (nnField w).toNat with
  | 0x01 => .ok (.plane (xField w))
  | 0x07 => .ok (.ldVxDT (xField w))
  | 0x0A => .ok (.ldVxK (xField w))
  | 0x15 => .ok (.ldDTVx (xField w))
  | 0x18 => .ok (.ldSTVx (xField w))
  | 0x1E => .ok (.addI (xField w))
  | 0x29 => .ok (.ldF (xField w))
  | 0x30 => .ok (.ldHF (xField w))
  | 0x33 => .ok (.ldB (xField w))
  | 0x55 => .ok (.store (xField w))
  | 0x65 => .ok (.load (xField w))
  | _ => .reject .unmappedGroupF

/-- `Decode(op)` of R105 over the map R106, less the quirk toggle, which `Machine.decodeAction` tries
first (45_system.md R302). -/
def decodeWord (w : Word16) : Decoded :=
  match (groupField w).toNat with
  | 0x0 => decodeGroup0 w
  | 0x1 => .ok (.jp (nnnField w))
  | 0x2 => .ok (.call (nnnField w))
  | 0x3 => .ok (.seImm (xField w) (nnField w))
  | 0x4 => .ok (.sneImm (xField w) (nnField w))
  | 0x5 => if nField w = 0 then .ok (.seReg (xField w) (yField w)) else .reject .unmappedGroup5
  | 0x6 => .ok (.ldImm (xField w) (nnField w))
  | 0x7 => .ok (.addImm (xField w) (nnField w))
  | 0x8 => decodeGroup8 w
  | 0x9 => if nField w = 0 then .ok (.sneReg (xField w) (yField w)) else .reject .unmappedGroup9
  | 0xA => .ok (.ldI (nnnField w))
  | 0xB => .ok (.jpV0 (nnnField w))
  | 0xC => .ok (.rnd (xField w) (nnField w))
  | 0xD => .ok (.drw (xField w) (yField w) (nField w))
  | 0xE => decodeGroupE w
  | _ => decodeGroupF w

/-- The word two bytes make, the first in the high bits (20_memory.md R78). -/
def wordOfBytes (hi lo : Byte) : Word16 := hi ++ lo

/-- The two bytes of a word in memory order, high byte first (20_memory.md R78). -/
def bytesOfWord (w : Word16) : List Byte := [w.extractLsb' 8 8, w.extractLsb' 0 8]

/-- Decode the first word of a byte string; also the bytes after it. -/
def decodeBytes : List Byte → Decoded × List Byte
  | hi :: lo :: rest => (decodeWord (wordOfBytes hi lo), rest)
  | short => (.reject .truncated, short)

/-! ### Encoding -/

/-- Formats Z and ZN (R102): the ignored `x` nibble of group 0 is written 0 (log 13). -/
def encodeZ (nn : Byte) : Word16 := (0#8 : Byte) ++ nn
/-- Format NNN (R102). -/
def encodeNNN (o : Nibble) (nnn : Addr) : Word16 := o ++ nnn
/-- Formats XNN and X (R102). -/
def encodeXNN (o x : Nibble) (nn : Byte) : Word16 := o ++ x ++ nn
/-- Formats XY and XYN (R102). -/
def encodeXYN (o x y n : Nibble) : Word16 := o ++ x ++ y ++ n

/-- The word of an instruction, from the map R106. -/
def encode : Instr → Word16
  | .cls => encodeZ 0xE0
  | .ret => encodeZ 0xEE
  | .scd n => encodeZ ((0xC#4 : Nibble) ++ n)
  | .scu n => encodeZ ((0xD#4 : Nibble) ++ n)
  | .scr => encodeZ 0xFB
  | .scl => encodeZ 0xFC
  | .exit => encodeZ 0xFD
  | .low => encodeZ 0xFE
  | .high => encodeZ 0xFF
  | .jp nnn => encodeNNN 0x1 nnn
  | .call nnn => encodeNNN 0x2 nnn
  | .seImm x nn => encodeXNN 0x3 x nn
  | .sneImm x nn => encodeXNN 0x4 x nn
  | .seReg x y => encodeXYN 0x5 x y 0x0
  | .ldImm x nn => encodeXNN 0x6 x nn
  | .addImm x nn => encodeXNN 0x7 x nn
  | .ldReg x y => encodeXYN 0x8 x y 0x0
  | .or x y => encodeXYN 0x8 x y 0x1
  | .and x y => encodeXYN 0x8 x y 0x2
  | .xor x y => encodeXYN 0x8 x y 0x3
  | .addReg x y => encodeXYN 0x8 x y 0x4
  | .sub x y => encodeXYN 0x8 x y 0x5
  | .shr x y => encodeXYN 0x8 x y 0x6
  | .subn x y => encodeXYN 0x8 x y 0x7
  | .shl x y => encodeXYN 0x8 x y 0xE
  | .sneReg x y => encodeXYN 0x9 x y 0x0
  | .ldI nnn => encodeNNN 0xA nnn
  | .jpV0 nnn => encodeNNN 0xB nnn
  | .rnd x nn => encodeXNN 0xC x nn
  | .drw x y n => encodeXYN 0xD x y n
  | .skp x => encodeXNN 0xE x 0x9E
  | .sknp x => encodeXNN 0xE x 0xA1
  | .plane x => encodeXNN 0xF x 0x01
  | .ldVxDT x => encodeXNN 0xF x 0x07
  | .ldVxK x => encodeXNN 0xF x 0x0A
  | .ldDTVx x => encodeXNN 0xF x 0x15
  | .ldSTVx x => encodeXNN 0xF x 0x18
  | .addI x => encodeXNN 0xF x 0x1E
  | .ldF x => encodeXNN 0xF x 0x29
  | .ldHF x => encodeXNN 0xF x 0x30
  | .ldB x => encodeXNN 0xF x 0x33
  | .store x => encodeXNN 0xF x 0x55
  | .load x => encodeXNN 0xF x 0x65

/-- The bytes of an instruction as they lie in memory. -/
def encodeBytes (i : Instr) : List Byte := bytesOfWord (encode i)

/-! ### The opcode table -/

/-- One row of R106: a word `w` is the row's when `w & mask = bits`. -/
structure OpcodeRow where
  mnemonic : String
  bits : Word16
  mask : Word16
  deriving DecidableEq, Repr

/-- `w & mask = match` of R105. -/
def OpcodeRow.matchesWord (r : OpcodeRow) (w : Word16) : Bool := w &&& r.mask == r.bits

/-- The row of spec/opcode_table.json that a constructor stands for. -/
def Instr.row : Instr → OpcodeRow
  | .cls => ⟨"CLS", 0x00E0, 0xF0FF⟩
  | .ret => ⟨"RET", 0x00EE, 0xF0FF⟩
  | .scd _ => ⟨"SCD_n", 0x00C0, 0xF0F0⟩
  | .scu _ => ⟨"SCU_n", 0x00D0, 0xF0F0⟩
  | .scr => ⟨"SCR", 0x00FB, 0xF0FF⟩
  | .scl => ⟨"SCL", 0x00FC, 0xF0FF⟩
  | .exit => ⟨"EXIT", 0x00FD, 0xF0FF⟩
  | .low => ⟨"LOW", 0x00FE, 0xF0FF⟩
  | .high => ⟨"HIGH", 0x00FF, 0xF0FF⟩
  | .jp _ => ⟨"JP_nnn", 0x1000, 0xF000⟩
  | .call _ => ⟨"CALL_nnn", 0x2000, 0xF000⟩
  | .seImm _ _ => ⟨"SE_Vx__nn", 0x3000, 0xF000⟩
  | .sneImm _ _ => ⟨"SNE_Vx__nn", 0x4000, 0xF000⟩
  | .seReg _ _ => ⟨"SE_Vx__Vy", 0x5000, 0xF00F⟩
  | .ldImm _ _ => ⟨"LD_Vx__nn", 0x6000, 0xF000⟩
  | .addImm _ _ => ⟨"ADD_Vx__nn", 0x7000, 0xF000⟩
  | .ldReg _ _ => ⟨"LD_Vx__Vy", 0x8000, 0xF00F⟩
  | .or _ _ => ⟨"OR_Vx__Vy", 0x8001, 0xF00F⟩
  | .and _ _ => ⟨"AND_Vx__Vy", 0x8002, 0xF00F⟩
  | .xor _ _ => ⟨"XOR_Vx__Vy", 0x8003, 0xF00F⟩
  | .addReg _ _ => ⟨"ADD_Vx__Vy", 0x8004, 0xF00F⟩
  | .sub _ _ => ⟨"SUB_Vx__Vy", 0x8005, 0xF00F⟩
  | .shr _ _ => ⟨"SHR_Vx__Vy", 0x8006, 0xF00F⟩
  | .subn _ _ => ⟨"SUBN_Vx__Vy", 0x8007, 0xF00F⟩
  | .shl _ _ => ⟨"SHL_Vx__Vy", 0x800E, 0xF00F⟩
  | .sneReg _ _ => ⟨"SNE_Vx__Vy", 0x9000, 0xF00F⟩
  | .ldI _ => ⟨"LD_I__nnn", 0xA000, 0xF000⟩
  | .jpV0 _ => ⟨"JP_V0__nnn", 0xB000, 0xF000⟩
  | .rnd _ _ => ⟨"RND_Vx__nn", 0xC000, 0xF000⟩
  | .drw _ _ _ => ⟨"DRW_Vx__Vy__n", 0xD000, 0xF000⟩
  | .skp _ => ⟨"SKP_Vx", 0xE09E, 0xF0FF⟩
  | .sknp _ => ⟨"SKNP_Vx", 0xE0A1, 0xF0FF⟩
  | .plane _ => ⟨"PLANE_x", 0xF001, 0xF0FF⟩
  | .ldVxDT _ => ⟨"LD_Vx__DT", 0xF007, 0xF0FF⟩
  | .ldVxK _ => ⟨"LD_Vx__K", 0xF00A, 0xF0FF⟩
  | .ldDTVx _ => ⟨"LD_DT__Vx", 0xF015, 0xF0FF⟩
  | .ldSTVx _ => ⟨"LD_ST__Vx", 0xF018, 0xF0FF⟩
  | .addI _ => ⟨"ADD_I__Vx", 0xF01E, 0xF0FF⟩
  | .ldF _ => ⟨"LD_F__Vx", 0xF029, 0xF0FF⟩
  | .ldHF _ => ⟨"LD_HF__Vx", 0xF030, 0xF0FF⟩
  | .ldB _ => ⟨"LD_B__Vx", 0xF033, 0xF0FF⟩
  | .store _ => ⟨"LD__I___Vx", 0xF055, 0xF0FF⟩
  | .load _ => ⟨"LD_Vx___I", 0xF065, 0xF0FF⟩

/-- One instruction of each row of R106, in the table's order: groups 0 to 7. -/
def tableInstrs0To7 : List Instr :=
  [.cls, .ret, .scd 0, .scu 0, .scr, .scl, .exit, .low, .high, .jp 0, .call 0, .seImm 0 0,
    .sneImm 0 0, .seReg 0 0, .ldImm 0 0, .addImm 0 0]

/-- Groups 8 to D. -/
def tableInstrs8ToD : List Instr :=
  [.ldReg 0 0, .or 0 0, .and 0 0, .xor 0 0, .addReg 0 0, .sub 0 0, .shr 0 0, .subn 0 0, .shl 0 0,
    .sneReg 0 0, .ldI 0, .jpV0 0, .rnd 0 0, .drw 0 0 0]

/-- Groups E and F. -/
def tableInstrsEToF : List Instr :=
  [.skp 0, .sknp 0, .plane 0, .ldVxDT 0, .ldVxK 0, .ldDTVx 0, .ldSTVx 0, .addI 0, .ldF 0, .ldHF 0,
    .ldB 0, .store 0, .load 0]

/-- One instruction of each row. -/
def tableInstrs : List Instr := tableInstrs0To7 ++ tableInstrs8ToD ++ tableInstrsEToF

/-- The 43 rows of R106. -/
def opcodeTable : List OpcodeRow := tableInstrs.map Instr.row

/-! ### The host's numbering of a table row -/

/-- The word whose bits are `w`, `nbits` of them given and the rest 0. -/
def tableWord (nbits w : Nat) : Word16 := BitVec.ofNat 16 (w % 2 ^ nbits)

/-- The instruction the decoder reads from the word laid out as memory holds it. -/
def decodeTableWord (nbits w : Nat) : Option Instr :=
  (decodeBytes (bytesOfWord (tableWord nbits w))).1.toOption

end Sys2Proof
end

