-- ==== Sys2Proof/Machine/Defaults.lean ====
section
/-! DEFINITION. The parameter values of the machine that `State.reset` is, and what memory holds after a
reset: the values the spec names in 00_scope.md R8 and 10_state.md R51, and the model's own where the spec
leaves them open (logs 2 to 7). -/

namespace Sys2Proof.Machine

/-- Glyphs 0 to 7 of the conventional small font (20_memory.md R75). -/
def fontSmallLow : List Byte :=
  [0xF0, 0x90, 0x90, 0x90, 0xF0] ++ [0x20, 0x60, 0x20, 0x20, 0x70] ++
  [0xF0, 0x10, 0xF0, 0x80, 0xF0] ++ [0xF0, 0x10, 0xF0, 0x10, 0xF0] ++
  [0x90, 0x90, 0xF0, 0x10, 0x10] ++ [0xF0, 0x80, 0xF0, 0x10, 0xF0] ++
  [0xF0, 0x80, 0xF0, 0x90, 0xF0] ++ [0xF0, 0x10, 0x20, 0x40, 0x40]

/-- Glyphs 8 to F of the conventional small font (20_memory.md R75). -/
def fontSmallHigh : List Byte :=
  [0xF0, 0x90, 0xF0, 0x90, 0xF0] ++ [0xF0, 0x90, 0xF0, 0x10, 0xF0] ++
  [0xF0, 0x90, 0xF0, 0x90, 0x90] ++ [0xE0, 0x90, 0xE0, 0x90, 0xE0] ++
  [0xF0, 0x80, 0x80, 0x80, 0xF0] ++ [0xE0, 0x90, 0x90, 0x90, 0xE0] ++
  [0xF0, 0x80, 0xF0, 0x80, 0xF0] ++ [0xF0, 0x80, 0xF0, 0x80, 0x80]

/-- The default `FONT_SMALL`, 80 bytes (20_memory.md R75, D24). -/
def defaultFontSmall : List Byte := fontSmallLow ++ fontSmallHigh

/-- All five quirks clear. DESIGN CHOICE (log 2): the spec leaves them open (R44, D6). -/
def defaultQuirks : Quirks :=
  { shift := false, loadStore := false, jump := false, loresWide := false, tall := false }

/-- The parameters of `State.reset`: the defaults of 00_scope.md R8, no large font (log 4) and the quirks
of `defaultQuirks` (log 2). -/
def defaultConfig : Config :=
  { stackDepth := 16
    fontSmall := defaultFontSmall
    fontLarge := none
    quirks := defaultQuirks
    quirkToggle := none
    scrollMode := .noop
    exitCode := 0
    batch := 50
    debounce := 20 }

/-- `ROM_BASE`, the load address and entry point (00_scope.md R8, D22). -/
def romBase : Nat := 0x200

/-- `ROM_MAX`, the largest program in bytes (00_scope.md R8). -/
def romMax : Nat := 3584

/-- The byte an address holds after a reset with an empty ROM (20_memory.md R74, 70_reset_and_hazards.md
R340): the small font at 0x000..0x04F, the large font, if there is one, at 0x050..0x0EF, 0 elsewhere. It is
also what an address that the memory list does not name reads as (log 7). -/
def background (c : Config) (a : Nat) : Byte :=
  if a < 0x050 then c.fontSmall.getD a 0
  else if a < 0x0F0 then
    match c.fontLarge with
    | some f => f.getD (a - 0x050) 0
    | none => 0
  else 0

/-- The registers V0..VF at reset (10_state.md R51, D22). -/
def resetV : Vector Byte 16 := Vector.replicate 16 0
/-- `I` at reset (R51, D22). -/
def resetI : Addr := 0
/-- `PC` at reset (R51, D22). -/
def resetPC : Addr := BitVec.ofNat 12 romBase
/-- `DT` at reset (R51, D22). -/
def resetDT : Byte := 0
/-- `ST` at reset (R51, D22). -/
def resetST : Byte := 0
/-- `HIRES` at reset: lores (R45, R51, D21). -/
def resetHires : Bool := false
/-- `ACTIVE` at reset: plane 0 (R47, R51, D21). -/
def resetActive : Nibble := 0b0001

/-- `W` at the resolution `hires` (10_state.md R45). -/
def widthOf (hires : Bool) : Nat := if hires then 128 else 64
/-- `H` at the resolution `hires` (10_state.md R45). -/
def heightOf (hires : Bool) : Nat := if hires then 64 else 32

/-- A `w` x `h` grid of 0 as rows, top to bottom, of pixels, left to right (10_state.md R46). -/
def blankGrid (w h : Nat) : List (List Bool) := List.replicate h (List.replicate w false)

/-- `P` at reset: one blank plane (R51, D21). -/
def resetPlanes : List (List (List Bool)) := [blankGrid (widthOf resetHires) (heightOf resetHires)]

end Sys2Proof.Machine
end

