-- ==== Sys2Proof/Machine/State.lean ====
section
/-! DEFINITION. The state of the block (10_state.md R30), as plain data: every field the spec names, the
parameters it runs with, and the model's own record of what the host has put at the block's inputs. -/

namespace Sys2Proof.Machine

/-- `MEM` (20_memory.md R70) as the bytes that differ from `background`: addresses strictly rising, no
entry equal to the background byte at its address (log 7). -/
abbrev Memory := List Host.Cell

/-- One plane of the framebuffer: rows from the top, pixels from the left (10_state.md R46). -/
abbrev Grid := List (List Bool)

/-- The inputs one `STEP` samples (00_scope.md R3): they are no state of the block (R49). -/
structure StepInputs where
  /-- `KEYS`: bit k is 1 while key k is latched down. -/
  keys : BitVec 16
  /-- `RND`: the step's random byte. -/
  rnd : Byte
  /-- `GEOM_OK(lores)`: the display can show 64x32. -/
  geomLores : Bool
  /-- `GEOM_OK(hires)`: the display can show 128x64. -/
  geomHires : Bool
  deriving DecidableEq, Repr

/-- `GEOM_OK(res)` of R3, `hires` saying which resolution. -/
def StepInputs.geomOk (inp : StepInputs) (hires : Bool) : Bool :=
  if hires then inp.geomHires else inp.geomLores

/-- A command of the host (00_scope.md R3). -/
inductive Command where
  /-- `STEP` with the inputs it samples. -/
  | step (inp : StepInputs)
  /-- `TICK`. -/
  | tick
  /-- `RESET(rom)` with `GEOM_OK(lores)` (70_reset_and_hazards.md R340). -/
  | reset (rom : List Byte) (geomLores : Bool)
  deriving DecidableEq, Repr

/-- Everything the block holds (10_state.md R30), then what the model adds. -/
structure State where
  /-- The parameters of 00_scope.md R8; no command writes them (log 1). -/
  cfg : Config
  /-- `MEM` (R70). -/
  mem : Memory
  /-- `V[0..15]` (R31). -/
  v : Vector Byte 16
  /-- `I` (R34). -/
  i : Addr
  /-- `PC` (R35). -/
  pc : Addr
  /-- `S`, the top last (R38). -/
  stack : List Addr
  /-- `DT` (R43). -/
  dt : Byte
  /-- `ST` (R43). -/
  st : Byte
  /-- `QUIRKS` (R44). -/
  quirks : Quirks
  /-- `HIRES` (R45). -/
  hires : Bool
  /-- `P`; its length is `NPLANES` (R46). -/
  planes : List Grid
  /-- `ACTIVE` (R47). -/
  active : Nibble
  /-- `HALTED` (R48). -/
  halted : Bool
  /-- `EXIT` (R48), valid when `HALTED`. -/
  exitCode : Int
  /-- `FATAL` (R48). -/
  fatal : Bool
  /-- `SV`, sticky (R48). -/
  sv : Bool
  /-- The model's own: the inputs the current `STEP` sampled (R49, log 5). -/
  inp : StepInputs
  /-- The model's own: the host's commands not yet carried out, oldest first (R3, log 5). -/
  pending : List Command
  /-- The model's own: counts the steps that sampled inputs and indexes the free inputs (log 5). -/
  seq : Nat
  deriving DecidableEq, Repr

/-- Why the machine stops with a fault. There is no such reason: every access is masked (20_memory.md
R71), every word runs (30_encoding.md R109), and every error outcome of 60_exceptions.md R310 leaves a next
state (log 11). -/
inductive Fault where
  deriving DecidableEq, Repr

/-- Why the machine gives no meaning. -/
inductive Refusal where
  /-- An arm of `exec` whose instruction has no meaning yet, named by its mnemonic. Safe: the run stops
  where the block goes on. No arm of this model uses it. -/
  | notModelled (mnemonic : String)
  deriving DecidableEq, Repr

/-- What a step, an instruction's meaning and `exec` answer. -/
abbrev Result := Host.Outcome State Fault Refusal

/-- Inputs that say nothing: no key, byte 0, no verdict. Only a place to start `inp` from (log 5). -/
def StepInputs.blank : StepInputs := ⟨0, 0, false, false⟩

/-- The state after `RESET` with parameters `c` and memory `m` (10_state.md R51): the fields of the block
are all set, and the model's own fields come from `inp`, `pending` and `seq`. -/
def State.afterReset (c : Config) (m : Memory) (inp : StepInputs) (pending : List Command) (seq : Nat) :
    State :=
  { cfg := c, mem := m, v := resetV, i := resetI, pc := resetPC, stack := []
    dt := resetDT, st := resetST, quirks := c.quirks, hires := resetHires, planes := resetPlanes
    active := resetActive, halted := false, exitCode := 0, fatal := false, sv := false
    inp := inp, pending := pending, seq := seq }

/-- The machine right after a successful `RESET` of the empty ROM (70_reset_and_hazards.md R340), with the
parameters `defaultConfig` and no command pending (logs 1 to 8). -/
def State.reset : State := State.afterReset defaultConfig [] StepInputs.blank [] 0

end Sys2Proof.Machine
end

