-- ==== Sys2Proof/Machine/Ops.lean ====
section
/-! DEFINITION. The named operations over memory, registers, the stack and the run status: the primitives of
00_scope.md R10, the memory primitives of 20_memory.md, the stack of 10_state.md R41 and R42, and the outcomes
of 60_exceptions.md. -/

namespace Sys2Proof.Machine

/-! ### Memory as a canonical list -/

/-- The byte at address `a`: the listed one, else the background's. -/
def Memory.read (bg : Nat → Byte) : Memory → Nat → Byte
  | [], a => bg a
  | (k, b) :: rest, a => if k = a then b else Memory.read bg rest a

/-- Put `b` at the head of the cells after `a`, unless the background already reads as `b` there. -/
def Memory.put (bg : Nat → Byte) (a : Nat) (b : Byte) (rest : Memory) : Memory :=
  if b = bg a then rest else (a, b) :: rest

/-- Store `b` at address `a`, keeping the canonical form. -/
def Memory.write (bg : Nat → Byte) : Memory → Nat → Byte → Memory
  | [], a, b => Memory.put bg a b []
  | (k, c) :: rest, a, b =>
    if a < k then Memory.put bg a b ((k, c) :: rest)
    else if a = k then Memory.put bg a b rest
    else (k, c) :: Memory.write bg rest a b

/-- The canonical form (log 7): addresses strictly rising and below 4096, no entry equal to the background. -/
abbrev Memory.wf (bg : Nat → Byte) (m : Memory) : Prop :=
  (m.map Prod.fst).Pairwise (· < ·) ∧ ∀ c ∈ m, c.1 < 4096 ∧ c.2 ≠ bg c.1

/-- The bytes `bs` from address `a` on, over an otherwise blank memory. -/
def romImage (bg : Nat → Byte) : Nat → List Byte → Memory
  | _, [] => []
  | a, b :: bs => Memory.put bg a b (romImage bg (a + 1) bs)

/-! ### Memory of a state (20_memory.md) -/

/-- `MEM[a]`. Addresses have 12 bits, so that R71's reduction is their arithmetic. -/
def State.readByte (s : State) (a : Addr) : Byte := Memory.read (background s.cfg) s.mem a.toNat

/-- `MEM[a] <- b`. No address is protected (R77). -/
def State.writeByte (s : State) (a : Addr) (b : Byte) : State :=
  { s with mem := Memory.write (background s.cfg) s.mem a.toNat b }

/-- The n bytes at `a`, `a + 1`, …, each modulo 4096 (R72, R200). -/
def State.readBytes (s : State) (a : Addr) : Nat → List Byte
  | 0 => []
  | n + 1 => s.readByte a :: s.readBytes (a + 1) n

/-- Write bytes to `a`, `a + 1`, …, in ascending order, each address modulo 4096 (R73). -/
def State.writeBytes (s : State) (a : Addr) : List Byte → State
  | [] => s
  | b :: bs => (s.writeByte a b).writeBytes (a + 1) bs

/-- Bytes as one number, the first in the high bits (R72). -/
def bytesToNat (bs : List Byte) : Nat := bs.foldl (fun v b => v * 256 + b.toNat) 0

/-- The low n bytes of a number, the high one first (R73). -/
def natToBytes (v : Nat) : Nat → List Byte
  | 0 => []
  | n + 1 => BitVec.ofNat 8 (v / 256 ^ n) :: natToBytes v n

/-- `MemRead(a, n)` of R72. -/
def State.memRead (s : State) (a : Addr) (n : Nat) : Nat := bytesToNat (s.readBytes a n)

/-- `MemWrite(a, n, v)` of R73. -/
def State.memWrite (s : State) (a : Addr) (n v : Nat) : State := s.writeBytes a (natToBytes v n)

/-! ### Registers (00_scope.md R10) -/

/-- `V[x]`. -/
def State.getV (s : State) (x : Nibble) : Byte := s.v[x.toNat]'x.isLt

/-- `V[x] <- b`. -/
def State.setV (s : State) (x : Nibble) (b : Byte) : State := { s with v := s.v.set x.toNat b x.isLt }

/-- `V[0xF] <- flag`, the flag written last (R11, 10_state.md R33). -/
def State.setVF (s : State) (flag : Byte) : State := s.setV 0xF flag

/-- `I <- a`. -/
def State.setI (s : State) (a : Addr) : State := { s with i := a }

/-- `PC <- a`. -/
def State.setPC (s : State) (a : Addr) : State := { s with pc := a }

/-- `DT <- b`. -/
def State.setDT (s : State) (b : Byte) : State := { s with dt := b }

/-- `ST <- b`. -/
def State.setST (s : State) (b : Byte) : State := { s with st := b }

/-- The fetch advance, PC <- a + 2 (30_encoding.md R104): what every meaning starts from (log 9). -/
def State.advance (s : State) : State := s.setPC (s.pc + 2)

/-- `skip()` of R10. -/
def State.skip (s : State) : State := s.setPC (s.pc + 2)

/-- Skip if the condition holds (10_state.md R36, R37). -/
def State.skipIf (s : State) (cond : Bool) : State := if cond then s.skip else s

/-- The bytes of V0..V(n-1), V0 first. -/
def State.regBytes (s : State) (n : Nat) : List Byte :=
  (List.range n).map fun k => s.getV (BitVec.ofNat 4 k)

/-- `V[k] <- b0; V[k+1] <- b1; …`. -/
def State.setRegs (s : State) (k : Nat) : List Byte → State
  | [] => s
  | b :: bs => (s.setV (BitVec.ofNat 4 k) b).setRegs (k + 1) bs

/-! ### Display and quirk state -/

/-- Write `HIRES`. -/
def State.setHires (s : State) (h : Bool) : State := { s with hires := h }

/-- Write the planes. -/
def State.setPlanes (s : State) (ps : List Grid) : State := { s with planes := ps }

/-- Write `ACTIVE`. -/
def State.setActive (s : State) (m : Nibble) : State := { s with active := m }

/-- Write `QUIRKS`. -/
def State.setQuirks (s : State) (q : Quirks) : State := { s with quirks := q }

/-- The value of a quirk field. -/
def quirkValue (q : Quirks) : QuirkField → Bool
  | .shift => q.shift
  | .loadStore => q.loadStore
  | .jump => q.jump
  | .loresWide => q.loresWide
  | .tall => q.tall

/-- `QUIRKS.field <- 1 - QUIRKS.field` (45_system.md R302). -/
def toggleQuirk (q : Quirks) : QuirkField → Quirks
  | .shift => { q with shift := !q.shift }
  | .loadStore => { q with loadStore := !q.loadStore }
  | .jump => { q with jump := !q.jump }
  | .loresWide => { q with loresWide := !q.loresWide }
  | .tall => { q with tall := !q.tall }

/-- `QUIRKS` as the five bits of the layout of 10_state.md R44. -/
def quirkBits (q : Quirks) : BitVec 5 :=
  BitVec.ofBool q.tall ++ BitVec.ofBool q.loresWide ++ BitVec.ofBool q.jump
    ++ BitVec.ofBool q.loadStore ++ BitVec.ofBool q.shift

/-! ### Exceptional outcomes (60_exceptions.md R310 to R313) -/

/-- `raise ConfigurationError`: every field as it was before the command, and `FATAL` set (R311). `saved` is
the state before the command. There is no vector and no saved register (R317). -/
def State.raiseConfigurationError (saved : State) : State := { saved with fatal := true }

/-- `halt(code)`: RuntimeHalt (R312). -/
def State.halt (s : State) (code : Int) : State := { s with halted := true, exitCode := code }

/-- `violation(kind)`: the sticky record of a StateViolation (R313, 10_state.md R48). -/
def State.violation (s : State) : State := { s with sv := true }

/-- `HALTED` or `FATAL`: STEP and TICK then change nothing (10_state.md R48). -/
def State.stopped (s : State) : Bool := s.halted || s.fatal

/-! ### The call stack (10_state.md R38 to R42) -/

/-- Write the stack. -/
def State.setStack (s : State) (st : List Addr) : State := { s with stack := st }

/-- No room for a push. `≤` where R41 has `=`: they agree up to `STACK_DEPTH` entries (log 3). -/
def State.stackFull (s : State) : Bool := decide (s.cfg.stackDepth ≤ s.stack.length)

/-- `Push(a)` of R41: `none` is FAIL. -/
def State.push (s : State) (a : Addr) : Option State :=
  if s.stackFull then none else some (s.setStack (s.stack ++ [a]))

/-- `Pop()` of R42: the popped address, the last element, and the state without it. `none` is FAIL. -/
def State.pop (s : State) : Option (Addr × State) :=
  match s.stack.getLast? with
  | none => none
  | some a => some (a, s.setStack s.stack.dropLast)

/-! ### Inputs and commands -/

/-- Take the inputs of a `STEP` (00_scope.md R3). -/
def State.sample (s : State) (inp : StepInputs) : State := { s with inp := inp, seq := s.seq + 1 }

/-- Replace the commands not yet carried out. -/
def State.setPending (s : State) (cs : List Command) : State := { s with pending := cs }

/-- The inputs of a step that no command supplies: free values (log 5). -/
def freeInputs (k : Nat) : StepInputs :=
  { keys := Config.freeKeys k, rnd := Config.freeRnd k
    geomLores := Config.freeGeomOk k false, geomHires := Config.freeGeomOk k true }

/-- The commands from the first `STEP` on. -/
def fromFirstStep : List Command → List Command
  | [] => []
  | .step inp :: rest => .step inp :: rest
  | .tick :: rest => fromFirstStep rest
  | .reset _ _ :: rest => fromFirstStep rest

/-- The word `w` stored at PC, the block running, and the next command a `STEP`: what
`State.withFetchWord` does (log 8). -/
def State.placeWord (s : State) (w : Word16) : State :=
  { s.writeBytes s.pc (bytesOfWord w) with
    halted := false, fatal := false, pending := fromFirstStep s.pending }

end Sys2Proof.Machine
end

