-- ==== Sys2Proof/Machine/Flags.lean ====
section
/-! DEFINITION. The values VF takes as a flag (10_state.md R33, 41_alu.md R160): exactly 0 or 1. -/

namespace Sys2Proof.Machine

/-- A flag as the byte VF gets. -/
def flagByte (b : Bool) : Byte := if b then 1 else 0

/-- `ADD Vx, Vy`: 1 iff the sum before truncation exceeds 255 (R167). -/
def carryFlag (a b : Byte) : Byte := flagByte (decide (a.toNat + b.toNat > 255))

/-- `SUB` of `b` from `a`: 1 iff there is no borrow, `a ≥ b` (R168, R170). -/
def noBorrowFlag (a b : Byte) : Byte := flagByte (decide (a.toNat ≥ b.toNat))

/-- `SHR`: the bit shifted out at the low end (R169). -/
def shiftOutLow (src : Byte) : Byte := flagByte (src.getLsbD 0)

/-- `SHL`: the bit shifted out at the high end (R171). -/
def shiftOutHigh (src : Byte) : Byte := flagByte (src.getLsbD 7)

/-- `DRW`: the collision (44_display.md R264). -/
def collisionFlag (coll : Bool) : Byte := flagByte coll

end Sys2Proof.Machine
end

