-- ==== Sys2Proof/Machine/Operands.lean ====
section
/-! DEFINITION. The operand forms: what an instruction takes beside plain Vx, Vy and an immediate. -/

namespace Sys2Proof.Machine

/-- `src` of the shifts: Vy when `Q_SHIFT` is 0, Vx when it is 1 (41_alu.md R169, R171, 90_conflicts.md C1). -/
def State.shiftSource (s : State) (x y : Nibble) : Byte :=
  if s.quirks.shift then s.getV x else s.getV y

/-- The register `JP V0, nnn` adds: V0, or Vx with x = nnn[11:8] under `Q_JUMP` (40_control_flow.md R138). -/
def State.jumpRegister (s : State) (nnn : Addr) : Nibble :=
  if s.quirks.jump then nnn.extractLsb' 8 4 else 0

/-- A byte as a 12-bit number, without extension of a sign (00_scope.md R9). -/
def zext12 (b : Byte) : Addr := b.setWidth 12

/-- The I that `LD [I], Vx` and `LD Vx, [I]` leave (R203, R204). -/
def State.indexAfter (s : State) (x : Nibble) : Addr :=
  if s.quirks.loadStore then s.i + BitVec.ofNat 12 (x.toNat + 1) else s.i

/-- The three decimal digits of a byte, hundreds first (R205). -/
def bcdDigits (v : Byte) : List Byte :=
  [BitVec.ofNat 8 (v.toNat / 100), BitVec.ofNat 8 (v.toNat / 10 % 10), BitVec.ofNat 8 (v.toNat % 10)]

/-- The address of small-font glyph `v`; the whole of `v` counts (R206, D42). -/
def smallGlyphAddr (v : Byte) : Addr := BitVec.ofNat 12 (v.toNat * 5)

/-- The address of large-font glyph `v`; the whole of `v` counts (R207, D42). -/
def largeGlyphAddr (v : Byte) : Addr := BitVec.ofNat 12 (0x050 + v.toNat * 10)

/-- `Down(v)` of 43_timers_keys.md R230: no key of number 16 or more exists. -/
def keyDown (keys : BitVec 16) (v : Byte) : Bool := decide (v.toNat < 16) && keys.getLsbD v.toNat

/-- The lowest key down (R236); 0 when there is none, which R236 does not ask for. -/
def lowestKey (keys : BitVec 16) : Byte :=
  BitVec.ofNat 8 (((List.range 16).find? fun k => keys.getLsbD k).getD 0)

end Sys2Proof.Machine
end

