-- ==== Sys2Proof/Machine/Alu.lean ====
section
/-! DEFINITION. The meanings of 41_alu.md. Operands are read before any write; the result is written first and
VF last (00_scope.md R11, 90_conflicts.md C7). -/

namespace Sys2Proof.Machine

/-- Write a result to Vx and nothing else. -/
def State.result (s : State) (x : Nibble) (r : Byte) : State := s.advance.setV x r

/-- Write a result to Vx, then the flag to VF (R160). -/
def State.resultFlag (s : State) (x : Nibble) (r flag : Byte) : State := (s.result x r).setVF flag

/-- `LD Vx, nn` (R161). -/
def execLdImm (x : Nibble) (nn : Byte) (s : State) : Result := .next (s.result x nn)

/-- `ADD Vx, nn` (R162): no carry is written. -/
def execAddImm (x : Nibble) (nn : Byte) (s : State) : Result := .next (s.result x (s.getV x + nn))

/-- `LD Vx, Vy` (R163). -/
def execLdReg (x y : Nibble) (s : State) : Result := .next (s.result x (s.getV y))

/-- `OR Vx, Vy` (R164). -/
def execOr (x y : Nibble) (s : State) : Result := .next (s.result x (s.getV x ||| s.getV y))

/-- `AND Vx, Vy` (R165). -/
def execAnd (x y : Nibble) (s : State) : Result := .next (s.result x (s.getV x &&& s.getV y))

/-- `XOR Vx, Vy` (R166). -/
def execXor (x y : Nibble) (s : State) : Result := .next (s.result x (s.getV x ^^^ s.getV y))

/-- `ADD Vx, Vy` (R167). -/
def execAddReg (x y : Nibble) (s : State) : Result :=
  .next (s.resultFlag x (s.getV x + s.getV y) (carryFlag (s.getV x) (s.getV y)))

/-- `SUB Vx, Vy` (R168). -/
def execSub (x y : Nibble) (s : State) : Result :=
  .next (s.resultFlag x (s.getV x - s.getV y) (noBorrowFlag (s.getV x) (s.getV y)))

/-- `SHR Vx, Vy` (R169). -/
def execShr (x y : Nibble) (s : State) : Result :=
  .next (s.resultFlag x (s.shiftSource x y >>> 1) (shiftOutLow (s.shiftSource x y)))

/-- `SUBN Vx, Vy` (R170). -/
def execSubn (x y : Nibble) (s : State) : Result :=
  .next (s.resultFlag x (s.getV y - s.getV x) (noBorrowFlag (s.getV y) (s.getV x)))

/-- `SHL Vx, Vy` (R171). -/
def execShl (x y : Nibble) (s : State) : Result :=
  .next (s.resultFlag x (s.shiftSource x y <<< 1) (shiftOutHigh (s.shiftSource x y)))

/-- `RND Vx, nn` (R172): the step's random byte under a mask. -/
def execRnd (x : Nibble) (nn : Byte) (s : State) : Result := .next (s.result x (s.inp.rnd &&& nn))

end Sys2Proof.Machine
end

