-- ==== Sys2Proof/Machine/Control.lean ====
section
/-! DEFINITION. The meanings of 40_control_flow.md. Each takes the state before the fetch and starts from the
fetch advance, so that its PC is the `a + 2` the rules speak of (log 9). -/

namespace Sys2Proof.Machine

/-- `RET` (R131): an empty stack is a StateViolation, with no effect but the fetch advance. -/
def execRet (s : State) : Result :=
  .next (match s.advance.pop with
    | none => s.advance.violation
    | some (a, t) => t.setPC a)

/-- `JP nnn` (R132). -/
def execJp (nnn : Addr) (s : State) : Result := .next (s.advance.setPC nnn)

/-- `CALL nnn` (R133): pushes the advanced PC; a full stack is a StateViolation, with no effect but the
fetch advance. -/
def execCall (nnn : Addr) (s : State) : Result :=
  .next (match s.advance.push s.advance.pc with
    | none => s.advance.violation
    | some t => t.setPC nnn)

/-- `SE Vx, nn` (R134). -/
def execSeImm (x : Nibble) (nn : Byte) (s : State) : Result :=
  .next (s.advance.skipIf (s.getV x == nn))

/-- `SNE Vx, nn` (R135). -/
def execSneImm (x : Nibble) (nn : Byte) (s : State) : Result :=
  .next (s.advance.skipIf (s.getV x != nn))

/-- `SE Vx, Vy` (R136). -/
def execSeReg (x y : Nibble) (s : State) : Result :=
  .next (s.advance.skipIf (s.getV x == s.getV y))

/-- `SNE Vx, Vy` (R137). -/
def execSneReg (x y : Nibble) (s : State) : Result :=
  .next (s.advance.skipIf (s.getV x != s.getV y))

/-- `JP V0, nnn` (R138). -/
def execJpV0 (nnn : Addr) (s : State) : Result :=
  .next (s.advance.setPC (nnn + zext12 (s.getV (s.jumpRegister nnn))))

end Sys2Proof.Machine
end

