-- ==== Sys2Proof/Machine/Framebuffer.lean ====
section
/-! DEFINITION. The framebuffer primitives of 44_display.md section 1. -/

namespace Sys2Proof.Machine

/-- `W` (10_state.md R45). -/
def State.width (s : State) : Nat := widthOf s.hires

/-- `H` (10_state.md R45). -/
def State.height (s : State) : Nat := heightOf s.hires

/-! ### One grid -/

/-- `G[y][x]`; a place outside the grid reads as clear (log 10). -/
def Grid.pixel (g : Grid) (x y : Nat) : Bool := (g.getD y []).getD x false

/-- `G[y][x] <- G[y][x] ^ 1`. -/
def Grid.flip (g : Grid) (x y : Nat) : Grid := g.modify y fun row => row.modify x not

/-- The grid of `w` by `h` pixels whose pixel (x, y) is `f x y`. -/
def gridOf (w h : Nat) (f : Nat → Nat → Bool) : Grid :=
  (List.range h).map fun y => (List.range w).map fun x => f x y

/-- `w` columns and `h` rows. -/
abbrev Grid.shaped (w h : Nat) (g : Grid) : Prop := g.length = h ∧ ∀ row ∈ g, row.length = w

/-! ### The planes -/

/-- `P[p][y][x]`; a plane that does not exist reads as clear (log 10). -/
def planePixel (ps : List Grid) (p x y : Nat) : Bool := Grid.pixel (ps.getD p []) x y

/-- The active list `AL`, ascending (10_state.md R47). -/
def activeList (m : Nibble) : List Nat := (List.range 4).filter fun p => m.getLsbD p

/-- Apply `f` to the planes whose bit of `m` is set, the first of the list having number `p`. -/
def mapActive (m : Nibble) (f : Grid → Grid) : Nat → List Grid → List Grid
  | _, [] => []
  | p, g :: gs => (if m.getLsbD p then f g else g) :: mapActive m f (p + 1) gs

/-- One more than the highest plane that `m` names, 0 when it names none (R250). -/
def planesNamed (m : Nibble) : Nat :=
  if m.getLsbD 3 then 4 else if m.getLsbD 2 then 3 else if m.getLsbD 1 then 2
  else if m.getLsbD 0 then 1 else 0

/-- The planes grown with blank ones until there are `n` (R250). -/
def growPlanes (w h n : Nat) (ps : List Grid) : List Grid :=
  ps ++ List.replicate (n - ps.length) (blankGrid w h)

/-- `SetActivePlanes(m)` (R250). -/
def State.setActivePlanes (s : State) (m : Nibble) : State :=
  (s.setPlanes (growPlanes s.width s.height (planesNamed m) s.planes)).setActive m

/-- `Clear()` (R251). -/
def State.clear (s : State) : State :=
  s.setPlanes (mapActive s.active (fun _ => blankGrid s.width s.height) 0 s.planes)

/-- `Resize(h)` (R252): every plane is cleared, active or not. -/
def State.resize (s : State) (h : Bool) : State :=
  (s.setHires h).setPlanes (s.planes.map fun _ => blankGrid (widthOf h) (heightOf h))

/-! ### Drawing -/

/-- Rows and row width of a sprite. -/
structure SpriteShape where
  rows : Nat
  width : Nat
  deriving DecidableEq, Repr

/-- The bytes a sprite of this shape has. -/
def SpriteShape.len (sh : SpriteShape) : Nat := sh.rows * (sh.width / 8)

/-- The shape that the height field asks for (R256). -/
def State.spriteShape (s : State) (n : Nibble) : SpriteShape :=
  if n ≠ 0 then ⟨n.toNat, 8⟩
  else if s.hires || s.quirks.loresWide then ⟨16, 16⟩
  else if s.quirks.tall then ⟨16, 8⟩
  else ⟨0, 8⟩

/-- Pixel `c` of row `r` (R253): the most significant bit is the leftmost. -/
def spriteBit (b : List Byte) (width r c : Nat) : Bool :=
  if width = 8 then (b.getD r 0).getLsbD (7 - c)
  else (b.getD (2 * r) 0 ++ b.getD (2 * r + 1) 0 : BitVec 16).getLsbD (15 - c)

/-- What a draw builds up: the planes and the collision so far. -/
structure Drawing where
  planes : List Grid
  coll : Bool
  deriving DecidableEq, Repr

/-- One set sprite pixel that lands at (x, y) of plane `p` (R257, R258). -/
def Drawing.xorPixel (d : Drawing) (p x y : Nat) : Drawing :=
  { planes := d.planes.modify p fun g => Grid.flip g x y
    coll := d.coll || planePixel d.planes p x y }

/-- The pixels `cs` of one sprite row, to row `y` of plane `p`, clipped at the right edge (R254, R258). -/
def drawRow (w : Nat) (bit : Nat → Bool) (p x0 y : Nat) (cs : List Nat) (d : Drawing) : Drawing :=
  cs.foldl (fun d c => if bit c && decide (x0 + c < w) then d.xorPixel p (x0 + c) y else d) d

/-- `Draw(X, Y, b, rows, width)` (R254, R255, R258) on planes of `w` by `h` with the active list `al`. -/
def drawSprite (w h : Nat) (al : List Nat) (ps : List Grid) (X Y : Nat) (b : List Byte) (sh : SpriteShape) :
    Drawing :=
  if al.length = 0 then ⟨ps, false⟩
  else
    (List.range sh.rows).foldl (fun d r =>
      if Y % h + r < h then
        drawRow w (spriteBit b sh.width r) (al.getD (r % al.length) 0) (X % w) (Y % h + r)
          (List.range sh.width) d
      else d) ⟨ps, false⟩

/-! ### Scrolling -/

/-- The directions of R260. -/
inductive ScrollDir where
  | down | up | right | left
  deriving DecidableEq, Repr

/-- `Shift(G, dir, amt)` for a `w` by `h` grid (R260). -/
def shiftGrid (w h : Nat) (dir : ScrollDir) (amt : Nat) (g : Grid) : Grid :=
  match dir with
  | .down => gridOf w h fun x y => if y ≥ amt then Grid.pixel g x (y - amt) else false
  | .up => gridOf w h fun x y => if y + amt < h then Grid.pixel g x (y + amt) else false
  | .right => gridOf w h fun x y => if x ≥ amt then Grid.pixel g (x - amt) y else false
  | .left => gridOf w h fun x y => if x + amt < w then Grid.pixel g (x + amt) y else false

/-- `Scroll(dir, amt)` (R259): `SCROLL_MODE` says whether anything moves. -/
def State.scroll (s : State) (dir : ScrollDir) (amt : Nat) : State :=
  match s.cfg.scrollMode with
  | .noop => s
  | .shift => s.setPlanes (mapActive s.active (shiftGrid s.width s.height dir amt) 0 s.planes)

/-- The columns `SCR` and `SCL` scroll by (R261, D9). -/
def scrollColumns : Nat := 4

/-! ### Composite -/

/-- `C[y][x]`: the OR over all planes, active or not (R262, 90_conflicts.md C4). -/
def State.composite (s : State) (x y : Nat) : Bool := s.planes.any fun g => Grid.pixel g x y

end Sys2Proof.Machine
end

