-- ==== Sys2Proof/Machine/Display.lean ====
section
/-! DEFINITION. The meanings of 44_display.md section 2. -/

namespace Sys2Proof.Machine

/-- `CLS` (R263). -/
def execCls (s : State) : Result := .next s.advance.clear

/-- What `DRW` draws: the sprite of `n` at I, at (Vx, Vy), on the active planes (R264). -/
def State.draw (s : State) (x y n : Nibble) : Drawing :=
  drawSprite s.width s.height (activeList s.active) s.planes (s.getV x).toNat (s.getV y).toNat
    (s.readBytes s.i (s.spriteShape n).len) (s.spriteShape n)

/-- `DRW Vx, Vy, n` (R264): VF gets the collision after every operand is read. -/
def execDrw (x y n : Nibble) (s : State) : Result :=
  .next ((s.advance.setPlanes (s.draw x y n).planes).setVF (collisionFlag (s.draw x y n).coll))

/-- `LOW` and `HIGH`: without the host's verdict for the resolution, a ConfigurationError that undoes the
step (R265, R266, 60_exceptions.md R311). -/
def State.switchTo (s : State) (hires : Bool) : State :=
  if s.inp.geomOk hires then s.advance.resize hires else s.raiseConfigurationError

/-- `LOW` (R265). -/
def execLow (s : State) : Result := .next (s.switchTo false)

/-- `HIGH` (R266). -/
def execHigh (s : State) : Result := .next (s.switchTo true)

/-- `SCD n` (R267). -/
def execScd (n : Nibble) (s : State) : Result := .next (s.advance.scroll .down n.toNat)

/-- `SCU n` (R268). -/
def execScu (n : Nibble) (s : State) : Result := .next (s.advance.scroll .up n.toNat)

/-- `SCR` (R269). -/
def execScr (s : State) : Result := .next (s.advance.scroll .right scrollColumns)

/-- `SCL` (R270). -/
def execScl (s : State) : Result := .next (s.advance.scroll .left scrollColumns)

/-- `PLANE x` (R271): `x` is the mask itself. -/
def execPlane (x : Nibble) (s : State) : Result := .next (s.advance.setActivePlanes x)

end Sys2Proof.Machine
end

