-- ==== Sys2Proof/Machine/IndexMemory.lean ====
section
/-! DEFINITION. The meanings of 42_index_memory.md. Every address wraps modulo 4096 and none faults. -/

namespace Sys2Proof.Machine

/-- `LD I, nnn` (R201). -/
def execLdI (nnn : Addr) (s : State) : Result := .next (s.advance.setI nnn)

/-- `ADD I, Vx` (R202): VF is no overflow flag. -/
def execAddI (x : Nibble) (s : State) : Result := .next (s.advance.setI (s.i + zext12 (s.getV x)))

/-- `LD [I], Vx` (R203): V0..Vx to I, I+1, …; under `Q_LOADSTORE` I moves past them. -/
def execStore (x : Nibble) (s : State) : Result :=
  .next ((s.advance.writeBytes s.i (s.regBytes (x.toNat + 1))).setI (s.indexAfter x))

/-- `LD Vx, [I]` (R204): V0..Vx from I, I+1, …; all reads use the I before the instruction. -/
def execLoad (x : Nibble) (s : State) : Result :=
  .next ((s.advance.setRegs 0 (s.readBytes s.i (x.toNat + 1))).setI (s.indexAfter x))

/-- `LD B, Vx` (R205). -/
def execLdB (x : Nibble) (s : State) : Result :=
  .next (s.advance.writeBytes s.i (bcdDigits (s.getV x)))

/-- `LD F, Vx` (R206). -/
def execLdF (x : Nibble) (s : State) : Result := .next (s.advance.setI (smallGlyphAddr (s.getV x)))

/-- `LD HF, Vx` (R207). -/
def execLdHF (x : Nibble) (s : State) : Result := .next (s.advance.setI (largeGlyphAddr (s.getV x)))

end Sys2Proof.Machine
end

