-- ==== Sys2Proof/Machine/System.lean ====
section
/-! DEFINITION. The meanings of 45_system.md: the program's exit, and the two steps that are no instruction of
the table, the unmapped word and the quirk toggle. -/

namespace Sys2Proof.Machine

/-- `EXIT` (R300): RuntimeHalt; PC keeps its fetch advance. -/
def execExit (s : State) : Result := .next (s.advance.halt s.cfg.exitCode)

/-- An unmapped opcode (R301): nothing but the fetch advance. -/
def runUnmapped (s : State) : Result := .next s.advance

/-- The quirk toggle (R302): the named field flips, nothing else but the fetch advance. -/
def runToggle (f : QuirkField) (s : State) : Result := .next (s.advance.setQuirks (toggleQuirk s.quirks f))

/-- The sound output a host may read: on while ST is not 0 (10_state.md R43, D44). No step reads it. -/
def State.soundOn (s : State) : Bool := s.st != 0

end Sys2Proof.Machine
end

