-- ==== Sys2Proof/Machine/TimersKeys.lean ====
section
/-! DEFINITION. The meanings of 43_timers_keys.md. `KEYS` is the sample of the current step. -/

namespace Sys2Proof.Machine

/-- `LD Vx, DT` (R231). -/
def execLdVxDT (x : Nibble) (s : State) : Result := .next (s.advance.setV x s.dt)

/-- `LD DT, Vx` (R232). -/
def execLdDTVx (x : Nibble) (s : State) : Result := .next (s.advance.setDT (s.getV x))

/-- `LD ST, Vx` (R233). -/
def execLdSTVx (x : Nibble) (s : State) : Result := .next (s.advance.setST (s.getV x))

/-- `SKP Vx` (R234). -/
def execSkp (x : Nibble) (s : State) : Result :=
  .next (s.advance.skipIf (keyDown s.inp.keys (s.getV x)))

/-- `SKNP Vx` (R235). -/
def execSknp (x : Nibble) (s : State) : Result :=
  .next (s.advance.skipIf (!keyDown s.inp.keys (s.getV x)))

/-- `LD Vx, K` (R236): with no key down, PC goes back to this instruction. -/
def execLdVxK (x : Nibble) (s : State) : Result :=
  .next (if s.inp.keys = 0 then s.advance.setPC (s.advance.pc - 2)
    else s.advance.setV x (lowestKey s.inp.keys))

end Sys2Proof.Machine
end

