-- ==== Sys2Proof/Machine/Commands.lean ====
section
/-! DEFINITION. The host's commands (00_scope.md R3): STEP (30_encoding.md R104), TICK (60_exceptions.md R320)
and RESET (70_reset_and_hazards.md R340), and the outcome each command ends in (60_exceptions.md R310). -/

namespace Sys2Proof.Machine

/-! ### STEP -/

/-- `MemRead(PC, 2)`: the byte at PC in the high bits, the byte at PC + 1 mod 4096 in the low (R78, R79). -/
def State.fetch (s : State) : Word16 := wordOfBytes (s.readByte s.pc) (s.readByte (s.pc + 1))

/-- What a fetched word asks for. -/
inductive Action where
  /-- A row of the opcode map. -/
  | run (i : Instr)
  /-- The quirk toggle of 45_system.md R302. -/
  | toggle (f : QuirkField)
  /-- No row: an unmapped opcode (45_system.md R301). -/
  | unmapped (r : DecodeReject)
  deriving DecidableEq, Repr

/-- The field that the word toggles, when `QUIRK_TOGGLE` names the word (R302). -/
def toggleField (c : Config) (w : Word16) : Option QuirkField :=
  match c.quirkToggle with
  | none => none
  | some t => if w &&& t.mask = t.bits then some t.field else none

/-- Decoding of a step: the quirk toggle first, then the opcode map (R105, R302). -/
def decodeAction (c : Config) (w : Word16) : Action :=
  match toggleField c w with
  | some f => .toggle f
  | none =>
    match decodeWord w with
    | .ok i => .run i
    | .reject r => .unmapped r

/-- Carry out what a word asks for. -/
def runAction (a : Action) (s : State) : Result :=
  match a with
  | .run i => exec i s
  | .toggle f => runToggle f s
  | .unmapped _ => runUnmapped s

/-- Fetch, decode and execute one word, the inputs being sampled (R104). -/
def fetchExecute (s : State) : Result := runAction (decodeAction s.cfg s.fetch) s

/-- The command `STEP` with the inputs `inp`: nothing at all while `HALTED` or `FATAL` (R104, R48). -/
def stepCommand (inp : StepInputs) (s : State) : Result :=
  if s.stopped then .next s else fetchExecute (s.sample inp)

/-! ### TICK -/

/-- A timer one tick later (R320). -/
def timerTick (t : Byte) : Byte := if t.toNat > 0 then t - 1 else t

/-- The command `TICK` (R320). -/
def tickCommand (s : State) : State :=
  if s.stopped then s else (s.setDT (timerTick s.dt)).setST (timerTick s.st)

/-! ### RESET -/

/-- The state a successful `RESET(rom)` leaves (R340, 10_state.md R51). The parameters stay; so do the
model's own record of inputs and pending commands (log 8). -/
def State.loaded (s : State) (rom : List Byte) : State :=
  State.afterReset s.cfg (romImage (background s.cfg) romBase rom) s.inp s.pending s.seq

/-- The command `RESET(rom)`: the size check first, then the geometry check (R340, 60_exceptions.md R316). -/
def resetCommand (rom : List Byte) (geomLores : Bool) (s : State) : State :=
  if rom.length > romMax then s.raiseConfigurationError
  else if geomLores then s.loaded rom
  else s.raiseConfigurationError

/-! ### One command -/

/-- Carry out a command. -/
def runCommand (c : Command) (s : State) : Result :=
  match c with
  | .step inp => stepCommand inp s
  | .tick => .next (tickCommand s)
  | .reset rom geomLores => .next (resetCommand rom geomLores s)

/-- The next command: the oldest pending one, or, with none pending, a `STEP` with free inputs (log 5). -/
def runNext (s : State) : Result :=
  match s.pending with
  | [] => stepCommand (freeInputs s.seq) s
  | c :: rest => runCommand c (s.setPending rest)

/-! ### Outcomes -/

/-- The outcomes of 60_exceptions.md R310, each with its cause. -/
inductive CommandOutcome where
  | normal
  | romTooLarge
  | terminalTooSmall
  | exit
  | stackOverflow
  | stackUnderflow
  deriving DecidableEq, Repr

/-- The numeric code of R310 (D36). -/
def CommandOutcome.code : CommandOutcome → Nat
  | .normal => 0
  | .romTooLarge => 1
  | .terminalTooSmall => 2
  | .exit => 3
  | .stackOverflow => 4
  | .stackUnderflow => 5

/-- The outcome of executing one instruction (R310, R316). -/
def instrOutcome (i : Instr) (s : State) : CommandOutcome :=
  match i with
  | .call _ => if s.stackFull then .stackOverflow else .normal
  | .ret => if s.stack.isEmpty then .stackUnderflow else .normal
  | .low => if s.inp.geomOk false then .normal else .terminalTooSmall
  | .high => if s.inp.geomOk true then .normal else .terminalTooSmall
  | .exit => .exit
  | .cls | .scd _ | .scu _ | .scr | .scl | .jp _ | .seImm _ _ | .sneImm _ _ | .seReg _ _ | .ldImm _ _
  | .addImm _ _ | .ldReg _ _ | .or _ _ | .and _ _ | .xor _ _ | .addReg _ _ | .sub _ _ | .shr _ _
  | .subn _ _ | .shl _ _ | .sneReg _ _ | .ldI _ | .jpV0 _ | .rnd _ _ | .drw _ _ _ | .skp _ | .sknp _
  | .plane _ | .ldVxDT _ | .ldVxK _ | .ldDTVx _ | .ldSTVx _ | .addI _ | .ldF _ | .ldHF _ | .ldB _
  | .store _ | .load _ => .normal

/-- The outcome of what a word asks for. -/
def actionOutcome (a : Action) (s : State) : CommandOutcome :=
  match a with
  | .run i => instrOutcome i s
  | .toggle _ => .normal
  | .unmapped _ => .normal

/-- The outcome a command ends in (R310): of a `STEP` that of its instruction, with the stop check before
everything (R316). -/
def commandOutcome (c : Command) (s : State) : CommandOutcome :=
  match c with
  | .step inp =>
    if s.stopped then .normal
    else actionOutcome (decodeAction s.cfg s.fetch) (s.sample inp)
  | .tick => .normal
  | .reset rom geomLores =>
    if rom.length > romMax then .romTooLarge
    else if geomLores then .normal
    else .terminalTooSmall

end Sys2Proof.Machine
end

