-- ==== Sys2Proof/Machine/Step.lean ====
section
/-! DEFINITION. One step of the machine: one command of the host (00_scope.md R3), and the placing of an
instruction where the next step fetches. -/

namespace Sys2Proof.Machine

/-- Carry out the next command (log 5). -/
def step (s : State) : Host.Outcome State Fault Refusal := runNext s

/-- `s` with the instruction whose bits are `w` at PC and the next step set to run it (log 8). -/
def State.withFetchWord (s : State) (nbits w : Nat) : State := s.placeWord (tableWord nbits w)

end Sys2Proof.Machine
end

