-- ==== Sys2Proof/Safety.lean ====
section
/-! DEFINITION. What a sound state of the block is, and what counts as a safe run, in the terms the
statements use. -/

namespace Sys2Proof.Machine

/-- The invariant of the block: what the spec says of its state beside the widths that the types carry. -/
structure State.Inv (s : State) : Prop where
  /-- The parameters have the sizes of 00_scope.md R8, and `BATCH` and `DEBOUNCE` are not 0 (log 19). -/
  config : s.cfg.wf = true
  /-- The memory list is canonical (20_memory.md R70, log 7). -/
  memory : Memory.wf (background s.cfg) s.mem
  /-- The stack holds at most `STACK_DEPTH` addresses (10_state.md R38). -/
  stackBound : s.stack.length ≤ s.cfg.stackDepth
  /-- `NPLANES` is 1 to `MAX_PLANES` = 4 (10_state.md R46). -/
  planeCount : 1 ≤ s.planes.length ∧ s.planes.length ≤ 4
  /-- Every plane has the current resolution (10_state.md R46). -/
  planeShape : ∀ g ∈ s.planes, Grid.shaped s.width s.height g
  /-- Every active plane exists (10_state.md R47). -/
  activeExist : ∀ p, p < 4 → s.active.getLsbD p = true → p < s.planes.length

/-- The run has met no error: no ConfigurationError (60_exceptions.md R311) and no StateViolation (R313). -/
abbrev State.Safe (s : State) : Prop := s.fatal = false ∧ s.sv = false

/-- The run has ended (70_reset_and_hazards.md R347). -/
abbrev State.Ended (s : State) : Prop := s.halted = true ∨ s.fatal = true

end Sys2Proof.Machine
end

