-- ==== Sys2Proof/Certificates/Slice0/Obligations.lean ====
section
/-! DEFINITION. The statements for the provers. First the words they are written in: the parts of a state, what
an instruction leaves alone, and the tables of spec/ that several statements read. -/

namespace Sys2Proof.Spec

open Sys2Proof.Machine

/-! ### Frames -/

/-- The parts of a state, for saying which of them an instruction leaves alone. -/
inductive Part where
  | cfg | mem | v | i | pc | stack | dt | st | quirks | hires | planes | active
  | halted | exitCode | fatal | sv | host
  deriving DecidableEq, Repr

/-- The part reads the same in `t` as in `s`. Memory is read byte by byte, the registers one by one; `host` is
the model's own record of inputs and commands. -/
def Part.Same (s t : State) : Part → Prop
  | .cfg => t.cfg = s.cfg
  | .mem => ∀ a, t.readByte a = s.readByte a
  | .v => ∀ r, t.getV r = s.getV r
  | .i => t.i = s.i
  | .pc => t.pc = s.pc
  | .stack => t.stack = s.stack
  | .dt => t.dt = s.dt
  | .st => t.st = s.st
  | .quirks => t.quirks = s.quirks
  | .hires => t.hires = s.hires
  | .planes => t.planes = s.planes
  | .active => t.active = s.active
  | .halted => t.halted = s.halted
  | .exitCode => t.exitCode = s.exitCode
  | .fatal => t.fatal = s.fatal
  | .sv => t.sv = s.sv
  | .host => t.inp = s.inp ∧ t.pending = s.pending ∧ t.seq = s.seq

/-- Every part but those listed reads the same. -/
def SameExcept (ps : List Part) (s t : State) : Prop := ∀ p, p ∉ ps → Part.Same s t p

/-- The result is a next state, and `P` holds of it. -/
def Completes (r : Result) (P : State → Prop) : Prop := ∃ t, r = .next t ∧ P t

/-- A result with its next state, if it has one, changed by `f`. -/
def mapNext (f : State → State) : Result → Result
  | .next t => .next (f t)
  | .fault r => .fault r
  | .refused r => .refused r

/-! ### Tables of the spec -/

/-- The unmapped words as 30_encoding.md R109 lists them. -/
def ListedUnmapped (w : Word16) : Prop :=
  (groupField w = 0x0 ∧ yField w ≠ 0xC ∧ yField w ≠ 0xD ∧
    nnField w ∉ ([0xE0, 0xEE, 0xFB, 0xFC, 0xFD, 0xFE, 0xFF] : List Byte)) ∨
  ((groupField w = 0x5 ∨ groupField w = 0x9) ∧ nField w ≠ 0) ∨
  (groupField w = 0x8 ∧ nField w ∈ ([0x8, 0x9, 0xA, 0xB, 0xC, 0xD, 0xF] : List Nibble)) ∨
  (groupField w = 0xE ∧ nnField w ∉ ([0x9E, 0xA1] : List Byte)) ∨
  (groupField w = 0xF ∧ nnField w ∉
    ([0x01, 0x07, 0x0A, 0x15, 0x18, 0x1E, 0x29, 0x30, 0x33, 0x55, 0x65] : List Byte))

/-- Key `v` exists and is down (43_timers_keys.md R230). -/
abbrev KeyIsDown (s : State) (v : Byte) : Prop := v.toNat < 16 ∧ s.inp.keys.getLsbD v.toNat = true

/-- The PC column of the table of 10_state.md R36, `s` being the state before the fetch. -/
def pcAfter (i : Instr) (s : State) : Addr :=
  match i with
  | .jp nnn => nnn
  | .jpV0 nnn =>
    if s.quirks.jump then BitVec.ofNat 12 (nnn.toNat + (s.getV (nnn.extractLsb' 8 4)).toNat)
    else BitVec.ofNat 12 (nnn.toNat + (s.getV 0).toNat)
  | .call nnn => if s.cfg.stackDepth ≤ s.stack.length then s.pc + 2 else nnn
  | .ret => s.stack.getLast?.getD (s.pc + 2)
  | .seImm x nn => if s.getV x = nn then s.pc + 4 else s.pc + 2
  | .sneImm x nn => if s.getV x = nn then s.pc + 2 else s.pc + 4
  | .seReg x y => if s.getV x = s.getV y then s.pc + 4 else s.pc + 2
  | .sneReg x y => if s.getV x = s.getV y then s.pc + 2 else s.pc + 4
  | .skp x => if KeyIsDown s (s.getV x) then s.pc + 4 else s.pc + 2
  | .sknp x => if KeyIsDown s (s.getV x) then s.pc + 2 else s.pc + 4
  | .ldVxK _ => if s.inp.keys = 0 then s.pc else s.pc + 2
  | .low => if s.inp.geomLores = true then s.pc + 2 else s.pc
  | .high => if s.inp.geomHires = true then s.pc + 2 else s.pc
  | .cls | .scd _ | .scu _ | .scr | .scl | .exit | .ldImm _ _ | .addImm _ _ | .ldReg _ _ | .or _ _
  | .and _ _ | .xor _ _ | .addReg _ _ | .sub _ _ | .shr _ _ | .subn _ _ | .shl _ _ | .ldI _ | .rnd _ _
  | .drw _ _ _ | .plane _ | .ldVxDT _ | .ldDTVx _ | .ldSTVx _ | .addI _ | .ldF _ | .ldHF _ | .ldB _
  | .store _ | .load _ => s.pc + 2

/-- The writers of general registers of 10_state.md R32: may `i` write register `r`? -/
def WritesReg (i : Instr) (r : Nibble) : Prop :=
  match i with
  | .ldImm x _ | .addImm x _ | .ldReg x _ | .or x _ | .and x _ | .xor x _ | .rnd x _ | .ldVxDT x
  | .ldVxK x => r = x
  | .addReg x _ | .sub x _ | .subn x _ | .shr x _ | .shl x _ => r = x ∨ r = 0xF
  | .drw _ _ _ => r = 0xF
  | .load x => r.toNat ≤ x.toNat
  | .cls | .ret | .scd _ | .scu _ | .scr | .scl | .exit | .low | .high | .jp _ | .call _ | .seImm _ _
  | .sneImm _ _ | .seReg _ _ | .sneReg _ _ | .ldI _ | .jpV0 _ | .skp _ | .sknp _ | .plane _ | .ldDTVx _
  | .ldSTVx _ | .addI _ | .ldF _ | .ldHF _ | .ldB _ | .store _ => False

/-- The addresses an instruction stores to (20_memory.md R80), computed from the I before it. -/
def StoresTo (i : Instr) (s : State) (a : Addr) : Prop :=
  match i with
  | .store x => ∃ k, k ≤ x.toNat ∧ a = s.i + BitVec.ofNat 12 k
  | .ldB _ => ∃ k, k < 3 ∧ a = s.i + BitVec.ofNat 12 k
  | .cls | .ret | .scd _ | .scu _ | .scr | .scl | .exit | .low | .high | .jp _ | .call _ | .seImm _ _
  | .sneImm _ _ | .seReg _ _ | .ldImm _ _ | .addImm _ _ | .ldReg _ _ | .or _ _ | .and _ _ | .xor _ _
  | .addReg _ _ | .sub _ _ | .shr _ _ | .subn _ _ | .shl _ _ | .sneReg _ _ | .ldI _ | .jpV0 _ | .rnd _ _
  | .drw _ _ _ | .skp _ | .sknp _ | .plane _ | .ldVxDT _ | .ldVxK _ | .ldDTVx _ | .ldSTVx _ | .addI _
  | .ldF _ | .ldHF _ | .load _ => False

/-! ### The sprite as 44_display.md describes it -/

/-- Rows of the sprite that height field `n` asks for (R256). -/
def spriteRows (s : State) (n : Nibble) : Nat :=
  if n ≠ 0 then n.toNat
  else if s.hires = true ∨ s.quirks.loresWide = true ∨ s.quirks.tall = true then 16 else 0

/-- Row width of that sprite (R256). -/
def spriteWidth (s : State) (n : Nibble) : Nat :=
  if n = 0 ∧ (s.hires = true ∨ s.quirks.loresWide = true) then 16 else 8

/-- Pixel `c` of row `r` of the sprite at I, most significant bit leftmost (R253): a row of 8 pixels is the
byte at `I + r`, a row of 16 the two bytes at `I + 2r`. -/
def spritePixel (s : State) (n : Nibble) (r c : Nat) : Bool :=
  if spriteWidth s n = 8 then (s.readByte (s.i + BitVec.ofNat 12 r)).getLsbD (7 - c)
  else if c < 8 then (s.readByte (s.i + BitVec.ofNat 12 (2 * r))).getLsbD (7 - c)
  else (s.readByte (s.i + BitVec.ofNat 12 (2 * r + 1))).getLsbD (15 - c)

/-- `DRW Vx, Vy, n` turns pixel (`px`, `py`) of plane `p` over: the origin wraps, what passes an edge is
clipped (R254), row r goes to the (r mod k)-th active plane (R255), and the sprite pixel there is 1 (R257). -/
def Turned (s : State) (x y n : Nibble) (p px py : Nat) : Prop :=
  ∃ r c, r < spriteRows s n ∧ c < spriteWidth s n ∧
    px = (s.getV x).toNat % s.width + c ∧ px < s.width ∧
    py = (s.getV y).toNat % s.height + r ∧ py < s.height ∧
    (activeList s.active)[r % (activeList s.active).length]? = some p ∧
    spritePixel s n r c = true

/-- The planes are as 10_state.md R46 and R47 say: each of the current resolution, each active one there. -/
abbrev PlanesSound (s : State) : Prop :=
  (∀ g ∈ s.planes, Grid.shaped s.width s.height g) ∧
    ∀ p, p < 4 → s.active.getLsbD p = true → p < s.planes.length

/-- The memory list of the state is canonical (log 7). -/
abbrev MemoryCanonical (s : State) : Prop := Memory.wf (background s.cfg) s.mem

/-! ### Inputs, replaced -/

/-- The state with other `KEYS` sampled. -/
def withKeys (k : BitVec 16) (s : State) : State := { s with inp := { s.inp with keys := k } }
/-- The state with another `RND` sampled. -/
def withRnd (b : Byte) (s : State) : State := { s with inp := { s.inp with rnd := b } }
/-- The state with other `GEOM_OK` verdicts sampled. -/
def withGeom (l h : Bool) (s : State) : State :=
  { s with inp := { s.inp with geomLores := l, geomHires := h } }

end Sys2Proof.Spec

open Sys2Proof Sys2Proof.Machine Sys2Proof.Spec

/-! ## Encoding -/

/-- Twelve words decode to the instruction they stand for: those the source spells or its example confirms
(30_encoding.md, basis S and E) and eight more written out from the map R106 (D32), one at least of each
instruction file of spec/, among them a word of group 0 with its x nibble set (D12). A thirteenth, `5xy1`, stands
for no instruction and is rejected (D13). -/
def Obligations.WrittenWordsDecode : Prop :=
  decodeWord 0x6005 = .ok (.ldImm 0 0x05) ∧ decodeWord 0x8014 = .ok (.addReg 0 1) ∧
  decodeWord 0xF255 = .ok (.store 2) ∧ decodeWord 0xF265 = .ok (.load 2) ∧
  decodeWord 0x05E0 = .ok .cls ∧ decodeWord 0x00C3 = .ok (.scd 3) ∧
  decodeWord 0x2300 = .ok (.call 0x300) ∧ decodeWord 0xB234 = .ok (.jpV0 0x234) ∧
  decodeWord 0xD125 = .ok (.drw 1 2 5) ∧ decodeWord 0xE1A1 = .ok (.sknp 1) ∧
  decodeWord 0xF401 = .ok (.plane 4) ∧ decodeWord 0x00FD = .ok .exit ∧
  decodeWord 0x5011 = .reject .unmappedGroup5

/-- Decode and encode agree: the bytes `encode` lays out, whatever follows them, decode to the instruction,
with every operand at every value, and the decoder takes exactly these bytes (R100). -/
def Obligations.DecodeOfEncodeIsIdentity : Prop :=
  ∀ (i : Instr) (rest : List Byte), i.wf = true → decodeBytes (encodeBytes i ++ rest) = (.ok i, rest)

/-- No bit of a word is dropped but the x nibble of group 0, which R107 says is not examined (D12): encoding
what a word decodes to gives the word back, with that nibble 0. That `encode` writes 0 there is the model's choice
(log 13), no rule of the spec. -/
def Obligations.EncodeOfDecodeKeepsExaminedBits : Prop :=
  ∀ (w : Word16) (i : Instr), decodeWord w = .ok i →
    encode i = w &&& (if groupField w = 0 then 0xF0FF else 0xFFFF)

/-- The decoder is the opcode map of R106 read as R105 reads it: a decoded word matches its instruction's row,
a word that matches a row decodes to an instruction of that row, so that no two rows match one word, and the
table has 43 rows. -/
def Obligations.DecoderIsTheOpcodeMap : Prop :=
  opcodeTable.length = 43 ∧
  (∀ w i, decodeWord w = .ok i → i.row ∈ opcodeTable ∧ w &&& i.row.mask = i.row.bits) ∧
  ∀ w r, r ∈ opcodeTable → w &&& r.mask = r.bits → ∃ i, decodeWord w = .ok i ∧ i.row = r

/-- The words the decoder rejects are exactly those that R109 lists. -/
def Obligations.RejectedWordsAreTheListedOnes : Prop :=
  ∀ w, (∃ r, decodeWord w = .reject r) ↔ ListedUnmapped w

/-! ## The step -/

/-- A step runs the decoded instruction: when the two bytes at PC decode to `i` and are no quirk toggle, the
step of a running block is `exec i` on the state with the step's inputs sampled: those of the pending `STEP`,
which is taken off, or free ones when nothing is pending. The queue with its free inputs (log 5) and the fetch
advance as a part of `exec` (log 9) are the model's choice. -/
def Obligations.StepRunsDecodedInstruction : Prop :=
  ∀ (s : State) (i : Instr), s.halted = false → s.fatal = false → i.wf = true →
    decodeBytes (s.readBytes s.pc 2) = (.ok i, []) →
    toggleField s.cfg (wordOfBytes (s.readByte s.pc) (s.readByte (s.pc + 1))) = none →
    (∀ inp rest, s.pending = .step inp :: rest → step s = exec i ((s.setPending rest).sample inp)) ∧
    (s.pending = [] → step s = exec i (s.sample (freeInputs s.seq)))

/-- The word fetched is big-endian and wraps at the end of memory: 256 times the byte at PC plus the byte at
(PC + 1) mod 4096, at an odd PC as at any other (R78, R79, D11). -/
def Obligations.FetchIsBigEndianAndWraps : Prop :=
  ∀ s : State, s.fetch.toNat =
    256 * (s.readByte s.pc).toNat + (s.readByte (BitVec.ofNat 12 ((s.pc.toNat + 1) % 4096))).toNat ∧
    s.fetch.toNat = s.memRead s.pc 2

/-- A word placed at PC is what the next step runs, also after any earlier contents: memory is read directly
by the fetch (R85). That `withFetchWord` places a word from outside and sets the block running (log 8) and that
an empty queue is a `STEP` with free inputs (log 5) are the model's choice, no rule of the spec. -/
def Obligations.PlacedWordIsRunNext : Prop :=
  ∀ (s : State) (w : Nat) (i : Instr), MemoryCanonical s → w < 65536 → s.pending = [] →
    decodeTableWord 16 w = some i → toggleField s.cfg (BitVec.ofNat 16 w) = none →
    step (s.withFetchWord 16 w) = exec i ((s.withFetchWord 16 w).sample (freeInputs s.seq))

/-- The unmapped word (45_system.md R301): its step changes only PC, by the fetch advance, and raises nothing. Of
the model's own record the inputs are sampled, those of the pending `STEP`, which is taken off, or free ones when
nothing is pending: that record and its free inputs are the model's choice (log 5), as is the outcome as a
function (log 15). -/
def Obligations.UnmappedWordOnlyAdvancesPc : Prop :=
  ∀ (s : State) (r : DecodeReject), s.halted = false → s.fatal = false →
    toggleField s.cfg s.fetch = none → decodeWord s.fetch = .reject r →
    (∀ inp rest, s.pending = .step inp :: rest →
      Completes (step s) (fun t => t.pc = s.pc + 2 ∧ SameExcept [.pc, .host] s t ∧ t.pending = rest) ∧
      commandOutcome (.step inp) s = .normal) ∧
    (s.pending = [] →
      Completes (step s) (fun t => t.pc = s.pc + 2 ∧ SameExcept [.pc, .host] s t ∧ t.pending = []) ∧
      commandOutcome (.step (freeInputs s.seq)) s = .normal)

/-- While `HALTED` or `FATAL` is set, a `STEP` and a `TICK` change nothing of the block: the command is taken
off and that is all (10_state.md section 10, D27). The queue of commands, and that an empty one is a `STEP` with
free inputs, are the model's choice (log 5). -/
def Obligations.StoppedBlockIgnoresStepAndTick : Prop :=
  ∀ s : State, (s.halted = true ∨ s.fatal = true) →
    (s.pending = [] → step s = .next s) ∧
    (∀ inp rest, s.pending = .step inp :: rest → step s = .next (s.setPending rest)) ∧
    (∀ rest, s.pending = .tick :: rest → step s = .next (s.setPending rest))

/-- The quirk toggle (45_system.md, D7): when `QUIRK_TOGGLE` names the fetched word, the step flips the named
field and no other, and does nothing else but the fetch advance, whatever row the word would match. The `STEP` is
the pending one, which is taken off, or, with nothing pending, the one with free inputs: the model's choice
(log 5), as is that the toggle is an action of the step (log 12). -/
def Obligations.QuirkToggleFlipsItsField : Prop :=
  ∀ (s : State) (t : QuirkToggle), s.halted = false → s.fatal = false →
    s.cfg.quirkToggle = some t → s.fetch &&& t.mask = t.bits →
    let toggled (rest : List Command) (u : State) : Prop :=
      u.pc = s.pc + 2 ∧ SameExcept [.pc, .quirks, .host] s u ∧ u.pending = rest ∧
      ∀ f, quirkValue u.quirks f = if f = t.field then !quirkValue s.quirks f else quirkValue s.quirks f
    (∀ inp rest, s.pending = .step inp :: rest → Completes (step s) (toggled rest)) ∧
    (s.pending = [] → Completes (step s) (toggled []))

/-- `TICK` (60_exceptions.md R320): each timer goes down by one unless it is 0, in a block that is not stopped;
nothing else changes but the command taken off, of a queue that is the model's choice (log 5). -/
def Obligations.TickDecrementsTimersClamped : Prop :=
  ∀ (s : State) (rest : List Command), s.halted = false → s.fatal = false → s.pending = .tick :: rest →
    Completes (step s) (fun t => t.dt.toNat = s.dt.toNat - 1 ∧ t.st.toNat = s.st.toNat - 1 ∧
      SameExcept [.dt, .st, .host] s t ∧ t.pending = rest ∧ t.inp = s.inp)

/-- `RESET(rom)` with a ROM that fits and a display that shows lores (70_reset_and_hazards.md, 10_state.md
section 12; D21 to D24, D40): every register and control field at its reset value, the ROM from 0x200, the
fonts and zeros elsewhere, whatever the block held and whether or not it was stopped. The register and display
values are the spec's choice (logs 6, 17), and the queue of commands and parameters that `RESET` keeps the model's
(logs 1, 5, 8). -/
def Obligations.ResetLeavesListedValues : Prop :=
  ∀ (s : State) (rom : List Byte) (rest : List Command), rom.length ≤ 3584 →
    s.pending = .reset rom true :: rest →
    Completes (step s) (fun t =>
      (∀ r, t.getV r = 0) ∧ t.i = 0 ∧ t.pc = 0x200 ∧ t.stack = [] ∧ t.dt = 0 ∧ t.st = 0 ∧
      t.quirks = s.cfg.quirks ∧ t.hires = false ∧
      t.planes = [List.replicate 32 (List.replicate 64 false)] ∧ t.active = 0b0001 ∧
      t.halted = false ∧ t.exitCode = 0 ∧ t.fatal = false ∧ t.sv = false ∧ t.cfg = s.cfg ∧
      (∀ k (hk : k < rom.length), t.readByte (BitVec.ofNat 12 (0x200 + k)) = rom[k]) ∧
      (∀ a : Addr, a.toNat < 0x050 → t.readByte a = s.cfg.fontSmall.getD a.toNat 0) ∧
      (∀ a : Addr, 0x050 ≤ a.toNat → a.toNat < 0x0F0 →
        t.readByte a = (s.cfg.fontLarge.getD []).getD (a.toNat - 0x050) 0) ∧
      (∀ a : Addr, 0x0F0 ≤ a.toNat → (a.toNat < 0x200 ∨ 0x200 + rom.length ≤ a.toNat) →
        t.readByte a = 0))

/-- `RESET(rom)` that cannot be done (70_reset_and_hazards.md, 60_exceptions.md; D26, D27, D36, D40): a ROM over
3584 bytes, checked first, or a display that cannot show lores. Every field stays, and `FATAL` is set. The queue
of commands (log 5) and the outcome as a function (log 15) are the model's choice. -/
def Obligations.RejectedResetOnlySetsFatal : Prop :=
  ∀ (s : State) (rom : List Byte) (g : Bool) (rest : List Command),
    s.pending = .reset rom g :: rest → (3584 < rom.length ∨ g = false) →
    Completes (step s) (fun t => t.fatal = true ∧ SameExcept [.fatal, .host] s t ∧ t.pending = rest) ∧
    commandOutcome (.reset rom g) s =
      (if 3584 < rom.length then CommandOutcome.romTooLarge else CommandOutcome.terminalTooSmall)

/-- `State.reset` is what `RESET` of an empty ROM leaves with the parameters `defaultConfig` (logs 2 to 6, 8;
the model's choice where the spec leaves a parameter open): PC at 0x200, glyph A of the small font at 0x032. -/
def Obligations.ResetStateIsEmptyRomReset : Prop :=
  ∀ s : State, s.cfg = defaultConfig →
    SameExcept [.host] State.reset (resetCommand [] true s) ∧ State.reset.pc = 0x200 ∧
    State.reset.readBytes 0x032 5 = [0xF0, 0x90, 0xF0, 0x90, 0x90]

/-! ## Memory -/

/-- A read returns the last value written to its address, and a write changes no other address (R82, D45,
R77). -/
def Obligations.ReadAfterWrite : Prop :=
  ∀ (s : State) (a b : Addr) (v : Byte), MemoryCanonical s →
    (s.writeByte a v).readByte b = (if b = a then v else s.readByte b) ∧
    SameExcept [.mem] s (s.writeByte a v)

/-- `MemRead(a, n)` is the loop of R72: the bytes at (a + k) mod 4096 in ascending k, each shifted in at the
low end. -/
def Obligations.MemReadShiftsBytesIn : Prop :=
  ∀ (s : State) (a : Addr) (n : Nat), 1 ≤ n →
    s.memRead a n = (List.range n).foldl
      (fun v k => v <<< 8 ||| (s.readByte (BitVec.ofNat 12 ((a.toNat + k) % 4096))).toNat) 0

/-- `MemWrite(a, n, v)` is the loop of R73: byte n-1-k of `v` to (a + k) mod 4096, in ascending k, going on at
0x000 past 0xFFF. -/
def Obligations.MemWriteStoresBytesAscending : Prop :=
  ∀ (s : State) (a : Addr) (n v : Nat), 1 ≤ n →
    s.memWrite a n v = (List.range n).foldl
      (fun t k => t.writeByte (BitVec.ofNat 12 ((a.toNat + k) % 4096))
        (BitVec.ofNat 8 (v >>> (8 * (n - 1 - k))))) s

/-- Self-modifying code (R85): what `LD [I], Vx` stores at the address of the next instruction is what the next
step fetches. -/
def Obligations.StoreIsSeenByTheNextFetch : Prop :=
  ∀ (s : State) (x : Nibble), MemoryCanonical s → x ≠ 0 → s.i = s.pc + 2 →
    Completes (exec (.store x) s) (fun t => t.fetch = wordOfBytes (s.getV 0) (s.getV 1))

/-! ## Control transfer -/

/-- Every instruction completes, and leaves PC as the table of 10_state.md R36 says. A stack past `STACK_DEPTH`
entries counts as full, the model's choice (log 3) where R39 and R41 speak of exactly `STACK_DEPTH`; that no key of
number 16 or more is down, in the rows of `SKP` and `SKNP`, is the spec's choice D16. -/
def Obligations.EveryInstructionLeavesTheListedPc : Prop :=
  ∀ (i : Instr) (s : State), Completes (exec i s) (fun t => t.pc = pcAfter i s)

/-- The jumps (R132, R138, D38): PC is the target, modulo 4096, odd or even; nothing else changes. -/
def Obligations.JumpsSetPcOnly : Prop :=
  ∀ (nnn : Addr) (s : State),
    Completes (exec (.jp nnn) s) (fun t => t.pc = nnn ∧ SameExcept [.pc] s t) ∧
    Completes (exec (.jpV0 nnn) s) (fun t =>
      t.pc.toNat = (nnn.toNat + (s.getV (if s.quirks.jump then nnn.extractLsb' 8 4 else 0)).toNat) % 4096 ∧
      SameExcept [.pc] s t)

/-- The compare-and-skip instructions (R134 to R137, D37): one word more is passed exactly when the comparison
holds; nothing but PC changes. -/
def Obligations.SkipsPassOneWord : Prop :=
  ∀ (x y : Nibble) (nn : Byte) (s : State),
    Completes (exec (.seImm x nn) s) (fun t =>
      t.pc = s.pc + (if s.getV x = nn then 4 else 2) ∧ SameExcept [.pc] s t) ∧
    Completes (exec (.sneImm x nn) s) (fun t =>
      t.pc = s.pc + (if s.getV x ≠ nn then 4 else 2) ∧ SameExcept [.pc] s t) ∧
    Completes (exec (.seReg x y) s) (fun t =>
      t.pc = s.pc + (if s.getV x = s.getV y then 4 else 2) ∧ SameExcept [.pc] s t) ∧
    Completes (exec (.sneReg x y) s) (fun t =>
      t.pc = s.pc + (if s.getV x ≠ s.getV y then 4 else 2) ∧ SameExcept [.pc] s t)

/-- `CALL` with `Push` (R41): with a full stack, only `SV` is set and PC keeps the fetch advance (that policy is
R39, D4); else the advanced PC, modulo 4096, is appended and PC is the target. -/
def Obligations.CallPushesOrRecordsOverflow : Prop :=
  ∀ (nnn : Addr) (s : State), s.stack.length ≤ s.cfg.stackDepth →
    Completes (exec (.call nnn) s) (fun t => SameExcept [.pc, .stack, .sv] s t ∧
      if s.stack.length = s.cfg.stackDepth then
        t.stack = s.stack ∧ t.sv = true ∧ t.pc = s.pc + 2
      else
        t.stack = s.stack ++ [BitVec.ofNat 12 ((s.pc.toNat + 2) % 4096)] ∧ t.sv = s.sv ∧ t.pc = nnn)

/-- `RET` with `Pop` (R42): with an empty stack, only `SV` is set and PC keeps the fetch advance (that policy is
R39, D4); else the last element is taken off and PC is it. -/
def Obligations.RetPopsOrRecordsUnderflow : Prop :=
  ∀ s : State,
    (s.stack = [] → Completes (exec .ret s) (fun t =>
      SameExcept [.pc, .sv] s t ∧ t.sv = true ∧ t.pc = s.pc + 2)) ∧
    ∀ l a, s.stack = l ++ [a] → Completes (exec .ret s) (fun t =>
      SameExcept [.pc, .stack] s t ∧ t.stack = l ∧ t.pc = a)

/-- A `CALL` and the `RET` it leads to come back: with room on the stack, `RET` run in the state `CALL` leaves
restores the stack and goes to the word after the `CALL`. -/
def Obligations.RetUndoesCall : Prop :=
  ∀ (nnn : Addr) (s : State), s.stack.length < s.cfg.stackDepth →
    Completes (exec (.call nnn) s) (fun t =>
      Completes (exec .ret t) (fun u => u.pc = s.pc + 2 ∧ SameExcept [.pc] s u))

/-! ## Register loads, arithmetic, random -/

/-- R161, `LD Vx, nn`: every word `6xnn` is it, and Vx takes nn; VF changes only as the destination. -/
def Obligations.LoadImmediateSetsVx : Prop :=
  (∀ w : Word16, w &&& 0xF000 = 0x6000 →
    decodeWord w = .ok (.ldImm (w.extractLsb' 8 4) (w.extractLsb' 0 8))) ∧
  ∀ (x : Nibble) (nn : Byte) (s : State), Completes (exec (.ldImm x nn) s) (fun t =>
    (∀ r, t.getV r = if r = x then nn else s.getV r) ∧ t.pc = s.pc + 2 ∧ SameExcept [.v, .pc] s t)

/-- The results without a flag (41_alu.md; D14 for VF, D29 for RND): the copy, the immediate addition, the three
bitwise operations bit by bit, and the random byte under its mask. Vx takes the result; every other register,
VF among them, stays. -/
def Obligations.PlainResultsLeaveVfAlone : Prop :=
  ∀ (x y : Nibble) (nn : Byte) (s : State),
    Completes (exec (.ldReg x y) s) (fun t => t.getV x = s.getV y ∧
      (∀ r, r ≠ x → t.getV r = s.getV r) ∧ t.pc = s.pc + 2 ∧ SameExcept [.v, .pc] s t) ∧
    Completes (exec (.addImm x nn) s) (fun t => (t.getV x).toNat = ((s.getV x).toNat + nn.toNat) % 256 ∧
      (∀ r, r ≠ x → t.getV r = s.getV r) ∧ t.pc = s.pc + 2 ∧ SameExcept [.v, .pc] s t) ∧
    Completes (exec (.or x y) s) (fun t =>
      (∀ k, k < 8 → (t.getV x).getLsbD k = ((s.getV x).getLsbD k || (s.getV y).getLsbD k)) ∧
      (∀ r, r ≠ x → t.getV r = s.getV r) ∧ t.pc = s.pc + 2 ∧ SameExcept [.v, .pc] s t) ∧
    Completes (exec (.and x y) s) (fun t =>
      (∀ k, k < 8 → (t.getV x).getLsbD k = ((s.getV x).getLsbD k && (s.getV y).getLsbD k)) ∧
      (∀ r, r ≠ x → t.getV r = s.getV r) ∧ t.pc = s.pc + 2 ∧ SameExcept [.v, .pc] s t) ∧
    Completes (exec (.xor x y) s) (fun t =>
      (∀ k, k < 8 → (t.getV x).getLsbD k = ((s.getV x).getLsbD k != (s.getV y).getLsbD k)) ∧
      (∀ r, r ≠ x → t.getV r = s.getV r) ∧ t.pc = s.pc + 2 ∧ SameExcept [.v, .pc] s t) ∧
    Completes (exec (.rnd x nn) s) (fun t =>
      (∀ k, k < 8 → (t.getV x).getLsbD k = (s.inp.rnd.getLsbD k && nn.getLsbD k)) ∧
      (∀ r, r ≠ x → t.getV r = s.getV r) ∧ t.pc = s.pc + 2 ∧ SameExcept [.v, .pc] s t)

/-- R167, `ADD Vx, Vy`: every word `8xy4` is it; Vx takes the sum modulo 256, then VF the carry out, so that
with x = F VF is the carry. -/
def Obligations.AddRegisterSetsCarry : Prop :=
  (∀ w : Word16, w &&& 0xF00F = 0x8004 →
    decodeWord w = .ok (.addReg (w.extractLsb' 8 4) (w.extractLsb' 4 4))) ∧
  ∀ (x y : Nibble) (s : State), Completes (exec (.addReg x y) s) (fun t =>
    (∀ r, t.getV r =
      if r = 0xF then (if (s.getV x).toNat + (s.getV y).toNat > 255 then 1 else 0)
      else if r = x then BitVec.ofNat 8 (((s.getV x).toNat + (s.getV y).toNat) % 256)
      else s.getV r) ∧
    t.pc = s.pc + 2 ∧ SameExcept [.v, .pc] s t)

/-- The arithmetic laws of R173, for every x and y: the difference modulo 256 with VF set iff there is no borrow,
both ways round; the halves and doubles of the shift source with the bit shifted out in VF; the sums. With x = F,
VF is the flag and the result is lost. That the source is Vx when `Q_SHIFT` is set, else Vy, is the spec's choice
(90_conflicts.md C1, D5). -/
def Obligations.ArithmeticLaws : Prop :=
  ∀ (x y : Nibble) (nn : Byte) (s : State),
    Completes (exec (.addReg x y) s) (fun t =>
      t.getV 0xF = (if (s.getV x).toNat + (s.getV y).toNat > 255 then 1 else 0) ∧
      (x ≠ 0xF → (t.getV x).toNat = ((s.getV x).toNat + (s.getV y).toNat) % 256)) ∧
    Completes (exec (.sub x y) s) (fun t =>
      t.getV 0xF = (if (s.getV x).toNat ≥ (s.getV y).toNat then 1 else 0) ∧
      (x ≠ 0xF → ((t.getV x).toNat : Int) = ((s.getV x).toNat - (s.getV y).toNat) % 256) ∧
      (∀ r, r ≠ x → r ≠ 0xF → t.getV r = s.getV r) ∧ t.pc = s.pc + 2 ∧ SameExcept [.v, .pc] s t) ∧
    Completes (exec (.subn x y) s) (fun t =>
      t.getV 0xF = (if (s.getV y).toNat ≥ (s.getV x).toNat then 1 else 0) ∧
      (x ≠ 0xF → ((t.getV x).toNat : Int) = ((s.getV y).toNat - (s.getV x).toNat) % 256) ∧
      (∀ r, r ≠ x → r ≠ 0xF → t.getV r = s.getV r) ∧ t.pc = s.pc + 2 ∧ SameExcept [.v, .pc] s t) ∧
    Completes (exec (.addImm x nn) s) (fun t =>
      (t.getV x).toNat = ((s.getV x).toNat + nn.toNat) % 256 ∧ (x ≠ 0xF → t.getV 0xF = s.getV 0xF)) ∧
    Completes (exec (.shr x y) s) (fun t =>
      (t.getV 0xF).toNat = (s.getV (if s.quirks.shift then x else y)).toNat % 2 ∧
      (x ≠ 0xF → (t.getV x).toNat = (s.getV (if s.quirks.shift then x else y)).toNat / 2) ∧
      (∀ r, r ≠ x → r ≠ 0xF → t.getV r = s.getV r) ∧ t.pc = s.pc + 2 ∧ SameExcept [.v, .pc] s t) ∧
    Completes (exec (.shl x y) s) (fun t =>
      (t.getV 0xF).toNat = (s.getV (if s.quirks.shift then x else y)).toNat / 128 ∧
      (x ≠ 0xF → (t.getV x).toNat = (s.getV (if s.quirks.shift then x else y)).toNat * 2 % 256) ∧
      (∀ r, r ≠ x → r ≠ 0xF → t.getV r = s.getV r) ∧ t.pc = s.pc + 2 ∧ SameExcept [.v, .pc] s t)

/-- A flag is exactly 0 or 1 (R33, R160): after each instruction that writes VF as a flag. -/
def Obligations.FlagWritesAreZeroOrOne : Prop :=
  ∀ (i : Instr) (s t : State), exec i s = .next t →
    (match i with
      | .addReg _ _ | .sub _ _ | .subn _ _ | .shr _ _ | .shl _ _ | .drw _ _ _ => True
      | _ => False) →
    t.getV 0xF = 0 ∨ t.getV 0xF = 1

/-! ## Index register and memory windows -/

/-- The writers of I that touch nothing else (42_index_memory.md; D14, D42): the address itself, the sum modulo
4096, and the two glyph addresses with the whole of Vx. -/
def Obligations.IndexLoadsSetI : Prop :=
  ∀ (nnn : Addr) (x : Nibble) (s : State),
    Completes (exec (.ldI nnn) s) (fun t => t.i = nnn ∧ t.pc = s.pc + 2 ∧ SameExcept [.i, .pc] s t) ∧
    Completes (exec (.addI x) s) (fun t => t.i.toNat = (s.i.toNat + (s.getV x).toNat) % 4096 ∧
      t.pc = s.pc + 2 ∧ SameExcept [.i, .pc] s t) ∧
    Completes (exec (.ldF x) s) (fun t => t.i.toNat = (s.getV x).toNat * 5 ∧
      t.pc = s.pc + 2 ∧ SameExcept [.i, .pc] s t) ∧
    Completes (exec (.ldHF x) s) (fun t => t.i.toNat = 0x050 + (s.getV x).toNat * 10 ∧
      t.pc = s.pc + 2 ∧ SameExcept [.i, .pc] s t)

/-- R203, `LD [I], Vx`: every word `Fx55` is it; V0..Vx go to I, I+1, …, modulo 4096, every other byte stays,
and I moves past them only under `Q_LOADSTORE`. -/
def Obligations.StoreWritesV0ToVx : Prop :=
  (∀ w : Word16, w &&& 0xF0FF = 0xF055 → decodeWord w = .ok (.store (w.extractLsb' 8 4))) ∧
  ∀ (x : Nibble) (s : State), MemoryCanonical s → Completes (exec (.store x) s) (fun t =>
    (∀ k, k ≤ x.toNat → t.readByte (s.i + BitVec.ofNat 12 k) = s.getV (BitVec.ofNat 4 k)) ∧
    (∀ a, (∀ k, k ≤ x.toNat → a ≠ s.i + BitVec.ofNat 12 k) → t.readByte a = s.readByte a) ∧
    t.i = (if s.quirks.loadStore then s.i + BitVec.ofNat 12 (x.toNat + 1) else s.i) ∧
    t.pc = s.pc + 2 ∧ SameExcept [.mem, .i, .pc] s t)

/-- R204, `LD Vx, [I]`: every word `Fx65` is it; V0..Vx come from I, I+1, …, modulo 4096, the other registers
and all of memory stay, and I moves past the bytes only under `Q_LOADSTORE`. -/
def Obligations.LoadReadsV0ToVx : Prop :=
  (∀ w : Word16, w &&& 0xF0FF = 0xF065 → decodeWord w = .ok (.load (w.extractLsb' 8 4))) ∧
  ∀ (x : Nibble) (s : State), Completes (exec (.load x) s) (fun t =>
    (∀ r, t.getV r =
      if r.toNat ≤ x.toNat then s.readByte (s.i + BitVec.ofNat 12 r.toNat) else s.getV r) ∧
    t.i = (if s.quirks.loadStore then s.i + BitVec.ofNat 12 (x.toNat + 1) else s.i) ∧
    t.pc = s.pc + 2 ∧ SameExcept [.v, .i, .pc] s t)

/-- What `LD [I], Vx` stores, `LD Vx, [I]` with the same I and x brings back, in any state that holds that
memory. -/
def Obligations.LoadUndoesStore : Prop :=
  ∀ (x : Nibble) (s u : State), MemoryCanonical s → u.cfg = s.cfg → u.i = s.i →
    Completes (exec (.store x) s) (fun t => u.mem = t.mem →
      Completes (exec (.load x) u) (fun w => ∀ r : Nibble, r.toNat ≤ x.toNat → w.getV r = s.getV r))

/-- `LD B, Vx` (R205; the digits' order is the spec's general knowledge, 93 G5): hundreds, tens and ones at I,
I+1 and I+2 modulo 4096; every other byte and I stay. -/
def Obligations.BcdStoresThreeDigits : Prop :=
  ∀ (x : Nibble) (s : State), MemoryCanonical s → Completes (exec (.ldB x) s) (fun t =>
    (∃ h d o : Nat, h ≤ 2 ∧ d ≤ 9 ∧ o ≤ 9 ∧ (s.getV x).toNat = 100 * h + 10 * d + o ∧
      t.readByte s.i = BitVec.ofNat 8 h ∧ t.readByte (s.i + 1) = BitVec.ofNat 8 d ∧
      t.readByte (s.i + 2) = BitVec.ofNat 8 o) ∧
    (∀ a, a ≠ s.i → a ≠ s.i + 1 → a ≠ s.i + 2 → t.readByte a = s.readByte a) ∧
    t.pc = s.pc + 2 ∧ SameExcept [.mem, .pc] s t)

/-! ## Timers and keys -/

/-- The timer moves (43_timers_keys.md R231 to R233): Vx takes DT, DT takes Vx, ST takes Vx; nothing else but PC
changes. -/
def Obligations.TimerMoves : Prop :=
  ∀ (x : Nibble) (s : State),
    Completes (exec (.ldVxDT x) s) (fun t => (∀ r, t.getV r = if r = x then s.dt else s.getV r) ∧
      t.pc = s.pc + 2 ∧ SameExcept [.v, .pc] s t) ∧
    Completes (exec (.ldDTVx x) s) (fun t => t.dt = s.getV x ∧ t.pc = s.pc + 2 ∧
      SameExcept [.dt, .pc] s t) ∧
    Completes (exec (.ldSTVx x) s) (fun t => t.st = s.getV x ∧ t.pc = s.pc + 2 ∧
      SameExcept [.st, .pc] s t)

/-- The key skips (43_timers_keys.md; D16): `SKP` passes a word iff key Vx is down, `SKNP` iff it is not, a key
number of 16 or more being down in no latch. -/
def Obligations.KeySkipsTestTheLatch : Prop :=
  ∀ (x : Nibble) (s : State),
    Completes (exec (.skp x) s) (fun t =>
      t.pc = s.pc + (if KeyIsDown s (s.getV x) then 4 else 2) ∧ SameExcept [.pc] s t) ∧
    Completes (exec (.sknp x) s) (fun t =>
      t.pc = s.pc + (if KeyIsDown s (s.getV x) then 2 else 4) ∧ SameExcept [.pc] s t)

/-- The key wait (43_timers_keys.md; D15): with no key down the state is unchanged, PC again at the instruction;
else Vx takes the lowest key down. -/
def Obligations.KeyWaitTakesLowestKey : Prop :=
  ∀ (x : Nibble) (s : State),
    (s.inp.keys = 0 → exec (.ldVxK x) s = .next s) ∧
    (s.inp.keys ≠ 0 → Completes (exec (.ldVxK x) s) (fun t =>
      ∃ k, k < 16 ∧ s.inp.keys.getLsbD k = true ∧ (∀ j, j < k → s.inp.keys.getLsbD j = false) ∧
        (∀ r, t.getV r = if r = x then BitVec.ofNat 8 k else s.getV r) ∧ t.pc = s.pc + 2 ∧
        SameExcept [.v, .pc] s t))

/-! ## Display -/

/-- `CLS` is `Clear()` (R251): every active plane becomes a W x H grid of 0, every inactive plane keeps its
pixels, and those stay visible in the composite. -/
def Obligations.ClearZeroesOnlyActivePlanes : Prop :=
  ∀ s : State, Completes (exec .cls s) (fun t =>
    t.planes.length = s.planes.length ∧
    (∀ p, t.planes[p]? = (s.planes[p]?).map fun g =>
      if s.active.getLsbD p then List.replicate s.height (List.replicate s.width false) else g) ∧
    (∀ p x y, s.active.getLsbD p = false → planePixel s.planes p x y = true → t.composite x y = true) ∧
    t.pc = s.pc + 2 ∧ SameExcept [.planes, .pc] s t)

/-- `DRW Vx, Vy, n` pixel by pixel (44_display.md, D17 to D20): in every plane a pixel changes exactly where the
sprite has a 1 that lands, with the origin wrapped, the edges clipped and the rows dealt round the active
planes; VF is 1 iff such a pixel was set before; nothing else changes. -/
def Obligations.DrawXorsSpritePixelwise : Prop :=
  ∀ (x y n : Nibble) (s : State), PlanesSound s → Completes (exec (.drw x y n) s) (fun t =>
    (∀ p px py, Turned s x y n p px py → planePixel t.planes p px py = !planePixel s.planes p px py) ∧
    (∀ p px py, ¬ Turned s x y n p px py → planePixel t.planes p px py = planePixel s.planes p px py) ∧
    (t.getV 0xF = 1 ∨ t.getV 0xF = 0) ∧
    (t.getV 0xF = 1 ↔ ∃ p px py, Turned s x y n p px py ∧ planePixel s.planes p px py = true) ∧
    (∀ r, r ≠ 0xF → t.getV r = s.getV r) ∧
    t.planes.length = s.planes.length ∧ (∀ g ∈ t.planes, Grid.shaped s.width s.height g) ∧
    t.pc = s.pc + 2 ∧ SameExcept [.v, .planes, .pc] s t)

/-- Drawing the same sprite twice at the same place restores the planes (R264; 95_test_vectors.md L1-4); the
second draw collides iff some sprite pixel landed on a pixel that was clear before the first. That clause follows
from R257 and R258, not from R264's sentence, which says VF = 1 whenever a pixel lands: the two differ where every
landing pixel was set before the first draw, and the model follows R258 (log 20, DEDUCED). Neither coordinate is
VF, which the first draw writes: then the second draw is at another place. -/
def Obligations.DoubleDrawRestoresPlanes : Prop :=
  ∀ (x y n : Nibble) (s : State), PlanesSound s → x ≠ 0xF → y ≠ 0xF →
    Completes (exec (.drw x y n) s) (fun t => Completes (exec (.drw x y n) t) (fun u =>
      u.planes = s.planes ∧
      (u.getV 0xF = 1 ↔ ∃ p px py, Turned s x y n p px py ∧ planePixel s.planes p px py = false)))

/-- `LOW` and `HIGH` (44_display.md, D26, D31): with the host's verdict every plane, active or not, becomes a
blank one of the new resolution and PC advances; without it the whole step is undone and only `FATAL` is set. -/
def Obligations.ResolutionSwitchClearsOrIsUndone : Prop :=
  ∀ s : State,
    (s.inp.geomLores = true → Completes (exec .low s) (fun t => t.hires = false ∧
      t.planes = List.replicate s.planes.length (List.replicate 32 (List.replicate 64 false)) ∧
      t.pc = s.pc + 2 ∧ SameExcept [.hires, .planes, .pc] s t)) ∧
    (s.inp.geomHires = true → Completes (exec .high s) (fun t => t.hires = true ∧
      t.planes = List.replicate s.planes.length (List.replicate 64 (List.replicate 128 false)) ∧
      t.pc = s.pc + 2 ∧ SameExcept [.hires, .planes, .pc] s t)) ∧
    (s.inp.geomLores = false → Completes (exec .low s) (fun t =>
      t.fatal = true ∧ SameExcept [.fatal] s t)) ∧
    (s.inp.geomHires = false → Completes (exec .high s) (fun t =>
      t.fatal = true ∧ SameExcept [.fatal] s t))

/-- The scrolls (44_display.md, D8, D9): with `SCROLL_MODE` noop only PC moves; with shift each active plane is
shifted by n rows or 4 columns, what passes an edge is lost, what is vacated is 0, inactive planes stay. -/
def Obligations.ScrollsShiftActivePlanes : Prop :=
  ∀ (n : Nibble) (s : State), PlanesSound s →
    let moved (t : State) (f : Nat → Nat → Nat → Bool) : Prop :=
      t.pc = s.pc + 2 ∧
      (s.cfg.scrollMode = .noop → SameExcept [.pc] s t) ∧
      (s.cfg.scrollMode = .shift → SameExcept [.planes, .pc] s t ∧
        t.planes.length = s.planes.length ∧ (∀ g ∈ t.planes, Grid.shaped s.width s.height g) ∧
        ∀ p x y, x < s.width → y < s.height → planePixel t.planes p x y =
          if s.active.getLsbD p then f p x y else planePixel s.planes p x y)
    Completes (exec (.scd n) s) (fun t => moved t fun p x y =>
      decide (y ≥ n.toNat) && planePixel s.planes p x (y - n.toNat)) ∧
    Completes (exec (.scu n) s) (fun t => moved t fun p x y =>
      decide (y + n.toNat < s.height) && planePixel s.planes p x (y + n.toNat)) ∧
    Completes (exec .scr s) (fun t => moved t fun p x y =>
      decide (x ≥ 4) && planePixel s.planes p (x - 4) y) ∧
    Completes (exec .scl s) (fun t => moved t fun p x y =>
      decide (x + 4 < s.width) && planePixel s.planes p (x + 4) y)

/-- `PLANE x` (44_display.md, D19): the mask is the active set; the old planes keep their pixels, blank ones of
the current resolution are added until every named plane exists and no further. -/
def Obligations.PlaneSelectGrowsWithBlankPlanes : Prop :=
  ∀ (m : Nibble) (s : State), Completes (exec (.plane m) s) (fun t =>
    t.active = m ∧
    (∃ k, t.planes =
      s.planes ++ List.replicate k (List.replicate s.height (List.replicate s.width false)) ∧
      (k = 0 ∨ ∃ p, p < 4 ∧ m.getLsbD p = true ∧ p + 1 = s.planes.length + k)) ∧
    (∀ p, p < 4 → m.getLsbD p = true → p < t.planes.length) ∧
    t.pc = s.pc + 2 ∧ SameExcept [.active, .planes, .pc] s t)

/-- Plane isolation (44_display.md, D30; 95_test_vectors.md L1-6): after a plane select and a clear, every plane
the mask does not name shows all its pixels unchanged, and the composite is exactly what those planes hold. -/
def Obligations.UnselectedPlanesSurviveClear : Prop :=
  ∀ (m : Nibble) (s : State), Completes (exec (.plane m) s) (fun t => Completes (exec .cls t) (fun u =>
    (∀ p x y, m.getLsbD p = false → planePixel u.planes p x y = planePixel s.planes p x y) ∧
    ∀ x y, u.composite x y = true ↔ ∃ p, m.getLsbD p = false ∧ planePixel s.planes p x y = true))

/-! ## Exit and outcomes -/

/-- `EXIT` (45_system.md, 60_exceptions.md; D10, D27): `HALTED` is set, `EXIT` takes `EXIT_CODE`, PC keeps its
fetch advance, nothing else changes. -/
def Obligations.ExitHaltsWithTheCode : Prop :=
  ∀ s : State, Completes (exec .exit s) (fun t => t.halted = true ∧ t.exitCode = s.cfg.exitCode ∧
    t.pc = s.pc + 2 ∧ SameExcept [.halted, .exitCode, .pc] s t)

/-- The outcome of a `STEP` of a running block (60_exceptions.md section 1, D36) is the one its effect shows:
`FATAL` comes up exactly with TerminalTooSmall, `HALTED` exactly with Exit, and `SV`, if it was clear, exactly
with StackOverflow or StackUnderflow. The outcome as a function of the command and the state before it is the
model's choice (log 15). -/
def Obligations.StepOutcomeMatchesItsEffect : Prop :=
  ∀ (s : State) (inp : StepInputs), s.halted = false → s.fatal = false →
    Completes (stepCommand inp s) (fun t =>
      (t.fatal = true ↔ commandOutcome (.step inp) s = .terminalTooSmall) ∧
      (t.halted = true ↔ commandOutcome (.step inp) s = .exit) ∧
      (t.sv = true ↔ s.sv = true ∨ commandOutcome (.step inp) s = .stackOverflow ∨
        commandOutcome (.step inp) s = .stackUnderflow) ∧
      commandOutcome (.step inp) s ≠ .romTooLarge)

/-! ## The whole machine -/

/-- Every step of every state ends in a next state. This is the model's inference (log 11, DEDUCED), from R71 (no
access faults), R109 and R110 (no word is refused) and R310 to R313 (each error leaves a state); it covers the
empty queue, which the model makes a `STEP` with free inputs (log 5). -/
def Obligations.EveryStepHasANextState : Prop :=
  ∀ s : State, ∃ t, step s = .next t

/-- The invariant (`State.Inv`: R38, R46, R47, R70, and the sizes of R8) is kept by every step, be it an
instruction, a TICK or a RESET. The canonical form of the memory list (log 7), the lower bounds of `BATCH` and
`DEBOUNCE` (log 19) and the queue of commands (log 5) are the model's choice. -/
def Obligations.StepKeepsInvariant : Prop :=
  ∀ s t : State, s.Inv → step s = .next t → t.Inv

/-- The reset state, the model's choice where the spec leaves a parameter open (logs 2 to 8), meets the
invariant. -/
def Obligations.ResetMeetsInvariant : Prop := State.reset.Inv

/-- A general register changes only under an instruction that R32 lists as its writer. -/
def Obligations.RegistersChangeOnlyUnderTheirWriters : Prop :=
  ∀ (i : Instr) (s t : State) (r : Nibble), exec i s = .next t → t.getV r ≠ s.getV r → WritesReg i r

/-- A byte of memory changes only where an instruction stores (R70, R80): for every address that it does not
store to, reading it after gives what reading it before gave; only `LD [I], Vx` and `LD B, Vx` store. -/
def Obligations.MemoryChangesOnlyWhereStored : Prop :=
  ∀ (i : Instr) (s t : State), MemoryCanonical s → exec i s = .next t →
    ∀ a, ¬ StoresTo i s a → t.readByte a = s.readByte a

/-- Which instructions write the rest of the state (10_state.md R34, R38, R43 to R48): each field changes only
under the instructions named there, the planes' pixels among them, `NPLANES` never shrinks, `SV` never clears, and no instruction writes the
quirks or the parameters. -/
def Obligations.ControlStateChangesOnlyUnderItsWriters : Prop :=
  ∀ (i : Instr) (s t : State), exec i s = .next t →
    t.cfg = s.cfg ∧ t.quirks = s.quirks ∧ t.inp = s.inp ∧ t.pending = s.pending ∧ t.seq = s.seq ∧
    (t.i ≠ s.i → (∃ a, i = .ldI a) ∨ (∃ x, i = .addI x ∨ i = .ldF x ∨ i = .ldHF x) ∨
      s.quirks.loadStore = true ∧ ∃ x, i = .store x ∨ i = .load x) ∧
    (t.stack ≠ s.stack → i = .ret ∨ ∃ a, i = .call a) ∧
    (t.dt ≠ s.dt → ∃ x, i = .ldDTVx x) ∧ (t.st ≠ s.st → ∃ x, i = .ldSTVx x) ∧
    (t.hires ≠ s.hires → i = .low ∨ i = .high) ∧ (t.active ≠ s.active → ∃ m, i = .plane m) ∧
    (t.planes ≠ s.planes → i = .cls ∨ i = .low ∨ i = .high ∨ i = .scr ∨ i = .scl ∨
      (∃ n, i = .scd n ∨ i = .scu n) ∨ (∃ x y n, i = .drw x y n) ∨ ∃ m, i = .plane m) ∧
    s.planes.length ≤ t.planes.length ∧
    (t.planes.length ≠ s.planes.length → ∃ m, i = .plane m) ∧
    (t.halted ≠ s.halted ∨ t.exitCode ≠ s.exitCode → i = .exit) ∧
    (t.fatal ≠ s.fatal → i = .low ∨ i = .high) ∧
    (t.sv ≠ s.sv → i = .ret ∨ ∃ a, i = .call a) ∧ (s.sv = true → t.sv = true)

/-- The inputs reach only the instructions that R3 and R321 name: `KEYS` only `SKP`, `SKNP` and `LD Vx, K`, `RND`
only `RND Vx, nn`, `GEOM_OK` only `LOW` and `HIGH`. For every other instruction another input makes no
difference to what it does. That the sampled inputs stand in the state is the model's choice (log 5). -/
def Obligations.InputsReachOnlyTheirReaders : Prop :=
  ∀ (i : Instr) (s : State),
    ((∀ x, i ≠ .skp x ∧ i ≠ .sknp x ∧ i ≠ .ldVxK x) →
      ∀ k, exec i (withKeys k s) = mapNext (withKeys k) (exec i s)) ∧
    ((∀ x nn, i ≠ .rnd x nn) → ∀ b, exec i (withRnd b s) = mapNext (withRnd b) (exec i s)) ∧
    (i ≠ .low → i ≠ .high →
      ∀ l h, exec i (withGeom l h s) = mapNext (withGeom l h) (exec i s))

/-- No instruction reads the sound timer (10_state.md R43): with another value in it, an instruction does what it
does, and the value stays unless the instruction is `LD ST, Vx`. -/
def Obligations.NoInstructionReadsSoundTimer : Prop :=
  ∀ (i : Instr) (s : State) (b : Byte), (∀ x, i ≠ .ldSTVx x) →
    exec i (s.setST b) = mapNext (fun t => t.setST b) (exec i s)
end

