-- ==== Sys2Proof/Laws/Decode.lean ====
section
/-! SUPPORT. The fields of an encoded word, format by format: what every proof about decoding an encoding
cites. -/

namespace Sys2Proof

theorem groupField_eq (w : Word16) : (groupField w).toNat = w.toNat / 4096 := by
  have := w.isLt
  simp [groupField, BitVec.extractLsb'_toNat, Nat.shiftRight_eq_div_pow]; omega

theorem xField_eq (w : Word16) : (xField w).toNat = w.toNat / 256 % 16 := by
  simp [xField, BitVec.extractLsb'_toNat, Nat.shiftRight_eq_div_pow]

theorem yField_eq (w : Word16) : (yField w).toNat = w.toNat / 16 % 16 := by
  simp [yField, BitVec.extractLsb'_toNat, Nat.shiftRight_eq_div_pow]

theorem nField_eq (w : Word16) : (nField w).toNat = w.toNat % 16 := by
  simp [nField, BitVec.extractLsb'_toNat]

theorem nnField_eq (w : Word16) : (nnField w).toNat = w.toNat % 256 := by
  simp [nnField, BitVec.extractLsb'_toNat]

theorem nnnField_eq (w : Word16) : (nnnField w).toNat = w.toNat % 4096 := by
  simp [nnnField, BitVec.extractLsb'_toNat]

/-- A concatenation as a number. -/
theorem toNat_concat {m n : Nat} (a : BitVec m) (b : BitVec n) :
    (a ++ b).toNat = a.toNat * 2 ^ n + b.toNat := by
  rw [BitVec.toNat_append, Nat.shiftLeft_eq, ← Nat.shiftLeft_eq, Nat.shiftLeft_add_eq_or_of_lt b.isLt]

theorem encodeZ_toNat (nn : Byte) : (encodeZ nn).toNat = nn.toNat :=
  (toNat_concat (0#8) nn).trans (by simp)

theorem encodeNNN_toNat (o : Nibble) (nnn : Addr) :
    (encodeNNN o nnn).toNat = o.toNat * 4096 + nnn.toNat := toNat_concat o nnn

theorem encodeXNN_toNat (o x : Nibble) (nn : Byte) :
    (encodeXNN o x nn).toNat = o.toNat * 4096 + x.toNat * 256 + nn.toNat := by
  simp only [encodeXNN]
  rw [toNat_concat, toNat_concat]; omega

theorem encodeXYN_toNat (o x y n : Nibble) :
    (encodeXYN o x y n).toNat = o.toNat * 4096 + x.toNat * 256 + y.toNat * 16 + n.toNat := by
  simp only [encodeXYN]
  rw [toNat_concat, toNat_concat, toNat_concat]; omega

/-! ### Fields of encoded words -/

@[simp] theorem groupField_Z (nn : Byte) : groupField (encodeZ nn) = 0 := by
  apply BitVec.eq_of_toNat_eq; have := nn.isLt
  rw [groupField_eq, encodeZ_toNat]; simp; omega

@[simp] theorem nnField_Z (nn : Byte) : nnField (encodeZ nn) = nn := by
  apply BitVec.eq_of_toNat_eq; have := nn.isLt
  rw [nnField_eq, encodeZ_toNat]; omega

@[simp] theorem yField_Z (y n : Nibble) : yField (encodeZ (y ++ n)) = y := by
  apply BitVec.eq_of_toNat_eq; have := y.isLt; have := n.isLt
  rw [yField_eq, encodeZ_toNat, toNat_concat]; omega

@[simp] theorem nField_Z (y n : Nibble) : nField (encodeZ (y ++ n)) = n := by
  apply BitVec.eq_of_toNat_eq; have := y.isLt; have := n.isLt
  rw [nField_eq, encodeZ_toNat, toNat_concat]; omega

@[simp] theorem groupField_NNN (o : Nibble) (nnn : Addr) : groupField (encodeNNN o nnn) = o := by
  apply BitVec.eq_of_toNat_eq; have := o.isLt; have := nnn.isLt
  rw [groupField_eq, encodeNNN_toNat]; omega

@[simp] theorem nnnField_NNN (o : Nibble) (nnn : Addr) : nnnField (encodeNNN o nnn) = nnn := by
  apply BitVec.eq_of_toNat_eq; have := o.isLt; have := nnn.isLt
  rw [nnnField_eq, encodeNNN_toNat]; omega

@[simp] theorem groupField_XNN (o x : Nibble) (nn : Byte) : groupField (encodeXNN o x nn) = o := by
  apply BitVec.eq_of_toNat_eq; have := o.isLt; have := x.isLt; have := nn.isLt
  rw [groupField_eq, encodeXNN_toNat]; omega

@[simp] theorem xField_XNN (o x : Nibble) (nn : Byte) : xField (encodeXNN o x nn) = x := by
  apply BitVec.eq_of_toNat_eq; have := o.isLt; have := x.isLt; have := nn.isLt
  rw [xField_eq, encodeXNN_toNat]; omega

@[simp] theorem nnField_XNN (o x : Nibble) (nn : Byte) : nnField (encodeXNN o x nn) = nn := by
  apply BitVec.eq_of_toNat_eq; have := o.isLt; have := x.isLt; have := nn.isLt
  rw [nnField_eq, encodeXNN_toNat]; omega

@[simp] theorem groupField_XYN (o x y n : Nibble) : groupField (encodeXYN o x y n) = o := by
  apply BitVec.eq_of_toNat_eq; have := o.isLt; have := x.isLt; have := y.isLt; have := n.isLt
  rw [groupField_eq, encodeXYN_toNat]; omega

@[simp] theorem xField_XYN (o x y n : Nibble) : xField (encodeXYN o x y n) = x := by
  apply BitVec.eq_of_toNat_eq; have := o.isLt; have := x.isLt; have := y.isLt; have := n.isLt
  rw [xField_eq, encodeXYN_toNat]; omega

@[simp] theorem yField_XYN (o x y n : Nibble) : yField (encodeXYN o x y n) = y := by
  apply BitVec.eq_of_toNat_eq; have := o.isLt; have := x.isLt; have := y.isLt; have := n.isLt
  rw [yField_eq, encodeXYN_toNat]; omega

@[simp] theorem nField_XYN (o x y n : Nibble) : nField (encodeXYN o x y n) = n := by
  apply BitVec.eq_of_toNat_eq; have := o.isLt; have := x.isLt; have := y.isLt; have := n.isLt
  rw [nField_eq, encodeXYN_toNat]; omega

/-! ### The masks of the opcode map, as fields kept -/

theorem and_F000 (w : Word16) : w &&& 0xF000 = encodeNNN (groupField w) 0 := by
  apply BitVec.eq_of_getLsbD_eq; intro i hi
  simp only [encodeNNN, groupField, BitVec.getLsbD_and,
    BitVec.getLsbD_append, BitVec.getLsbD_extractLsb']
  interval_cases i <;> simp

theorem and_F0FF (w : Word16) : w &&& 0xF0FF = encodeXNN (groupField w) 0 (nnField w) := by
  apply BitVec.eq_of_getLsbD_eq; intro i hi
  simp only [encodeXNN, groupField, nnField, BitVec.getLsbD_and,
    BitVec.getLsbD_append, BitVec.getLsbD_extractLsb']
  interval_cases i <;> simp

theorem and_F00F (w : Word16) : w &&& 0xF00F = encodeXYN (groupField w) 0 0 (nField w) := by
  apply BitVec.eq_of_getLsbD_eq; intro i hi
  simp only [encodeXYN, groupField, nField, BitVec.getLsbD_and,
    BitVec.getLsbD_append, BitVec.getLsbD_extractLsb']
  interval_cases i <;> simp

theorem and_F0F0 (w : Word16) : w &&& 0xF0F0 = encodeXYN (groupField w) 0 (yField w) 0 := by
  apply BitVec.eq_of_getLsbD_eq; intro i hi
  simp only [encodeXYN, groupField, yField, BitVec.getLsbD_and,
    BitVec.getLsbD_append, BitVec.getLsbD_extractLsb']
  interval_cases i <;> simp

/-! ### Words and bytes -/

/-- A word's bytes, high byte first, make the word again. -/
@[simp] theorem wordOfBytes_bytes (w : Word16) :
    wordOfBytes (w.extractLsb' 8 8) (w.extractLsb' 0 8) = w := by
  apply BitVec.eq_of_toNat_eq; have := w.isLt
  rw [wordOfBytes, toNat_concat]
  simp [BitVec.extractLsb'_toNat, Nat.shiftRight_eq_div_pow]; omega

theorem decodeBytes_bytesOfWord (w : Word16) (rest : List Byte) :
    decodeBytes (bytesOfWord w ++ rest) = (decodeWord w, rest) := by
  simp [decodeBytes, bytesOfWord]

theorem tableWord_toNat (w : Nat) (h : w < 2 ^ 16) : (tableWord 16 w).toNat = w := by
  simp only [tableWord, BitVec.toNat_ofNat]; omega

end Sys2Proof
end

