-- ==== Sys2Proof/Machine/Driver.lean ====
section
/-! DEFINITION. The host around the block, for those who want a run as the host drives it: the key latch
(60_exceptions.md R321) and the frame of the Timing Driver (R322). Neither is state of the block nor part of a
step (00_scope.md R6(d)); `step` uses nothing of this file (log 18). -/

namespace Sys2Proof.Machine

/-- The key latch: the 16-entry table and the debounce counter (R321, 10_state.md R49). -/
structure KeyLatch where
  table : BitVec 16
  counter : Nat
  deriving DecidableEq, Repr

/-- Set the table's bit of one key. -/
def KeyLatch.press (debounce : Nat) (l : KeyLatch) (key : Nibble) : KeyLatch :=
  { table := l.table ||| BitVec.twoPow 16 key.toNat, counter := debounce }

/-- One cycle of the counter: when it reaches 0 the whole table is cleared (R321). -/
def KeyLatch.age (l : KeyLatch) : KeyLatch :=
  if l.counter ≤ 1 then { table := 0, counter := 0 } else { l with counter := l.counter - 1 }

/-- One poll: the drained key-down events set bits and reset the counter; a poll with no event ages the
latch (log 18). -/
def KeyLatch.poll (debounce : Nat) (l : KeyLatch) (events : List Nibble) : KeyLatch :=
  if events.isEmpty then l.age else events.foldl (KeyLatch.press debounce) l

/-- What the host supplies to one step of a batch beside the keys. -/
structure StepSupply where
  rnd : Byte
  geomLores : Bool
  geomHires : Bool
  deriving DecidableEq, Repr

/-- A step's inputs: the keys as polled, the rest as supplied. -/
def StepSupply.inputs (b : StepSupply) (l : KeyLatch) : StepInputs :=
  ⟨l.table, b.rnd, b.geomLores, b.geomHires⟩

/-- The commands of one frame after its poll: exactly `batch` steps, the k-th supplied by `supply k`, that all
see the latch as polled, then one tick (R322, D39). Once `HALTED` or `FATAL`, the steps and the tick that are
left change nothing (10_state.md R48), so that stopping early needs no case. -/
def frameCommands (l : KeyLatch) (batch : Nat) (supply : Nat → StepSupply) : List Command :=
  (List.range batch).map (fun k => Command.step ((supply k).inputs l)) ++ [.tick]

/-- One frame: the latch polled, and the frame's commands, `BATCH` steps and a tick, issued after those still
pending. The picture to render is the composite (R262) of the state that the tick leaves. -/
def frame (events : List Nibble) (supply : Nat → StepSupply) (l : KeyLatch) (s : State) : KeyLatch × State :=
  let l' := l.poll s.cfg.debounce events
  (l', s.setPending (s.pending ++ frameCommands l' s.cfg.batch supply))

end Sys2Proof.Machine
end

