-- ==== Sys2Proof/Laws/Driver.lean ====
section
/-! SUPPORT. What the commands of one frame are (60_exceptions.md R322). -/

namespace Sys2Proof.Machine

/-- A frame issues its batch of steps and one tick. -/
@[simp] theorem frameCommands_length (l : KeyLatch) (batch : Nat) (supply : Nat → StepSupply) :
    (frameCommands l batch supply).length = batch + 1 := by
  simp [frameCommands]

/-- Every command of a frame is its tick or a step of its batch that sees the latch as polled. -/
theorem mem_frameCommands (l : KeyLatch) (batch : Nat) (supply : Nat → StepSupply) (c : Command) :
    c ∈ frameCommands l batch supply ↔
      c = .tick ∨ ∃ k, k < batch ∧ c = .step ((supply k).inputs l) := by
  simp only [frameCommands, List.mem_append, List.mem_map, List.mem_range, List.mem_singleton]
  constructor
  · rintro (⟨k, hk, rfl⟩ | rfl)
    · exact .inr ⟨k, hk, rfl⟩
    · exact .inl rfl
  · rintro (rfl | ⟨k, hk, rfl⟩)
    · exact .inr rfl
    · exact .inl ⟨k, hk, rfl⟩

end Sys2Proof.Machine
end

