-- ==== Sys2Proof/Laws/State.lean ====
section
/-! SUPPORT. What each named update of a state leaves in each field: one lemma a field, true by definition, so
that no later proof unfolds a record update. -/

namespace Sys2Proof.Machine

/-! ### setV -/

@[simp] theorem State.setV_cfg (s : State) (x : Nibble) (b : Byte) : (s.setV x b).cfg = s.cfg := rfl
@[simp] theorem State.setV_mem (s : State) (x : Nibble) (b : Byte) : (s.setV x b).mem = s.mem := rfl
@[simp] theorem State.setV_v (s : State) (x : Nibble) (b : Byte) : (s.setV x b).v = s.v.set x.toNat b x.isLt := rfl
@[simp] theorem State.setV_i (s : State) (x : Nibble) (b : Byte) : (s.setV x b).i = s.i := rfl
@[simp] theorem State.setV_pc (s : State) (x : Nibble) (b : Byte) : (s.setV x b).pc = s.pc := rfl
@[simp] theorem State.setV_stack (s : State) (x : Nibble) (b : Byte) : (s.setV x b).stack = s.stack := rfl
@[simp] theorem State.setV_dt (s : State) (x : Nibble) (b : Byte) : (s.setV x b).dt = s.dt := rfl
@[simp] theorem State.setV_st (s : State) (x : Nibble) (b : Byte) : (s.setV x b).st = s.st := rfl
@[simp] theorem State.setV_quirks (s : State) (x : Nibble) (b : Byte) : (s.setV x b).quirks = s.quirks := rfl
@[simp] theorem State.setV_hires (s : State) (x : Nibble) (b : Byte) : (s.setV x b).hires = s.hires := rfl
@[simp] theorem State.setV_planes (s : State) (x : Nibble) (b : Byte) : (s.setV x b).planes = s.planes := rfl
@[simp] theorem State.setV_active (s : State) (x : Nibble) (b : Byte) : (s.setV x b).active = s.active := rfl
@[simp] theorem State.setV_halted (s : State) (x : Nibble) (b : Byte) : (s.setV x b).halted = s.halted := rfl
@[simp] theorem State.setV_exitCode (s : State) (x : Nibble) (b : Byte) : (s.setV x b).exitCode = s.exitCode := rfl
@[simp] theorem State.setV_fatal (s : State) (x : Nibble) (b : Byte) : (s.setV x b).fatal = s.fatal := rfl
@[simp] theorem State.setV_sv (s : State) (x : Nibble) (b : Byte) : (s.setV x b).sv = s.sv := rfl
@[simp] theorem State.setV_inp (s : State) (x : Nibble) (b : Byte) : (s.setV x b).inp = s.inp := rfl
@[simp] theorem State.setV_pending (s : State) (x : Nibble) (b : Byte) : (s.setV x b).pending = s.pending := rfl
@[simp] theorem State.setV_seq (s : State) (x : Nibble) (b : Byte) : (s.setV x b).seq = s.seq := rfl
@[simp] theorem State.setV_readByte (s : State) (x : Nibble) (b : Byte) (k : Addr) : (s.setV x b).readByte k = s.readByte k := rfl

/-! ### setI -/

@[simp] theorem State.setI_cfg (s : State) (a : Addr) : (s.setI a).cfg = s.cfg := rfl
@[simp] theorem State.setI_mem (s : State) (a : Addr) : (s.setI a).mem = s.mem := rfl
@[simp] theorem State.setI_v (s : State) (a : Addr) : (s.setI a).v = s.v := rfl
@[simp] theorem State.setI_i (s : State) (a : Addr) : (s.setI a).i = a := rfl
@[simp] theorem State.setI_pc (s : State) (a : Addr) : (s.setI a).pc = s.pc := rfl
@[simp] theorem State.setI_stack (s : State) (a : Addr) : (s.setI a).stack = s.stack := rfl
@[simp] theorem State.setI_dt (s : State) (a : Addr) : (s.setI a).dt = s.dt := rfl
@[simp] theorem State.setI_st (s : State) (a : Addr) : (s.setI a).st = s.st := rfl
@[simp] theorem State.setI_quirks (s : State) (a : Addr) : (s.setI a).quirks = s.quirks := rfl
@[simp] theorem State.setI_hires (s : State) (a : Addr) : (s.setI a).hires = s.hires := rfl
@[simp] theorem State.setI_planes (s : State) (a : Addr) : (s.setI a).planes = s.planes := rfl
@[simp] theorem State.setI_active (s : State) (a : Addr) : (s.setI a).active = s.active := rfl
@[simp] theorem State.setI_halted (s : State) (a : Addr) : (s.setI a).halted = s.halted := rfl
@[simp] theorem State.setI_exitCode (s : State) (a : Addr) : (s.setI a).exitCode = s.exitCode := rfl
@[simp] theorem State.setI_fatal (s : State) (a : Addr) : (s.setI a).fatal = s.fatal := rfl
@[simp] theorem State.setI_sv (s : State) (a : Addr) : (s.setI a).sv = s.sv := rfl
@[simp] theorem State.setI_inp (s : State) (a : Addr) : (s.setI a).inp = s.inp := rfl
@[simp] theorem State.setI_pending (s : State) (a : Addr) : (s.setI a).pending = s.pending := rfl
@[simp] theorem State.setI_seq (s : State) (a : Addr) : (s.setI a).seq = s.seq := rfl
@[simp] theorem State.setI_getV (s : State) (a : Addr) (r : Nibble) : (s.setI a).getV r = s.getV r := rfl
@[simp] theorem State.setI_readByte (s : State) (a : Addr) (k : Addr) : (s.setI a).readByte k = s.readByte k := rfl

/-! ### setPC -/

@[simp] theorem State.setPC_cfg (s : State) (a : Addr) : (s.setPC a).cfg = s.cfg := rfl
@[simp] theorem State.setPC_mem (s : State) (a : Addr) : (s.setPC a).mem = s.mem := rfl
@[simp] theorem State.setPC_v (s : State) (a : Addr) : (s.setPC a).v = s.v := rfl
@[simp] theorem State.setPC_i (s : State) (a : Addr) : (s.setPC a).i = s.i := rfl
@[simp] theorem State.setPC_pc (s : State) (a : Addr) : (s.setPC a).pc = a := rfl
@[simp] theorem State.setPC_stack (s : State) (a : Addr) : (s.setPC a).stack = s.stack := rfl
@[simp] theorem State.setPC_dt (s : State) (a : Addr) : (s.setPC a).dt = s.dt := rfl
@[simp] theorem State.setPC_st (s : State) (a : Addr) : (s.setPC a).st = s.st := rfl
@[simp] theorem State.setPC_quirks (s : State) (a : Addr) : (s.setPC a).quirks = s.quirks := rfl
@[simp] theorem State.setPC_hires (s : State) (a : Addr) : (s.setPC a).hires = s.hires := rfl
@[simp] theorem State.setPC_planes (s : State) (a : Addr) : (s.setPC a).planes = s.planes := rfl
@[simp] theorem State.setPC_active (s : State) (a : Addr) : (s.setPC a).active = s.active := rfl
@[simp] theorem State.setPC_halted (s : State) (a : Addr) : (s.setPC a).halted = s.halted := rfl
@[simp] theorem State.setPC_exitCode (s : State) (a : Addr) : (s.setPC a).exitCode = s.exitCode := rfl
@[simp] theorem State.setPC_fatal (s : State) (a : Addr) : (s.setPC a).fatal = s.fatal := rfl
@[simp] theorem State.setPC_sv (s : State) (a : Addr) : (s.setPC a).sv = s.sv := rfl
@[simp] theorem State.setPC_inp (s : State) (a : Addr) : (s.setPC a).inp = s.inp := rfl
@[simp] theorem State.setPC_pending (s : State) (a : Addr) : (s.setPC a).pending = s.pending := rfl
@[simp] theorem State.setPC_seq (s : State) (a : Addr) : (s.setPC a).seq = s.seq := rfl
@[simp] theorem State.setPC_getV (s : State) (a : Addr) (r : Nibble) : (s.setPC a).getV r = s.getV r := rfl
@[simp] theorem State.setPC_readByte (s : State) (a : Addr) (k : Addr) : (s.setPC a).readByte k = s.readByte k := rfl

/-! ### setDT -/

@[simp] theorem State.setDT_cfg (s : State) (b : Byte) : (s.setDT b).cfg = s.cfg := rfl
@[simp] theorem State.setDT_mem (s : State) (b : Byte) : (s.setDT b).mem = s.mem := rfl
@[simp] theorem State.setDT_v (s : State) (b : Byte) : (s.setDT b).v = s.v := rfl
@[simp] theorem State.setDT_i (s : State) (b : Byte) : (s.setDT b).i = s.i := rfl
@[simp] theorem State.setDT_pc (s : State) (b : Byte) : (s.setDT b).pc = s.pc := rfl
@[simp] theorem State.setDT_stack (s : State) (b : Byte) : (s.setDT b).stack = s.stack := rfl
@[simp] theorem State.setDT_dt (s : State) (b : Byte) : (s.setDT b).dt = b := rfl
@[simp] theorem State.setDT_st (s : State) (b : Byte) : (s.setDT b).st = s.st := rfl
@[simp] theorem State.setDT_quirks (s : State) (b : Byte) : (s.setDT b).quirks = s.quirks := rfl
@[simp] theorem State.setDT_hires (s : State) (b : Byte) : (s.setDT b).hires = s.hires := rfl
@[simp] theorem State.setDT_planes (s : State) (b : Byte) : (s.setDT b).planes = s.planes := rfl
@[simp] theorem State.setDT_active (s : State) (b : Byte) : (s.setDT b).active = s.active := rfl
@[simp] theorem State.setDT_halted (s : State) (b : Byte) : (s.setDT b).halted = s.halted := rfl
@[simp] theorem State.setDT_exitCode (s : State) (b : Byte) : (s.setDT b).exitCode = s.exitCode := rfl
@[simp] theorem State.setDT_fatal (s : State) (b : Byte) : (s.setDT b).fatal = s.fatal := rfl
@[simp] theorem State.setDT_sv (s : State) (b : Byte) : (s.setDT b).sv = s.sv := rfl
@[simp] theorem State.setDT_inp (s : State) (b : Byte) : (s.setDT b).inp = s.inp := rfl
@[simp] theorem State.setDT_pending (s : State) (b : Byte) : (s.setDT b).pending = s.pending := rfl
@[simp] theorem State.setDT_seq (s : State) (b : Byte) : (s.setDT b).seq = s.seq := rfl
@[simp] theorem State.setDT_getV (s : State) (b : Byte) (r : Nibble) : (s.setDT b).getV r = s.getV r := rfl
@[simp] theorem State.setDT_readByte (s : State) (b : Byte) (k : Addr) : (s.setDT b).readByte k = s.readByte k := rfl

/-! ### setST -/

@[simp] theorem State.setST_cfg (s : State) (b : Byte) : (s.setST b).cfg = s.cfg := rfl
@[simp] theorem State.setST_mem (s : State) (b : Byte) : (s.setST b).mem = s.mem := rfl
@[simp] theorem State.setST_v (s : State) (b : Byte) : (s.setST b).v = s.v := rfl
@[simp] theorem State.setST_i (s : State) (b : Byte) : (s.setST b).i = s.i := rfl
@[simp] theorem State.setST_pc (s : State) (b : Byte) : (s.setST b).pc = s.pc := rfl
@[simp] theorem State.setST_stack (s : State) (b : Byte) : (s.setST b).stack = s.stack := rfl
@[simp] theorem State.setST_dt (s : State) (b : Byte) : (s.setST b).dt = s.dt := rfl
@[simp] theorem State.setST_st (s : State) (b : Byte) : (s.setST b).st = b := rfl
@[simp] theorem State.setST_quirks (s : State) (b : Byte) : (s.setST b).quirks = s.quirks := rfl
@[simp] theorem State.setST_hires (s : State) (b : Byte) : (s.setST b).hires = s.hires := rfl
@[simp] theorem State.setST_planes (s : State) (b : Byte) : (s.setST b).planes = s.planes := rfl
@[simp] theorem State.setST_active (s : State) (b : Byte) : (s.setST b).active = s.active := rfl
@[simp] theorem State.setST_halted (s : State) (b : Byte) : (s.setST b).halted = s.halted := rfl
@[simp] theorem State.setST_exitCode (s : State) (b : Byte) : (s.setST b).exitCode = s.exitCode := rfl
@[simp] theorem State.setST_fatal (s : State) (b : Byte) : (s.setST b).fatal = s.fatal := rfl
@[simp] theorem State.setST_sv (s : State) (b : Byte) : (s.setST b).sv = s.sv := rfl
@[simp] theorem State.setST_inp (s : State) (b : Byte) : (s.setST b).inp = s.inp := rfl
@[simp] theorem State.setST_pending (s : State) (b : Byte) : (s.setST b).pending = s.pending := rfl
@[simp] theorem State.setST_seq (s : State) (b : Byte) : (s.setST b).seq = s.seq := rfl
@[simp] theorem State.setST_getV (s : State) (b : Byte) (r : Nibble) : (s.setST b).getV r = s.getV r := rfl
@[simp] theorem State.setST_readByte (s : State) (b : Byte) (k : Addr) : (s.setST b).readByte k = s.readByte k := rfl

/-! ### setHires -/

@[simp] theorem State.setHires_cfg (s : State) (h : Bool) : (s.setHires h).cfg = s.cfg := rfl
@[simp] theorem State.setHires_mem (s : State) (h : Bool) : (s.setHires h).mem = s.mem := rfl
@[simp] theorem State.setHires_v (s : State) (h : Bool) : (s.setHires h).v = s.v := rfl
@[simp] theorem State.setHires_i (s : State) (h : Bool) : (s.setHires h).i = s.i := rfl
@[simp] theorem State.setHires_pc (s : State) (h : Bool) : (s.setHires h).pc = s.pc := rfl
@[simp] theorem State.setHires_stack (s : State) (h : Bool) : (s.setHires h).stack = s.stack := rfl
@[simp] theorem State.setHires_dt (s : State) (h : Bool) : (s.setHires h).dt = s.dt := rfl
@[simp] theorem State.setHires_st (s : State) (h : Bool) : (s.setHires h).st = s.st := rfl
@[simp] theorem State.setHires_quirks (s : State) (h : Bool) : (s.setHires h).quirks = s.quirks := rfl
@[simp] theorem State.setHires_hires (s : State) (h : Bool) : (s.setHires h).hires = h := rfl
@[simp] theorem State.setHires_planes (s : State) (h : Bool) : (s.setHires h).planes = s.planes := rfl
@[simp] theorem State.setHires_active (s : State) (h : Bool) : (s.setHires h).active = s.active := rfl
@[simp] theorem State.setHires_halted (s : State) (h : Bool) : (s.setHires h).halted = s.halted := rfl
@[simp] theorem State.setHires_exitCode (s : State) (h : Bool) : (s.setHires h).exitCode = s.exitCode := rfl
@[simp] theorem State.setHires_fatal (s : State) (h : Bool) : (s.setHires h).fatal = s.fatal := rfl
@[simp] theorem State.setHires_sv (s : State) (h : Bool) : (s.setHires h).sv = s.sv := rfl
@[simp] theorem State.setHires_inp (s : State) (h : Bool) : (s.setHires h).inp = s.inp := rfl
@[simp] theorem State.setHires_pending (s : State) (h : Bool) : (s.setHires h).pending = s.pending := rfl
@[simp] theorem State.setHires_seq (s : State) (h : Bool) : (s.setHires h).seq = s.seq := rfl
@[simp] theorem State.setHires_getV (s : State) (h : Bool) (r : Nibble) : (s.setHires h).getV r = s.getV r := rfl
@[simp] theorem State.setHires_readByte (s : State) (h : Bool) (k : Addr) : (s.setHires h).readByte k = s.readByte k := rfl

/-! ### setPlanes -/

@[simp] theorem State.setPlanes_cfg (s : State) (ps : List Grid) : (s.setPlanes ps).cfg = s.cfg := rfl
@[simp] theorem State.setPlanes_mem (s : State) (ps : List Grid) : (s.setPlanes ps).mem = s.mem := rfl
@[simp] theorem State.setPlanes_v (s : State) (ps : List Grid) : (s.setPlanes ps).v = s.v := rfl
@[simp] theorem State.setPlanes_i (s : State) (ps : List Grid) : (s.setPlanes ps).i = s.i := rfl
@[simp] theorem State.setPlanes_pc (s : State) (ps : List Grid) : (s.setPlanes ps).pc = s.pc := rfl
@[simp] theorem State.setPlanes_stack (s : State) (ps : List Grid) : (s.setPlanes ps).stack = s.stack := rfl
@[simp] theorem State.setPlanes_dt (s : State) (ps : List Grid) : (s.setPlanes ps).dt = s.dt := rfl
@[simp] theorem State.setPlanes_st (s : State) (ps : List Grid) : (s.setPlanes ps).st = s.st := rfl
@[simp] theorem State.setPlanes_quirks (s : State) (ps : List Grid) : (s.setPlanes ps).quirks = s.quirks := rfl
@[simp] theorem State.setPlanes_hires (s : State) (ps : List Grid) : (s.setPlanes ps).hires = s.hires := rfl
@[simp] theorem State.setPlanes_planes (s : State) (ps : List Grid) : (s.setPlanes ps).planes = ps := rfl
@[simp] theorem State.setPlanes_active (s : State) (ps : List Grid) : (s.setPlanes ps).active = s.active := rfl
@[simp] theorem State.setPlanes_halted (s : State) (ps : List Grid) : (s.setPlanes ps).halted = s.halted := rfl
@[simp] theorem State.setPlanes_exitCode (s : State) (ps : List Grid) : (s.setPlanes ps).exitCode = s.exitCode := rfl
@[simp] theorem State.setPlanes_fatal (s : State) (ps : List Grid) : (s.setPlanes ps).fatal = s.fatal := rfl
@[simp] theorem State.setPlanes_sv (s : State) (ps : List Grid) : (s.setPlanes ps).sv = s.sv := rfl
@[simp] theorem State.setPlanes_inp (s : State) (ps : List Grid) : (s.setPlanes ps).inp = s.inp := rfl
@[simp] theorem State.setPlanes_pending (s : State) (ps : List Grid) : (s.setPlanes ps).pending = s.pending := rfl
@[simp] theorem State.setPlanes_seq (s : State) (ps : List Grid) : (s.setPlanes ps).seq = s.seq := rfl
@[simp] theorem State.setPlanes_getV (s : State) (ps : List Grid) (r : Nibble) : (s.setPlanes ps).getV r = s.getV r := rfl
@[simp] theorem State.setPlanes_readByte (s : State) (ps : List Grid) (k : Addr) : (s.setPlanes ps).readByte k = s.readByte k := rfl

/-! ### setActive -/

@[simp] theorem State.setActive_cfg (s : State) (m : Nibble) : (s.setActive m).cfg = s.cfg := rfl
@[simp] theorem State.setActive_mem (s : State) (m : Nibble) : (s.setActive m).mem = s.mem := rfl
@[simp] theorem State.setActive_v (s : State) (m : Nibble) : (s.setActive m).v = s.v := rfl
@[simp] theorem State.setActive_i (s : State) (m : Nibble) : (s.setActive m).i = s.i := rfl
@[simp] theorem State.setActive_pc (s : State) (m : Nibble) : (s.setActive m).pc = s.pc := rfl
@[simp] theorem State.setActive_stack (s : State) (m : Nibble) : (s.setActive m).stack = s.stack := rfl
@[simp] theorem State.setActive_dt (s : State) (m : Nibble) : (s.setActive m).dt = s.dt := rfl
@[simp] theorem State.setActive_st (s : State) (m : Nibble) : (s.setActive m).st = s.st := rfl
@[simp] theorem State.setActive_quirks (s : State) (m : Nibble) : (s.setActive m).quirks = s.quirks := rfl
@[simp] theorem State.setActive_hires (s : State) (m : Nibble) : (s.setActive m).hires = s.hires := rfl
@[simp] theorem State.setActive_planes (s : State) (m : Nibble) : (s.setActive m).planes = s.planes := rfl
@[simp] theorem State.setActive_active (s : State) (m : Nibble) : (s.setActive m).active = m := rfl
@[simp] theorem State.setActive_halted (s : State) (m : Nibble) : (s.setActive m).halted = s.halted := rfl
@[simp] theorem State.setActive_exitCode (s : State) (m : Nibble) : (s.setActive m).exitCode = s.exitCode := rfl
@[simp] theorem State.setActive_fatal (s : State) (m : Nibble) : (s.setActive m).fatal = s.fatal := rfl
@[simp] theorem State.setActive_sv (s : State) (m : Nibble) : (s.setActive m).sv = s.sv := rfl
@[simp] theorem State.setActive_inp (s : State) (m : Nibble) : (s.setActive m).inp = s.inp := rfl
@[simp] theorem State.setActive_pending (s : State) (m : Nibble) : (s.setActive m).pending = s.pending := rfl
@[simp] theorem State.setActive_seq (s : State) (m : Nibble) : (s.setActive m).seq = s.seq := rfl
@[simp] theorem State.setActive_getV (s : State) (m : Nibble) (r : Nibble) : (s.setActive m).getV r = s.getV r := rfl
@[simp] theorem State.setActive_readByte (s : State) (m : Nibble) (k : Addr) : (s.setActive m).readByte k = s.readByte k := rfl

/-! ### setQuirks -/

@[simp] theorem State.setQuirks_cfg (s : State) (q : Quirks) : (s.setQuirks q).cfg = s.cfg := rfl
@[simp] theorem State.setQuirks_mem (s : State) (q : Quirks) : (s.setQuirks q).mem = s.mem := rfl
@[simp] theorem State.setQuirks_v (s : State) (q : Quirks) : (s.setQuirks q).v = s.v := rfl
@[simp] theorem State.setQuirks_i (s : State) (q : Quirks) : (s.setQuirks q).i = s.i := rfl
@[simp] theorem State.setQuirks_pc (s : State) (q : Quirks) : (s.setQuirks q).pc = s.pc := rfl
@[simp] theorem State.setQuirks_stack (s : State) (q : Quirks) : (s.setQuirks q).stack = s.stack := rfl
@[simp] theorem State.setQuirks_dt (s : State) (q : Quirks) : (s.setQuirks q).dt = s.dt := rfl
@[simp] theorem State.setQuirks_st (s : State) (q : Quirks) : (s.setQuirks q).st = s.st := rfl
@[simp] theorem State.setQuirks_quirks (s : State) (q : Quirks) : (s.setQuirks q).quirks = q := rfl
@[simp] theorem State.setQuirks_hires (s : State) (q : Quirks) : (s.setQuirks q).hires = s.hires := rfl
@[simp] theorem State.setQuirks_planes (s : State) (q : Quirks) : (s.setQuirks q).planes = s.planes := rfl
@[simp] theorem State.setQuirks_active (s : State) (q : Quirks) : (s.setQuirks q).active = s.active := rfl
@[simp] theorem State.setQuirks_halted (s : State) (q : Quirks) : (s.setQuirks q).halted = s.halted := rfl
@[simp] theorem State.setQuirks_exitCode (s : State) (q : Quirks) : (s.setQuirks q).exitCode = s.exitCode := rfl
@[simp] theorem State.setQuirks_fatal (s : State) (q : Quirks) : (s.setQuirks q).fatal = s.fatal := rfl
@[simp] theorem State.setQuirks_sv (s : State) (q : Quirks) : (s.setQuirks q).sv = s.sv := rfl
@[simp] theorem State.setQuirks_inp (s : State) (q : Quirks) : (s.setQuirks q).inp = s.inp := rfl
@[simp] theorem State.setQuirks_pending (s : State) (q : Quirks) : (s.setQuirks q).pending = s.pending := rfl
@[simp] theorem State.setQuirks_seq (s : State) (q : Quirks) : (s.setQuirks q).seq = s.seq := rfl
@[simp] theorem State.setQuirks_getV (s : State) (q : Quirks) (r : Nibble) : (s.setQuirks q).getV r = s.getV r := rfl
@[simp] theorem State.setQuirks_readByte (s : State) (q : Quirks) (k : Addr) : (s.setQuirks q).readByte k = s.readByte k := rfl

/-! ### setStack -/

@[simp] theorem State.setStack_cfg (s : State) (l : List Addr) : (s.setStack l).cfg = s.cfg := rfl
@[simp] theorem State.setStack_mem (s : State) (l : List Addr) : (s.setStack l).mem = s.mem := rfl
@[simp] theorem State.setStack_v (s : State) (l : List Addr) : (s.setStack l).v = s.v := rfl
@[simp] theorem State.setStack_i (s : State) (l : List Addr) : (s.setStack l).i = s.i := rfl
@[simp] theorem State.setStack_pc (s : State) (l : List Addr) : (s.setStack l).pc = s.pc := rfl
@[simp] theorem State.setStack_stack (s : State) (l : List Addr) : (s.setStack l).stack = l := rfl
@[simp] theorem State.setStack_dt (s : State) (l : List Addr) : (s.setStack l).dt = s.dt := rfl
@[simp] theorem State.setStack_st (s : State) (l : List Addr) : (s.setStack l).st = s.st := rfl
@[simp] theorem State.setStack_quirks (s : State) (l : List Addr) : (s.setStack l).quirks = s.quirks := rfl
@[simp] theorem State.setStack_hires (s : State) (l : List Addr) : (s.setStack l).hires = s.hires := rfl
@[simp] theorem State.setStack_planes (s : State) (l : List Addr) : (s.setStack l).planes = s.planes := rfl
@[simp] theorem State.setStack_active (s : State) (l : List Addr) : (s.setStack l).active = s.active := rfl
@[simp] theorem State.setStack_halted (s : State) (l : List Addr) : (s.setStack l).halted = s.halted := rfl
@[simp] theorem State.setStack_exitCode (s : State) (l : List Addr) : (s.setStack l).exitCode = s.exitCode := rfl
@[simp] theorem State.setStack_fatal (s : State) (l : List Addr) : (s.setStack l).fatal = s.fatal := rfl
@[simp] theorem State.setStack_sv (s : State) (l : List Addr) : (s.setStack l).sv = s.sv := rfl
@[simp] theorem State.setStack_inp (s : State) (l : List Addr) : (s.setStack l).inp = s.inp := rfl
@[simp] theorem State.setStack_pending (s : State) (l : List Addr) : (s.setStack l).pending = s.pending := rfl
@[simp] theorem State.setStack_seq (s : State) (l : List Addr) : (s.setStack l).seq = s.seq := rfl
@[simp] theorem State.setStack_getV (s : State) (l : List Addr) (r : Nibble) : (s.setStack l).getV r = s.getV r := rfl
@[simp] theorem State.setStack_readByte (s : State) (l : List Addr) (k : Addr) : (s.setStack l).readByte k = s.readByte k := rfl

/-! ### halt -/

@[simp] theorem State.halt_cfg (s : State) (c : Int) : (s.halt c).cfg = s.cfg := rfl
@[simp] theorem State.halt_mem (s : State) (c : Int) : (s.halt c).mem = s.mem := rfl
@[simp] theorem State.halt_v (s : State) (c : Int) : (s.halt c).v = s.v := rfl
@[simp] theorem State.halt_i (s : State) (c : Int) : (s.halt c).i = s.i := rfl
@[simp] theorem State.halt_pc (s : State) (c : Int) : (s.halt c).pc = s.pc := rfl
@[simp] theorem State.halt_stack (s : State) (c : Int) : (s.halt c).stack = s.stack := rfl
@[simp] theorem State.halt_dt (s : State) (c : Int) : (s.halt c).dt = s.dt := rfl
@[simp] theorem State.halt_st (s : State) (c : Int) : (s.halt c).st = s.st := rfl
@[simp] theorem State.halt_quirks (s : State) (c : Int) : (s.halt c).quirks = s.quirks := rfl
@[simp] theorem State.halt_hires (s : State) (c : Int) : (s.halt c).hires = s.hires := rfl
@[simp] theorem State.halt_planes (s : State) (c : Int) : (s.halt c).planes = s.planes := rfl
@[simp] theorem State.halt_active (s : State) (c : Int) : (s.halt c).active = s.active := rfl
@[simp] theorem State.halt_halted (s : State) (c : Int) : (s.halt c).halted = true := rfl
@[simp] theorem State.halt_exitCode (s : State) (c : Int) : (s.halt c).exitCode = c := rfl
@[simp] theorem State.halt_fatal (s : State) (c : Int) : (s.halt c).fatal = s.fatal := rfl
@[simp] theorem State.halt_sv (s : State) (c : Int) : (s.halt c).sv = s.sv := rfl
@[simp] theorem State.halt_inp (s : State) (c : Int) : (s.halt c).inp = s.inp := rfl
@[simp] theorem State.halt_pending (s : State) (c : Int) : (s.halt c).pending = s.pending := rfl
@[simp] theorem State.halt_seq (s : State) (c : Int) : (s.halt c).seq = s.seq := rfl
@[simp] theorem State.halt_getV (s : State) (c : Int) (r : Nibble) : (s.halt c).getV r = s.getV r := rfl
@[simp] theorem State.halt_readByte (s : State) (c : Int) (k : Addr) : (s.halt c).readByte k = s.readByte k := rfl

/-! ### violation -/

@[simp] theorem State.violation_cfg (s : State) : (s.violation).cfg = s.cfg := rfl
@[simp] theorem State.violation_mem (s : State) : (s.violation).mem = s.mem := rfl
@[simp] theorem State.violation_v (s : State) : (s.violation).v = s.v := rfl
@[simp] theorem State.violation_i (s : State) : (s.violation).i = s.i := rfl
@[simp] theorem State.violation_pc (s : State) : (s.violation).pc = s.pc := rfl
@[simp] theorem State.violation_stack (s : State) : (s.violation).stack = s.stack := rfl
@[simp] theorem State.violation_dt (s : State) : (s.violation).dt = s.dt := rfl
@[simp] theorem State.violation_st (s : State) : (s.violation).st = s.st := rfl
@[simp] theorem State.violation_quirks (s : State) : (s.violation).quirks = s.quirks := rfl
@[simp] theorem State.violation_hires (s : State) : (s.violation).hires = s.hires := rfl
@[simp] theorem State.violation_planes (s : State) : (s.violation).planes = s.planes := rfl
@[simp] theorem State.violation_active (s : State) : (s.violation).active = s.active := rfl
@[simp] theorem State.violation_halted (s : State) : (s.violation).halted = s.halted := rfl
@[simp] theorem State.violation_exitCode (s : State) : (s.violation).exitCode = s.exitCode := rfl
@[simp] theorem State.violation_fatal (s : State) : (s.violation).fatal = s.fatal := rfl
@[simp] theorem State.violation_sv (s : State) : (s.violation).sv = true := rfl
@[simp] theorem State.violation_inp (s : State) : (s.violation).inp = s.inp := rfl
@[simp] theorem State.violation_pending (s : State) : (s.violation).pending = s.pending := rfl
@[simp] theorem State.violation_seq (s : State) : (s.violation).seq = s.seq := rfl
@[simp] theorem State.violation_getV (s : State) (r : Nibble) : (s.violation).getV r = s.getV r := rfl
@[simp] theorem State.violation_readByte (s : State) (k : Addr) : (s.violation).readByte k = s.readByte k := rfl

/-! ### raiseConfigurationError -/

@[simp] theorem State.raiseConfigurationError_cfg (s : State) : (s.raiseConfigurationError).cfg = s.cfg := rfl
@[simp] theorem State.raiseConfigurationError_mem (s : State) : (s.raiseConfigurationError).mem = s.mem := rfl
@[simp] theorem State.raiseConfigurationError_v (s : State) : (s.raiseConfigurationError).v = s.v := rfl
@[simp] theorem State.raiseConfigurationError_i (s : State) : (s.raiseConfigurationError).i = s.i := rfl
@[simp] theorem State.raiseConfigurationError_pc (s : State) : (s.raiseConfigurationError).pc = s.pc := rfl
@[simp] theorem State.raiseConfigurationError_stack (s : State) : (s.raiseConfigurationError).stack = s.stack := rfl
@[simp] theorem State.raiseConfigurationError_dt (s : State) : (s.raiseConfigurationError).dt = s.dt := rfl
@[simp] theorem State.raiseConfigurationError_st (s : State) : (s.raiseConfigurationError).st = s.st := rfl
@[simp] theorem State.raiseConfigurationError_quirks (s : State) : (s.raiseConfigurationError).quirks = s.quirks := rfl
@[simp] theorem State.raiseConfigurationError_hires (s : State) : (s.raiseConfigurationError).hires = s.hires := rfl
@[simp] theorem State.raiseConfigurationError_planes (s : State) : (s.raiseConfigurationError).planes = s.planes := rfl
@[simp] theorem State.raiseConfigurationError_active (s : State) : (s.raiseConfigurationError).active = s.active := rfl
@[simp] theorem State.raiseConfigurationError_halted (s : State) : (s.raiseConfigurationError).halted = s.halted := rfl
@[simp] theorem State.raiseConfigurationError_exitCode (s : State) : (s.raiseConfigurationError).exitCode = s.exitCode := rfl
@[simp] theorem State.raiseConfigurationError_fatal (s : State) : (s.raiseConfigurationError).fatal = true := rfl
@[simp] theorem State.raiseConfigurationError_sv (s : State) : (s.raiseConfigurationError).sv = s.sv := rfl
@[simp] theorem State.raiseConfigurationError_inp (s : State) : (s.raiseConfigurationError).inp = s.inp := rfl
@[simp] theorem State.raiseConfigurationError_pending (s : State) : (s.raiseConfigurationError).pending = s.pending := rfl
@[simp] theorem State.raiseConfigurationError_seq (s : State) : (s.raiseConfigurationError).seq = s.seq := rfl
@[simp] theorem State.raiseConfigurationError_getV (s : State) (r : Nibble) : (s.raiseConfigurationError).getV r = s.getV r := rfl
@[simp] theorem State.raiseConfigurationError_readByte (s : State) (k : Addr) : (s.raiseConfigurationError).readByte k = s.readByte k := rfl

/-! ### sample -/

@[simp] theorem State.sample_cfg (s : State) (inp : StepInputs) : (s.sample inp).cfg = s.cfg := rfl
@[simp] theorem State.sample_mem (s : State) (inp : StepInputs) : (s.sample inp).mem = s.mem := rfl
@[simp] theorem State.sample_v (s : State) (inp : StepInputs) : (s.sample inp).v = s.v := rfl
@[simp] theorem State.sample_i (s : State) (inp : StepInputs) : (s.sample inp).i = s.i := rfl
@[simp] theorem State.sample_pc (s : State) (inp : StepInputs) : (s.sample inp).pc = s.pc := rfl
@[simp] theorem State.sample_stack (s : State) (inp : StepInputs) : (s.sample inp).stack = s.stack := rfl
@[simp] theorem State.sample_dt (s : State) (inp : StepInputs) : (s.sample inp).dt = s.dt := rfl
@[simp] theorem State.sample_st (s : State) (inp : StepInputs) : (s.sample inp).st = s.st := rfl
@[simp] theorem State.sample_quirks (s : State) (inp : StepInputs) : (s.sample inp).quirks = s.quirks := rfl
@[simp] theorem State.sample_hires (s : State) (inp : StepInputs) : (s.sample inp).hires = s.hires := rfl
@[simp] theorem State.sample_planes (s : State) (inp : StepInputs) : (s.sample inp).planes = s.planes := rfl
@[simp] theorem State.sample_active (s : State) (inp : StepInputs) : (s.sample inp).active = s.active := rfl
@[simp] theorem State.sample_halted (s : State) (inp : StepInputs) : (s.sample inp).halted = s.halted := rfl
@[simp] theorem State.sample_exitCode (s : State) (inp : StepInputs) : (s.sample inp).exitCode = s.exitCode := rfl
@[simp] theorem State.sample_fatal (s : State) (inp : StepInputs) : (s.sample inp).fatal = s.fatal := rfl
@[simp] theorem State.sample_sv (s : State) (inp : StepInputs) : (s.sample inp).sv = s.sv := rfl
@[simp] theorem State.sample_inp (s : State) (inp : StepInputs) : (s.sample inp).inp = inp := rfl
@[simp] theorem State.sample_pending (s : State) (inp : StepInputs) : (s.sample inp).pending = s.pending := rfl
@[simp] theorem State.sample_seq (s : State) (inp : StepInputs) : (s.sample inp).seq = s.seq + 1 := rfl
@[simp] theorem State.sample_getV (s : State) (inp : StepInputs) (r : Nibble) : (s.sample inp).getV r = s.getV r := rfl
@[simp] theorem State.sample_readByte (s : State) (inp : StepInputs) (k : Addr) : (s.sample inp).readByte k = s.readByte k := rfl

/-! ### setPending -/

@[simp] theorem State.setPending_cfg (s : State) (cs : List Command) : (s.setPending cs).cfg = s.cfg := rfl
@[simp] theorem State.setPending_mem (s : State) (cs : List Command) : (s.setPending cs).mem = s.mem := rfl
@[simp] theorem State.setPending_v (s : State) (cs : List Command) : (s.setPending cs).v = s.v := rfl
@[simp] theorem State.setPending_i (s : State) (cs : List Command) : (s.setPending cs).i = s.i := rfl
@[simp] theorem State.setPending_pc (s : State) (cs : List Command) : (s.setPending cs).pc = s.pc := rfl
@[simp] theorem State.setPending_stack (s : State) (cs : List Command) : (s.setPending cs).stack = s.stack := rfl
@[simp] theorem State.setPending_dt (s : State) (cs : List Command) : (s.setPending cs).dt = s.dt := rfl
@[simp] theorem State.setPending_st (s : State) (cs : List Command) : (s.setPending cs).st = s.st := rfl
@[simp] theorem State.setPending_quirks (s : State) (cs : List Command) : (s.setPending cs).quirks = s.quirks := rfl
@[simp] theorem State.setPending_hires (s : State) (cs : List Command) : (s.setPending cs).hires = s.hires := rfl
@[simp] theorem State.setPending_planes (s : State) (cs : List Command) : (s.setPending cs).planes = s.planes := rfl
@[simp] theorem State.setPending_active (s : State) (cs : List Command) : (s.setPending cs).active = s.active := rfl
@[simp] theorem State.setPending_halted (s : State) (cs : List Command) : (s.setPending cs).halted = s.halted := rfl
@[simp] theorem State.setPending_exitCode (s : State) (cs : List Command) : (s.setPending cs).exitCode = s.exitCode := rfl
@[simp] theorem State.setPending_fatal (s : State) (cs : List Command) : (s.setPending cs).fatal = s.fatal := rfl
@[simp] theorem State.setPending_sv (s : State) (cs : List Command) : (s.setPending cs).sv = s.sv := rfl
@[simp] theorem State.setPending_inp (s : State) (cs : List Command) : (s.setPending cs).inp = s.inp := rfl
@[simp] theorem State.setPending_pending (s : State) (cs : List Command) : (s.setPending cs).pending = cs := rfl
@[simp] theorem State.setPending_seq (s : State) (cs : List Command) : (s.setPending cs).seq = s.seq := rfl
@[simp] theorem State.setPending_getV (s : State) (cs : List Command) (r : Nibble) : (s.setPending cs).getV r = s.getV r := rfl
@[simp] theorem State.setPending_readByte (s : State) (cs : List Command) (k : Addr) : (s.setPending cs).readByte k = s.readByte k := rfl

/-! ### writeByte -/

@[simp] theorem State.writeByte_cfg (s : State) (a : Addr) (b : Byte) : (s.writeByte a b).cfg = s.cfg := rfl
@[simp] theorem State.writeByte_mem (s : State) (a : Addr) (b : Byte) : (s.writeByte a b).mem = Memory.write (background s.cfg) s.mem a.toNat b := rfl
@[simp] theorem State.writeByte_v (s : State) (a : Addr) (b : Byte) : (s.writeByte a b).v = s.v := rfl
@[simp] theorem State.writeByte_i (s : State) (a : Addr) (b : Byte) : (s.writeByte a b).i = s.i := rfl
@[simp] theorem State.writeByte_pc (s : State) (a : Addr) (b : Byte) : (s.writeByte a b).pc = s.pc := rfl
@[simp] theorem State.writeByte_stack (s : State) (a : Addr) (b : Byte) : (s.writeByte a b).stack = s.stack := rfl
@[simp] theorem State.writeByte_dt (s : State) (a : Addr) (b : Byte) : (s.writeByte a b).dt = s.dt := rfl
@[simp] theorem State.writeByte_st (s : State) (a : Addr) (b : Byte) : (s.writeByte a b).st = s.st := rfl
@[simp] theorem State.writeByte_quirks (s : State) (a : Addr) (b : Byte) : (s.writeByte a b).quirks = s.quirks := rfl
@[simp] theorem State.writeByte_hires (s : State) (a : Addr) (b : Byte) : (s.writeByte a b).hires = s.hires := rfl
@[simp] theorem State.writeByte_planes (s : State) (a : Addr) (b : Byte) : (s.writeByte a b).planes = s.planes := rfl
@[simp] theorem State.writeByte_active (s : State) (a : Addr) (b : Byte) : (s.writeByte a b).active = s.active := rfl
@[simp] theorem State.writeByte_halted (s : State) (a : Addr) (b : Byte) : (s.writeByte a b).halted = s.halted := rfl
@[simp] theorem State.writeByte_exitCode (s : State) (a : Addr) (b : Byte) : (s.writeByte a b).exitCode = s.exitCode := rfl
@[simp] theorem State.writeByte_fatal (s : State) (a : Addr) (b : Byte) : (s.writeByte a b).fatal = s.fatal := rfl
@[simp] theorem State.writeByte_sv (s : State) (a : Addr) (b : Byte) : (s.writeByte a b).sv = s.sv := rfl
@[simp] theorem State.writeByte_inp (s : State) (a : Addr) (b : Byte) : (s.writeByte a b).inp = s.inp := rfl
@[simp] theorem State.writeByte_pending (s : State) (a : Addr) (b : Byte) : (s.writeByte a b).pending = s.pending := rfl
@[simp] theorem State.writeByte_seq (s : State) (a : Addr) (b : Byte) : (s.writeByte a b).seq = s.seq := rfl
@[simp] theorem State.writeByte_getV (s : State) (a : Addr) (b : Byte) (r : Nibble) : (s.writeByte a b).getV r = s.getV r := rfl

/-! ### advance -/

@[simp] theorem State.advance_cfg (s : State) : (s.advance).cfg = s.cfg := rfl
@[simp] theorem State.advance_mem (s : State) : (s.advance).mem = s.mem := rfl
@[simp] theorem State.advance_v (s : State) : (s.advance).v = s.v := rfl
@[simp] theorem State.advance_i (s : State) : (s.advance).i = s.i := rfl
@[simp] theorem State.advance_pc (s : State) : (s.advance).pc = s.pc + 2 := rfl
@[simp] theorem State.advance_stack (s : State) : (s.advance).stack = s.stack := rfl
@[simp] theorem State.advance_dt (s : State) : (s.advance).dt = s.dt := rfl
@[simp] theorem State.advance_st (s : State) : (s.advance).st = s.st := rfl
@[simp] theorem State.advance_quirks (s : State) : (s.advance).quirks = s.quirks := rfl
@[simp] theorem State.advance_hires (s : State) : (s.advance).hires = s.hires := rfl
@[simp] theorem State.advance_planes (s : State) : (s.advance).planes = s.planes := rfl
@[simp] theorem State.advance_active (s : State) : (s.advance).active = s.active := rfl
@[simp] theorem State.advance_halted (s : State) : (s.advance).halted = s.halted := rfl
@[simp] theorem State.advance_exitCode (s : State) : (s.advance).exitCode = s.exitCode := rfl
@[simp] theorem State.advance_fatal (s : State) : (s.advance).fatal = s.fatal := rfl
@[simp] theorem State.advance_sv (s : State) : (s.advance).sv = s.sv := rfl
@[simp] theorem State.advance_inp (s : State) : (s.advance).inp = s.inp := rfl
@[simp] theorem State.advance_pending (s : State) : (s.advance).pending = s.pending := rfl
@[simp] theorem State.advance_seq (s : State) : (s.advance).seq = s.seq := rfl
@[simp] theorem State.advance_getV (s : State) (r : Nibble) : (s.advance).getV r = s.getV r := rfl
@[simp] theorem State.advance_readByte (s : State) (k : Addr) : (s.advance).readByte k = s.readByte k := rfl

/-! ### skip -/

@[simp] theorem State.skip_cfg (s : State) : (s.skip).cfg = s.cfg := rfl
@[simp] theorem State.skip_mem (s : State) : (s.skip).mem = s.mem := rfl
@[simp] theorem State.skip_v (s : State) : (s.skip).v = s.v := rfl
@[simp] theorem State.skip_i (s : State) : (s.skip).i = s.i := rfl
@[simp] theorem State.skip_pc (s : State) : (s.skip).pc = s.pc + 2 := rfl
@[simp] theorem State.skip_stack (s : State) : (s.skip).stack = s.stack := rfl
@[simp] theorem State.skip_dt (s : State) : (s.skip).dt = s.dt := rfl
@[simp] theorem State.skip_st (s : State) : (s.skip).st = s.st := rfl
@[simp] theorem State.skip_quirks (s : State) : (s.skip).quirks = s.quirks := rfl
@[simp] theorem State.skip_hires (s : State) : (s.skip).hires = s.hires := rfl
@[simp] theorem State.skip_planes (s : State) : (s.skip).planes = s.planes := rfl
@[simp] theorem State.skip_active (s : State) : (s.skip).active = s.active := rfl
@[simp] theorem State.skip_halted (s : State) : (s.skip).halted = s.halted := rfl
@[simp] theorem State.skip_exitCode (s : State) : (s.skip).exitCode = s.exitCode := rfl
@[simp] theorem State.skip_fatal (s : State) : (s.skip).fatal = s.fatal := rfl
@[simp] theorem State.skip_sv (s : State) : (s.skip).sv = s.sv := rfl
@[simp] theorem State.skip_inp (s : State) : (s.skip).inp = s.inp := rfl
@[simp] theorem State.skip_pending (s : State) : (s.skip).pending = s.pending := rfl
@[simp] theorem State.skip_seq (s : State) : (s.skip).seq = s.seq := rfl
@[simp] theorem State.skip_getV (s : State) (r : Nibble) : (s.skip).getV r = s.getV r := rfl
@[simp] theorem State.skip_readByte (s : State) (k : Addr) : (s.skip).readByte k = s.readByte k := rfl

end Sys2Proof.Machine
end

