-- ==== Sys2Proof/Laws/Framebuffer.lean ====
section
/-! SUPPORT. The laws of grids and planes: what each primitive leaves at each pixel, and that shapes and plane
counts are kept. -/

namespace Sys2Proof.Machine

/-! ### Pixels -/

theorem getD_range_map {α : Type} (n k : Nat) (f : Nat → α) (d : α) :
    ((List.range n).map f).getD k d = if k < n then f k else d := by
  by_cases h : k < n <;> simp [h, List.getD]

theorem gridOf_pixel (w h : Nat) (f : Nat → Nat → Bool) (x y : Nat) :
    Grid.pixel (gridOf w h f) x y = if x < w ∧ y < h then f x y else false := by
  unfold Grid.pixel gridOf
  rw [getD_range_map]
  by_cases hy : y < h
  · rw [if_pos hy, getD_range_map]; simp [hy]
  · simp [hy]

theorem blankGrid_pixel (w h x y : Nat) : Grid.pixel (blankGrid w h) x y = false := by
  unfold Grid.pixel blankGrid
  by_cases hy : y < h <;> by_cases hx : x < w <;> simp [hy, hx, List.getD]

/-- Flipping one pixel of a grid changes that pixel, if the grid has it, and no other. -/
theorem Grid.flip_pixel (g : Grid) (x y px py : Nat) :
    Grid.pixel (Grid.flip g x y) px py =
      if px = x ∧ py = y ∧ y < g.length ∧ x < (g.getD y []).length then !Grid.pixel g px py
      else Grid.pixel g px py := by
  unfold Grid.pixel Grid.flip
  by_cases hyl : y < g.length
  · by_cases hy : py = y
    · subst hy
      have hrow : (g.modify py fun row => row.modify x not).getD py [] = (g.getD py []).modify x not := by
        simp [List.getD, hyl]
      rw [hrow]
      generalize g.getD py [] = row
      by_cases hx : px = x
      · subst hx
        by_cases hxl : px < row.length <;> simp [List.getD, hxl, hyl]
      · simp [List.getD, hx, Ne.symm hx]
    · simp [List.getD, hy, Ne.symm hy]
  · have : g.modify y (fun row => row.modify x not) = g := List.modify_eq_self (by omega)
    simp [this, hyl]

/-- A pixel of a shifted grid, inside the grid (R260). -/
theorem shiftGrid_pixel (w h : Nat) (d : ScrollDir) (n : Nat) (g : Grid) (x y : Nat) (hx : x < w) (hy : y < h) :
    Grid.pixel (shiftGrid w h d n g) x y = match d with
      | .down => decide (y ≥ n) && Grid.pixel g x (y - n)
      | .up => decide (y + n < h) && Grid.pixel g x (y + n)
      | .right => decide (x ≥ n) && Grid.pixel g (x - n) y
      | .left => decide (x + n < w) && Grid.pixel g (x + n) y := by
  cases d <;> simp only [shiftGrid, gridOf_pixel, hx, hy, and_self, if_true] <;> split <;> simp_all

/-! ### Shapes -/

theorem blankGrid_shaped (w h : Nat) : Grid.shaped w h (blankGrid w h) := by
  refine ⟨by simp [blankGrid], fun row hr => ?_⟩
  simp [blankGrid] at hr
  simp [hr.2]

theorem gridOf_shaped (w h : Nat) (f : Nat → Nat → Bool) : Grid.shaped w h (gridOf w h f) := by
  refine ⟨by simp [gridOf], fun row hr => ?_⟩
  simp only [gridOf, List.mem_map] at hr
  obtain ⟨y, -, rfl⟩ := hr
  simp

theorem shiftGrid_shaped (w h : Nat) (d : ScrollDir) (n : Nat) (g : Grid) :
    Grid.shaped w h (shiftGrid w h d n g) := by
  cases d <;> exact gridOf_shaped w h _

theorem Grid.flip_shaped {w h : Nat} {g : Grid} (x y : Nat) (hg : Grid.shaped w h g) :
    Grid.shaped w h (Grid.flip g x y) := by
  refine ⟨by simp [Grid.flip, hg.1], fun row hr => ?_⟩
  obtain ⟨k, hk, rfl⟩ := List.mem_iff_getElem.1 hr
  have hk' : k < g.length := by simpa [Grid.flip] using hk
  have hl : (g[k]'hk').length = w := hg.2 _ (List.getElem_mem hk')
  simp only [Grid.flip, List.getElem_modify]
  split <;> simp [hl]

/-- A row of a shaped grid has the grid's width. -/
theorem Grid.shaped_row {w h : Nat} {g : Grid} (hg : Grid.shaped w h g) {y : Nat} (hy : y < h) :
    (g.getD y []).length = w := by
  have hy' : y < g.length := by rw [hg.1]; exact hy
  simp only [List.getD, List.getElem?_eq_getElem hy', Option.getD_some]
  exact hg.2 _ (List.getElem_mem hy')

/-- Outside its shape a grid reads as clear. -/
theorem Grid.pixel_outside {w h : Nat} {g : Grid} (hg : Grid.shaped w h g) {x y : Nat}
    (ho : ¬ (x < w ∧ y < h)) : Grid.pixel g x y = false := by
  unfold Grid.pixel
  by_cases hy : y < h
  · have hx : ¬ x < w := fun hx => ho ⟨hx, hy⟩
    have := Grid.shaped_row hg hy
    simp only [List.getD] at this ⊢
    rw [List.getElem?_eq_none (by omega)]; rfl
  · have : g[y]? = none := List.getElem?_eq_none (by rw [hg.1]; omega)
    simp [List.getD, this]

/-- Two grids of one shape with the same pixels are the same grid. -/
theorem Grid.ext_pixel {w h : Nat} {g k : Grid} (hg : Grid.shaped w h g) (hk : Grid.shaped w h k)
    (heq : ∀ x y, x < w → y < h → Grid.pixel g x y = Grid.pixel k x y) : g = k := by
  refine List.ext_getElem (by rw [hg.1, hk.1]) fun y h1 h2 => ?_
  have hy : y < h := by rw [← hg.1]; exact h1
  have l1 : (g[y]'h1).length = w := hg.2 _ (List.getElem_mem h1)
  have l2 : (k[y]'h2).length = w := hk.2 _ (List.getElem_mem h2)
  refine List.ext_getElem (by rw [l1, l2]) fun x h3 h4 => ?_
  have := heq x y (by omega) hy
  simpa [Grid.pixel, List.getD, List.getElem?_eq_getElem h1, List.getElem?_eq_getElem h2,
    List.getElem?_eq_getElem h3, List.getElem?_eq_getElem h4] using this

/-! ### Planes -/

@[simp] theorem mapActive_length (m : Nibble) (f : Grid → Grid) (p : Nat) (gs : List Grid) :
    (mapActive m f p gs).length = gs.length := by
  induction gs generalizing p with
  | nil => rfl
  | cons g gs ih => simp [mapActive, ih]

theorem mapActive_getElem? (m : Nibble) (f : Grid → Grid) (p k : Nat) (gs : List Grid) :
    (mapActive m f p gs)[k]? = (gs[k]?).map fun g => if m.getLsbD (p + k) then f g else g := by
  induction gs generalizing p k with
  | nil => simp [mapActive]
  | cons g gs ih =>
    cases k with
    | zero => simp [mapActive]
    | succ k => simp [mapActive, ih, show p + 1 + k = p + (k + 1) by omega]

/-- A pixel of a plane through the list of planes. -/
theorem planePixel_eq (ps : List Grid) (p x y : Nat) :
    planePixel ps p x y = ((ps[p]?).map fun g => Grid.pixel g x y).getD false := by
  unfold planePixel
  simp only [List.getD]
  cases ps[p]? <;> simp [Grid.pixel]

/-- The composite shows a pixel iff some plane has it (R262). -/
theorem State.composite_iff (s : State) (x y : Nat) :
    s.composite x y = true ↔ ∃ p, planePixel s.planes p x y = true := by
  simp only [State.composite, List.any_eq_true, planePixel_eq]
  constructor
  · rintro ⟨g, hg, h⟩
    obtain ⟨p, hp, rfl⟩ := List.mem_iff_getElem.1 hg
    exact ⟨p, by simp [hp, h]⟩
  · rintro ⟨p, h⟩
    cases hp : s.planes[p]? with
    | none => simp [hp] at h
    | some g => exact ⟨g, List.mem_of_getElem? hp, by simpa [hp] using h⟩

theorem mem_mapActive {m : Nibble} {f : Grid → Grid} {p : Nat} {gs : List Grid} {g : Grid}
    (h : g ∈ mapActive m f p gs) : g ∈ gs ∨ ∃ k ∈ gs, g = f k := by
  induction gs generalizing p with
  | nil => simp [mapActive] at h
  | cons k gs ih =>
    rcases List.mem_cons.1 h with h | h
    · split at h
      · exact .inr ⟨k, by simp, h⟩
      · exact .inl (by simp [h])
    · rcases ih h with h | ⟨j, hj, rfl⟩
      · exact .inl (List.mem_cons_of_mem _ h)
      · exact .inr ⟨j, List.mem_cons_of_mem _ hj, rfl⟩

@[simp] theorem growPlanes_length (w h n : Nat) (ps : List Grid) :
    (growPlanes w h n ps).length = max ps.length n := by
  simp [growPlanes]; omega

theorem planesNamed_le (m : Nibble) : planesNamed m ≤ 4 := by
  unfold planesNamed; split_ifs <;> omega

/-- The planes a mask names lie below `planesNamed`. -/
theorem lt_planesNamed (m : Nibble) (p : Nat) (hp : p < 4) (h : m.getLsbD p = true) :
    p < planesNamed m := by
  unfold planesNamed
  split_ifs <;> interval_cases p <;> simp_all

theorem mem_activeList (m : Nibble) (p : Nat) : p ∈ activeList m ↔ m.getLsbD p = true := by
  simp only [activeList, List.mem_filter, List.mem_range, and_iff_right_iff_imp]
  intro h
  by_contra hp
  rw [BitVec.getLsbD_of_ge _ _ (by omega)] at h
  exact absurd h (by simp)

/-! ### Drawing -/

@[simp] theorem xorPixel_length (d : Drawing) (p x y : Nat) :
    (d.xorPixel p x y).planes.length = d.planes.length := by
  simp [Drawing.xorPixel]

/-- One drawn pixel: it flips at its place, in its plane, and no other changes. -/
theorem xorPixel_pixel {w h : Nat} (d : Drawing) (p x y q px py : Nat)
    (hs : ∀ g ∈ d.planes, Grid.shaped w h g) (hx : x < w) (hy : y < h) :
    planePixel (d.xorPixel p x y).planes q px py =
      if q = p ∧ px = x ∧ py = y ∧ p < d.planes.length then !planePixel d.planes q px py
      else planePixel d.planes q px py := by
  simp only [planePixel, Drawing.xorPixel, List.getD, List.getElem?_modify]
  by_cases hq : p = q
  · subst hq
    by_cases hp : p < d.planes.length
    · have hg := hs _ (List.getElem_mem hp)
      have h1 : y < (d.planes[p]).length := by rw [hg.1]; exact hy
      have h2 : x < ((d.planes[p]).getD y []).length := by rw [Grid.shaped_row hg hy]; exact hx
      simp only [List.getElem?_eq_getElem hp, Option.getD_some, if_true, Option.map_eq_map,
        Option.map_some, Grid.flip_pixel, h1, h2, hp, true_and, and_true]
    · simp [hp]
  · simp [hq, Ne.symm hq]

theorem xorPixel_shaped {w h : Nat} {d : Drawing} (p x y : Nat)
    (hs : ∀ g ∈ d.planes, Grid.shaped w h g) :
    ∀ g ∈ (d.xorPixel p x y).planes, Grid.shaped w h g := by
  intro g hg
  obtain ⟨k, hk, rfl⟩ := List.mem_iff_getElem.1 hg
  have hk' : k < d.planes.length := by simpa using hk
  have := hs _ (List.getElem_mem hk')
  simp only [Drawing.xorPixel, List.getElem_modify]
  split
  · exact Grid.flip_shaped x y this
  · exact this

/-- A fold keeps what each of its steps keeps. -/
theorem foldl_keeps {α β : Type} (P : β → Prop) (f : β → α → β) (l : List α) (b : β) (hb : P b)
    (hf : ∀ b a, P b → P (f b a)) : P (l.foldl f b) := by
  induction l generalizing b with
  | nil => exact hb
  | cons a l ih => exact ih _ (hf b a hb)

/-- A draw keeps the number of planes and their shapes. -/
theorem drawSprite_keeps {w h : Nat} (al : List Nat) (ps : List Grid) (X Y : Nat) (b : List Byte)
    (sh : SpriteShape) (hs : ∀ g ∈ ps, Grid.shaped w h g) :
    (drawSprite w h al ps X Y b sh).planes.length = ps.length ∧
      ∀ g ∈ (drawSprite w h al ps X Y b sh).planes, Grid.shaped w h g := by
  unfold drawSprite
  split
  · exact ⟨rfl, hs⟩
  · refine foldl_keeps (fun d : Drawing => d.planes.length = ps.length ∧
      ∀ g ∈ d.planes, Grid.shaped w h g) _ _ _ ⟨rfl, hs⟩ fun d r hd => ?_
    split
    · refine foldl_keeps (fun d : Drawing => d.planes.length = ps.length ∧
        ∀ g ∈ d.planes, Grid.shaped w h g) _ _ _ hd fun d c hd => ?_
      split
      · exact ⟨by rw [xorPixel_length]; exact hd.1, xorPixel_shaped _ _ _ hd.2⟩
      · exact hd
    · exact hd

/-- A draw keeps the number of planes, whatever their shapes. -/
theorem State.draw_length (s : State) (x y n : Nibble) : (s.draw x y n).planes.length = s.planes.length := by
  unfold State.draw drawSprite
  split
  · rfl
  · refine foldl_keeps (fun d : Drawing => d.planes.length = s.planes.length) _ _ _ rfl fun d r hd => ?_
    split
    · refine foldl_keeps (fun d : Drawing => d.planes.length = s.planes.length) _ _ _ hd fun d c hd => ?_
      split
      · rw [xorPixel_length]; exact hd
      · exact hd
    · exact hd

end Sys2Proof.Machine
end

