-- ==== Sys2Proof/Laws/Memory.lean ====
section
/-! SUPPORT. The laws of memory and of the register file: a read after a write, and that every write keeps the
canonical form. -/

namespace Sys2Proof.Machine

/-! ### The cell list -/

theorem Memory.read_put (bg : Nat → Byte) (a : Nat) (b : Byte) (rest : Memory) (k : Nat)
    (h : k = a → Memory.read bg rest k = bg k) :
    Memory.read bg (Memory.put bg a b rest) k = if k = a then b else Memory.read bg rest k := by
  unfold Memory.put
  by_cases hb : b = bg a
  · by_cases hk : k = a
    · subst hk; simp [hb, h rfl]
    · simp [hb, hk]
  · by_cases hk : k = a
    · subst hk; simp [hb, Memory.read]
    · simp [hb, hk, Memory.read, Ne.symm hk]

/-- Below every listed address a read gives the background. -/
theorem Memory.read_of_lt (bg : Nat → Byte) (m : Memory) (k : Nat) (h : ∀ c ∈ m, k < c.1) :
    Memory.read bg m k = bg k := by
  induction m with
  | nil => rfl
  | cons c rest ih =>
    obtain ⟨a, b⟩ := c
    have ha : k < a := h (a, b) (by simp)
    simp only [Memory.read, if_neg (by omega : ¬ a = k)]
    exact ih fun c hc => h c (by simp [hc])

/-- The addresses rise strictly. -/
abbrev Memory.rising (m : Memory) : Prop := (m.map Prod.fst).Pairwise (· < ·)

theorem Memory.rising_cons (a : Nat) (b : Byte) (rest : Memory) :
    Memory.rising ((a, b) :: rest) ↔ (∀ c ∈ rest, a < c.1) ∧ Memory.rising rest := by
  simp [Memory.rising, List.pairwise_cons]

/-- A read after a write: the written byte there, every other address as before. -/
theorem Memory.read_write (bg : Nat → Byte) (m : Memory) (a : Nat) (b : Byte) (k : Nat)
    (h : Memory.rising m) :
    Memory.read bg (Memory.write bg m a b) k = if k = a then b else Memory.read bg m k := by
  induction m with
  | nil => exact Memory.read_put bg a b [] k fun _ => rfl
  | cons c rest ih =>
    obtain ⟨ca, cb⟩ := c
    obtain ⟨hlt, hr⟩ := (Memory.rising_cons ca cb rest).1 h
    unfold Memory.write
    split
    · refine Memory.read_put bg a b _ k fun hk => Memory.read_of_lt bg _ k fun d hd => ?_
      rcases List.mem_cons.1 hd with rfl | hd
      · simpa [hk]
      · have := hlt d hd; simp only [hk]; omega
    · split
      · rename_i hac
        subst hac
        rw [Memory.read_put bg a b rest k fun hk =>
          Memory.read_of_lt bg rest k fun d hd => by rw [hk]; exact hlt d hd]
        by_cases hk : k = a
        · simp [hk]
        · simp [Memory.read, Ne.symm hk]
      · simp only [Memory.read]
        by_cases hk : ca = k
        · subst hk; rename_i h1 h2; simp [Ne.symm h2]
        · simp only [if_neg hk]; exact ih hr

theorem Memory.mem_put {bg : Nat → Byte} {a : Nat} {b : Byte} {rest : Memory} {c : Host.Cell}
    (h : c ∈ Memory.put bg a b rest) : (c = (a, b) ∧ b ≠ bg a) ∨ c ∈ rest := by
  unfold Memory.put at h
  split at h
  · exact .inr h
  · rename_i hb
    rcases List.mem_cons.1 h with h | h
    · exact .inl ⟨h, hb⟩
    · exact .inr h

theorem Memory.mem_write {bg : Nat → Byte} {m : Memory} {a : Nat} {b : Byte} {c : Host.Cell}
    (h : c ∈ Memory.write bg m a b) : (c = (a, b) ∧ b ≠ bg a) ∨ c ∈ m := by
  induction m with
  | nil => exact Memory.mem_put h
  | cons d rest ih =>
    obtain ⟨da, db⟩ := d
    unfold Memory.write at h
    split at h
    · exact Memory.mem_put h
    · split at h
      · exact (Memory.mem_put h).imp id (List.mem_cons_of_mem _)
      · rcases List.mem_cons.1 h with h | h
        · exact .inr (by simp [h])
        · exact (ih h).imp id (List.mem_cons_of_mem _)

theorem Memory.rising_put (bg : Nat → Byte) (a : Nat) (b : Byte) (rest : Memory)
    (h : ∀ c ∈ rest, a < c.1) (hr : Memory.rising rest) : Memory.rising (Memory.put bg a b rest) := by
  unfold Memory.put
  split
  · exact hr
  · exact (Memory.rising_cons a b rest).2 ⟨h, hr⟩

theorem Memory.rising_write (bg : Nat → Byte) (m : Memory) (a : Nat) (b : Byte) (h : Memory.rising m) :
    Memory.rising (Memory.write bg m a b) := by
  induction m with
  | nil => exact Memory.rising_put bg a b [] (by simp) h
  | cons c rest ih =>
    obtain ⟨ca, cb⟩ := c
    obtain ⟨hlt, hr⟩ := (Memory.rising_cons ca cb rest).1 h
    unfold Memory.write
    split
    · refine Memory.rising_put bg a b _ (fun d hd => ?_) h
      rcases List.mem_cons.1 hd with rfl | hd
      · assumption
      · have := hlt d hd; omega
    · split
      · rename_i hac; subst hac; exact Memory.rising_put bg a b rest hlt hr
      · refine (Memory.rising_cons ca cb _).2 ⟨fun d hd => ?_, ih hr⟩
        rcases Memory.mem_write hd with ⟨rfl, -⟩ | hd
        · show ca < a; omega
        · exact hlt d hd

/-- A write keeps the canonical form. -/
theorem Memory.write_wf (bg : Nat → Byte) (m : Memory) (a : Nat) (b : Byte) (ha : a < 4096)
    (h : Memory.wf bg m) : Memory.wf bg (Memory.write bg m a b) := by
  refine ⟨Memory.rising_write bg m a b h.1, fun c hc => ?_⟩
  rcases Memory.mem_write hc with ⟨rfl, hb⟩ | hc
  · exact ⟨ha, hb⟩
  · exact h.2 c hc

/-! ### A loaded program -/

theorem romImage_mem {bg : Nat → Byte} {a : Nat} {bs : List Byte} {c : Host.Cell}
    (h : c ∈ romImage bg a bs) : a ≤ c.1 ∧ c.1 < a + bs.length ∧ c.2 ≠ bg c.1 := by
  induction bs generalizing a with
  | nil => simp [romImage] at h
  | cons b bs ih =>
    rcases Memory.mem_put h with ⟨rfl, hb⟩ | h
    · simp [hb]
    · obtain ⟨h1, h2, h3⟩ := ih h
      exact ⟨by omega, by simp only [List.length_cons]; omega, h3⟩

theorem romImage_rising (bg : Nat → Byte) (a : Nat) (bs : List Byte) :
    Memory.rising (romImage bg a bs) := by
  induction bs generalizing a with
  | nil => simp [romImage, Memory.rising]
  | cons b bs ih =>
    exact Memory.rising_put bg a b _ (fun c hc => (romImage_mem hc).1) (ih (a + 1))

/-- Loading a program that fits gives a canonical memory. -/
theorem romImage_wf (bg : Nat → Byte) (a : Nat) (bs : List Byte) (h : a + bs.length ≤ 4096) :
    Memory.wf bg (romImage bg a bs) :=
  ⟨romImage_rising bg a bs, fun c hc => by have := romImage_mem hc; exact ⟨by omega, this.2.2⟩⟩

/-- A loaded program reads back; outside it the background shows. -/
theorem romImage_read (bg : Nat → Byte) (a : Nat) (bs : List Byte) (k : Nat) :
    Memory.read bg (romImage bg a bs) k =
      if a ≤ k then (bs[k - a]?).getD (bg k) else bg k := by
  induction bs generalizing a with
  | nil => simp [romImage, Memory.read]
  | cons b bs ih =>
    have hlow : k = a → Memory.read bg (romImage bg (a + 1) bs) k = bg k := fun hk =>
      Memory.read_of_lt bg _ k fun c hc => by have := (romImage_mem hc).1; omega
    rw [romImage, Memory.read_put bg a b _ k hlow, ih]
    by_cases hk : k = a
    · subst hk; simp
    · simp only [if_neg hk]
      by_cases hle : a ≤ k
      · have h1 : a + 1 ≤ k := by omega
        have h2 : k - a = (k - (a + 1)) + 1 := by omega
        simp [hle, h1, h2]
      · have h1 : ¬ a + 1 ≤ k := by omega
        simp [hle, h1]

/-! ### Memory of a state -/

/-- A state's memory is canonical. -/
abbrev State.memWf (s : State) : Prop := Memory.wf (background s.cfg) s.mem

theorem State.readByte_writeByte (s : State) (a : Addr) (b : Byte) (k : Addr) (h : s.memWf) :
    (s.writeByte a b).readByte k = if k = a then b else s.readByte k := by
  simp only [State.readByte, State.writeByte_cfg, State.writeByte_mem]
  rw [Memory.read_write _ _ _ _ _ h.1]
  simp [BitVec.toNat_inj]

theorem State.writeByte_memWf (s : State) (a : Addr) (b : Byte) (h : s.memWf) :
    (s.writeByte a b).memWf :=
  Memory.write_wf _ _ _ _ a.isLt h

theorem State.writeBytes_memWf (s : State) (a : Addr) (bs : List Byte) (h : s.memWf) :
    (s.writeBytes a bs).memWf := by
  induction bs generalizing s a with
  | nil => exact h
  | cons b bs ih => exact ih _ _ (s.writeByte_memWf a b h)

/-- Updates that leave memory and parameters alone keep the canonical form. -/
theorem State.memWf_of_eq {s t : State} (hc : t.cfg = s.cfg) (hm : t.mem = s.mem) (h : s.memWf) :
    t.memWf := by
  simpa [State.memWf, hc, hm] using h

/-- The byte string a state's memory holds reads back from its start. -/
theorem State.readBytes_length (s : State) (a : Addr) (n : Nat) : (s.readBytes a n).length = n := by
  induction n generalizing a with
  | zero => rfl
  | succ n ih => simp [State.readBytes, ih]

theorem State.readBytes_getElem? (s : State) (a : Addr) (n k : Nat) :
    (s.readBytes a n)[k]? = if k < n then some (s.readByte (a + BitVec.ofNat 12 k)) else none := by
  induction n generalizing a k with
  | zero => simp [State.readBytes]
  | succ n ih =>
    cases k with
    | zero => simp [State.readBytes]
    | succ k =>
      have : a + 1 + BitVec.ofNat 12 k = a + BitVec.ofNat 12 (k + 1) := by
        apply BitVec.eq_of_toNat_eq; simp; omega
      rw [State.readBytes, List.getElem?_cons_succ, ih, this]
      simp

/-- Bytes written from `a` on read back: the k-th at `a + k`, every other address as before. -/
theorem State.readByte_writeBytes (s : State) (a : Addr) (bs : List Byte) (k : Addr) (h : s.memWf)
    (hlen : bs.length ≤ 4096) :
    (s.writeBytes a bs).readByte k = (bs[(k - a).toNat]?).getD (s.readByte k) := by
  induction bs generalizing s a with
  | nil => simp [State.writeBytes]
  | cons b bs ih =>
    have hl : bs.length < 4096 := by simpa using hlen
    rw [State.writeBytes, ih _ _ (s.writeByte_memWf a b h) (by omega), s.readByte_writeByte a b k h]
    by_cases hk : k = a
    · subst hk
      have hd : (k - (k + 1)).toNat = 4095 := by
        rw [show k - (k + 1) = (4095#12 : Addr) by bv_omega]; rfl
      rw [hd, List.getElem?_eq_none (by omega)]
      simp
    · have hd : (k - a).toNat = (k - (a + 1)).toNat + 1 := by bv_omega
      simp [hk, hd]

/-- The memory of the reset state is canonical: nothing is listed. -/
theorem State.reset_memWf : State.reset.memWf := ⟨List.Pairwise.nil, fun _ hc => by cases hc⟩

/-! ### Registers -/

theorem State.getV_setV (s : State) (x : Nibble) (b : Byte) (r : Nibble) :
    (s.setV x b).getV r = if r = x then b else s.getV r := by
  simp only [State.getV, State.setV, Vector.getElem_set]
  by_cases h : r = x
  · simp [h]
  · have : ¬ x.toNat = r.toNat := fun e => h (BitVec.eq_of_toNat_eq e.symm)
    simp [h, this]

@[simp] theorem State.getV_setV_self (s : State) (x : Nibble) (b : Byte) : (s.setV x b).getV x = b := by
  simp [State.getV_setV]

/-- States with equal registers have equal register files. -/
theorem State.v_ext {s t : State} (h : ∀ r, s.getV r = t.getV r) : s.v = t.v := by
  apply Vector.ext
  intro k hk
  have := h (BitVec.ofNat 4 k)
  simpa [State.getV, Nat.mod_eq_of_lt hk] using this

end Sys2Proof.Machine
end

