-- ==== Sys2Proof/Laws/Ops.lean ====
section
/-! SUPPORT. What the shared operations over several bytes or registers, the stack operations and the operand
forms do, said once for those who cite them. -/

namespace Sys2Proof.Machine

/-! ### writeBytes: only memory changes -/

@[simp] theorem State.writeBytes_cfg (s : State) (a : Addr) (bs : List Byte) :
    (s.writeBytes a bs).cfg = s.cfg := by
  induction bs generalizing s a with
  | nil => rfl
  | cons b bs ih => simp [State.writeBytes, ih]

@[simp] theorem State.writeBytes_v (s : State) (a : Addr) (bs : List Byte) :
    (s.writeBytes a bs).v = s.v := by
  induction bs generalizing s a with
  | nil => rfl
  | cons b bs ih => simp [State.writeBytes, ih]

@[simp] theorem State.writeBytes_i (s : State) (a : Addr) (bs : List Byte) :
    (s.writeBytes a bs).i = s.i := by
  induction bs generalizing s a with
  | nil => rfl
  | cons b bs ih => simp [State.writeBytes, ih]

@[simp] theorem State.writeBytes_pc (s : State) (a : Addr) (bs : List Byte) :
    (s.writeBytes a bs).pc = s.pc := by
  induction bs generalizing s a with
  | nil => rfl
  | cons b bs ih => simp [State.writeBytes, ih]

@[simp] theorem State.writeBytes_stack (s : State) (a : Addr) (bs : List Byte) :
    (s.writeBytes a bs).stack = s.stack := by
  induction bs generalizing s a with
  | nil => rfl
  | cons b bs ih => simp [State.writeBytes, ih]

@[simp] theorem State.writeBytes_dt (s : State) (a : Addr) (bs : List Byte) :
    (s.writeBytes a bs).dt = s.dt := by
  induction bs generalizing s a with
  | nil => rfl
  | cons b bs ih => simp [State.writeBytes, ih]

@[simp] theorem State.writeBytes_st (s : State) (a : Addr) (bs : List Byte) :
    (s.writeBytes a bs).st = s.st := by
  induction bs generalizing s a with
  | nil => rfl
  | cons b bs ih => simp [State.writeBytes, ih]

@[simp] theorem State.writeBytes_quirks (s : State) (a : Addr) (bs : List Byte) :
    (s.writeBytes a bs).quirks = s.quirks := by
  induction bs generalizing s a with
  | nil => rfl
  | cons b bs ih => simp [State.writeBytes, ih]

@[simp] theorem State.writeBytes_hires (s : State) (a : Addr) (bs : List Byte) :
    (s.writeBytes a bs).hires = s.hires := by
  induction bs generalizing s a with
  | nil => rfl
  | cons b bs ih => simp [State.writeBytes, ih]

@[simp] theorem State.writeBytes_planes (s : State) (a : Addr) (bs : List Byte) :
    (s.writeBytes a bs).planes = s.planes := by
  induction bs generalizing s a with
  | nil => rfl
  | cons b bs ih => simp [State.writeBytes, ih]

@[simp] theorem State.writeBytes_active (s : State) (a : Addr) (bs : List Byte) :
    (s.writeBytes a bs).active = s.active := by
  induction bs generalizing s a with
  | nil => rfl
  | cons b bs ih => simp [State.writeBytes, ih]

@[simp] theorem State.writeBytes_halted (s : State) (a : Addr) (bs : List Byte) :
    (s.writeBytes a bs).halted = s.halted := by
  induction bs generalizing s a with
  | nil => rfl
  | cons b bs ih => simp [State.writeBytes, ih]

@[simp] theorem State.writeBytes_exitCode (s : State) (a : Addr) (bs : List Byte) :
    (s.writeBytes a bs).exitCode = s.exitCode := by
  induction bs generalizing s a with
  | nil => rfl
  | cons b bs ih => simp [State.writeBytes, ih]

@[simp] theorem State.writeBytes_fatal (s : State) (a : Addr) (bs : List Byte) :
    (s.writeBytes a bs).fatal = s.fatal := by
  induction bs generalizing s a with
  | nil => rfl
  | cons b bs ih => simp [State.writeBytes, ih]

@[simp] theorem State.writeBytes_sv (s : State) (a : Addr) (bs : List Byte) :
    (s.writeBytes a bs).sv = s.sv := by
  induction bs generalizing s a with
  | nil => rfl
  | cons b bs ih => simp [State.writeBytes, ih]

@[simp] theorem State.writeBytes_inp (s : State) (a : Addr) (bs : List Byte) :
    (s.writeBytes a bs).inp = s.inp := by
  induction bs generalizing s a with
  | nil => rfl
  | cons b bs ih => simp [State.writeBytes, ih]

@[simp] theorem State.writeBytes_pending (s : State) (a : Addr) (bs : List Byte) :
    (s.writeBytes a bs).pending = s.pending := by
  induction bs generalizing s a with
  | nil => rfl
  | cons b bs ih => simp [State.writeBytes, ih]

@[simp] theorem State.writeBytes_seq (s : State) (a : Addr) (bs : List Byte) :
    (s.writeBytes a bs).seq = s.seq := by
  induction bs generalizing s a with
  | nil => rfl
  | cons b bs ih => simp [State.writeBytes, ih]

/-- Registers are untouched by stores. -/
@[simp] theorem State.writeBytes_getV (s : State) (a : Addr) (bs : List Byte) (r : Nibble) :
    (s.writeBytes a bs).getV r = s.getV r := by
  simp [State.getV]

/-! ### setRegs: only the registers change -/

@[simp] theorem State.setRegs_cfg (s : State) (k : Nat) (bs : List Byte) :
    (s.setRegs k bs).cfg = s.cfg := by
  induction bs generalizing s k with
  | nil => rfl
  | cons b bs ih => simp [State.setRegs, ih]

@[simp] theorem State.setRegs_mem (s : State) (k : Nat) (bs : List Byte) :
    (s.setRegs k bs).mem = s.mem := by
  induction bs generalizing s k with
  | nil => rfl
  | cons b bs ih => simp [State.setRegs, ih]

@[simp] theorem State.setRegs_i (s : State) (k : Nat) (bs : List Byte) :
    (s.setRegs k bs).i = s.i := by
  induction bs generalizing s k with
  | nil => rfl
  | cons b bs ih => simp [State.setRegs, ih]

@[simp] theorem State.setRegs_pc (s : State) (k : Nat) (bs : List Byte) :
    (s.setRegs k bs).pc = s.pc := by
  induction bs generalizing s k with
  | nil => rfl
  | cons b bs ih => simp [State.setRegs, ih]

@[simp] theorem State.setRegs_stack (s : State) (k : Nat) (bs : List Byte) :
    (s.setRegs k bs).stack = s.stack := by
  induction bs generalizing s k with
  | nil => rfl
  | cons b bs ih => simp [State.setRegs, ih]

@[simp] theorem State.setRegs_dt (s : State) (k : Nat) (bs : List Byte) :
    (s.setRegs k bs).dt = s.dt := by
  induction bs generalizing s k with
  | nil => rfl
  | cons b bs ih => simp [State.setRegs, ih]

@[simp] theorem State.setRegs_st (s : State) (k : Nat) (bs : List Byte) :
    (s.setRegs k bs).st = s.st := by
  induction bs generalizing s k with
  | nil => rfl
  | cons b bs ih => simp [State.setRegs, ih]

@[simp] theorem State.setRegs_quirks (s : State) (k : Nat) (bs : List Byte) :
    (s.setRegs k bs).quirks = s.quirks := by
  induction bs generalizing s k with
  | nil => rfl
  | cons b bs ih => simp [State.setRegs, ih]

@[simp] theorem State.setRegs_hires (s : State) (k : Nat) (bs : List Byte) :
    (s.setRegs k bs).hires = s.hires := by
  induction bs generalizing s k with
  | nil => rfl
  | cons b bs ih => simp [State.setRegs, ih]

@[simp] theorem State.setRegs_planes (s : State) (k : Nat) (bs : List Byte) :
    (s.setRegs k bs).planes = s.planes := by
  induction bs generalizing s k with
  | nil => rfl
  | cons b bs ih => simp [State.setRegs, ih]

@[simp] theorem State.setRegs_active (s : State) (k : Nat) (bs : List Byte) :
    (s.setRegs k bs).active = s.active := by
  induction bs generalizing s k with
  | nil => rfl
  | cons b bs ih => simp [State.setRegs, ih]

@[simp] theorem State.setRegs_halted (s : State) (k : Nat) (bs : List Byte) :
    (s.setRegs k bs).halted = s.halted := by
  induction bs generalizing s k with
  | nil => rfl
  | cons b bs ih => simp [State.setRegs, ih]

@[simp] theorem State.setRegs_exitCode (s : State) (k : Nat) (bs : List Byte) :
    (s.setRegs k bs).exitCode = s.exitCode := by
  induction bs generalizing s k with
  | nil => rfl
  | cons b bs ih => simp [State.setRegs, ih]

@[simp] theorem State.setRegs_fatal (s : State) (k : Nat) (bs : List Byte) :
    (s.setRegs k bs).fatal = s.fatal := by
  induction bs generalizing s k with
  | nil => rfl
  | cons b bs ih => simp [State.setRegs, ih]

@[simp] theorem State.setRegs_sv (s : State) (k : Nat) (bs : List Byte) :
    (s.setRegs k bs).sv = s.sv := by
  induction bs generalizing s k with
  | nil => rfl
  | cons b bs ih => simp [State.setRegs, ih]

@[simp] theorem State.setRegs_inp (s : State) (k : Nat) (bs : List Byte) :
    (s.setRegs k bs).inp = s.inp := by
  induction bs generalizing s k with
  | nil => rfl
  | cons b bs ih => simp [State.setRegs, ih]

@[simp] theorem State.setRegs_pending (s : State) (k : Nat) (bs : List Byte) :
    (s.setRegs k bs).pending = s.pending := by
  induction bs generalizing s k with
  | nil => rfl
  | cons b bs ih => simp [State.setRegs, ih]

@[simp] theorem State.setRegs_seq (s : State) (k : Nat) (bs : List Byte) :
    (s.setRegs k bs).seq = s.seq := by
  induction bs generalizing s k with
  | nil => rfl
  | cons b bs ih => simp [State.setRegs, ih]

@[simp] theorem State.setRegs_readByte (s : State) (k : Nat) (bs : List Byte) (a : Addr) :
    (s.setRegs k bs).readByte a = s.readByte a := by
  simp [State.readByte]

/-- The registers from `k` on take the bytes, the others stay. -/
theorem State.getV_setRegs (s : State) (k : Nat) (bs : List Byte) (r : Nibble)
    (h : k + bs.length ≤ 16) :
    (s.setRegs k bs).getV r =
      if k ≤ r.toNat then (bs[r.toNat - k]?).getD (s.getV r) else s.getV r := by
  induction bs generalizing s k with
  | nil => simp [State.setRegs]
  | cons b bs ih =>
    have hl : k + 1 + bs.length ≤ 16 := by simp only [List.length_cons] at h; omega
    rw [State.setRegs, ih _ _ hl, State.getV_setV]
    have hr : (r = BitVec.ofNat 4 k) ↔ r.toNat = k := by
      rw [← BitVec.toNat_inj, BitVec.toNat_ofNat, Nat.mod_eq_of_lt (by omega)]
    by_cases hk : r.toNat = k
    · simp [hr.2 hk, Nat.mod_eq_of_lt (show k < 16 by omega)]
    · simp only [hr, if_neg hk]
      by_cases hle : k ≤ r.toNat
      · have h1 : k + 1 ≤ r.toNat := by omega
        have h2 : r.toNat - k = (r.toNat - (k + 1)) + 1 := by omega
        simp [hle, h1, h2]
      · have h1 : ¬ k + 1 ≤ r.toNat := by omega
        simp [hle, h1]

@[simp] theorem State.regBytes_length (s : State) (n : Nat) : (s.regBytes n).length = n := by
  simp [State.regBytes]

theorem State.regBytes_getElem? (s : State) (n k : Nat) :
    (s.regBytes n)[k]? = if k < n then some (s.getV (BitVec.ofNat 4 k)) else none := by
  by_cases h : k < n <;> simp [State.regBytes, h]

/-! ### Windows of memory -/

/-- The byte string at `a` is the bytes at `a + k` in ascending k. -/
theorem State.readBytes_eq_map (s : State) (a : Addr) (n : Nat) :
    s.readBytes a n = (List.range n).map fun k => s.readByte (a + BitVec.ofNat 12 k) := by
  apply List.ext_getElem?
  intro k
  rw [State.readBytes_getElem?]
  by_cases h : k < n <;> simp [h]

/-- What `LD [I], Vx` leaves at each address: the registers in the window at I, the rest as it was. -/
theorem State.readByte_stored (s : State) (x : Nibble) (h : s.memWf) (a : Addr) :
    (s.advance.writeBytes s.i (s.regBytes (x.toNat + 1))).readByte a =
      if (a - s.i).toNat ≤ x.toNat then s.getV (BitVec.ofNat 4 (a - s.i).toNat) else s.readByte a := by
  have := x.isLt
  rw [s.advance.readByte_writeBytes _ _ _ h (by simp; omega), State.regBytes_getElem?]
  by_cases hk : (a - s.i).toNat ≤ x.toNat
  · rw [if_pos hk, if_pos (by omega)]; rfl
  · rw [if_neg hk, if_neg (by omega)]; rfl

/-- What `LD Vx, [I]` leaves in each register. -/
theorem State.getV_loaded (s : State) (x r : Nibble) :
    (s.advance.setRegs 0 (s.readBytes s.i (x.toNat + 1))).getV r =
      if r.toNat ≤ x.toNat then s.readByte (s.i + BitVec.ofNat 12 r.toNat) else s.getV r := by
  have := x.isLt
  rw [State.getV_setRegs _ _ _ _ (by rw [State.readBytes_length]; omega), State.readBytes_getElem?]
  by_cases hk : r.toNat ≤ x.toNat
  · simp [hk, Nat.lt_succ_iff.2 hk]
  · simp [hk, show ¬ r.toNat < x.toNat + 1 by omega]

/-! ### Conditional skip, results with a flag -/

theorem State.skipIf_eq (s : State) (c : Bool) : s.skipIf c = s.setPC (if c then s.pc + 2 else s.pc) := by
  cases c <;> rfl

/-- A conditional skip after the fetch advance, as PC and as a frame in one equation. -/
theorem State.advance_skipIf (s : State) (c : Bool) :
    s.advance.skipIf c = s.setPC (s.pc + if c then 4 else 2) := by
  have h : s.pc + 2 + 2 = s.pc + 4 := by bv_omega
  cases c
  · rfl
  · show s.setPC (s.pc + 2 + 2) = s.setPC (s.pc + 4); rw [h]

/-- A result and its flag: VF is the flag whatever x is, Vx the result unless x is F (C7). -/
theorem State.getV_resultFlag (s : State) (x : Nibble) (b f : Byte) (r : Nibble) :
    (s.resultFlag x b f).getV r = if r = 0xF then f else if r = x then b else s.getV r := by
  simp only [State.resultFlag, State.result, State.setVF, State.getV_setV, State.advance_getV]

theorem State.getV_result (s : State) (x : Nibble) (b : Byte) (r : Nibble) :
    (s.result x b).getV r = if r = x then b else s.getV r := by
  simp [State.result, State.getV_setV]

/-- Flags are exactly 0 or 1 (R160). -/
theorem flagByte_eq (b : Bool) : flagByte b = 0 ∨ flagByte b = 1 := by
  cases b <;> simp [flagByte]

/-! ### The stack -/

theorem State.push_eq (s : State) (a : Addr) :
    s.push a = if s.cfg.stackDepth ≤ s.stack.length then none
      else some (s.setStack (s.stack ++ [a])) := by
  simp [State.push, State.stackFull]

theorem State.pop_append (s : State) (st : List Addr) (a : Addr) (h : s.stack = st ++ [a]) :
    s.pop = some (a, s.setStack st) := by
  simp [State.pop, h]

theorem State.pop_nil (s : State) (h : s.stack = []) : s.pop = none := by
  simp [State.pop, h]

/-- `CALL` with room: the advanced PC is pushed and PC is the target. -/
theorem execCall_room (nnn : Addr) (s : State) (h : s.stack.length < s.cfg.stackDepth) :
    execCall nnn s = .next ((s.advance.setStack (s.stack ++ [s.pc + 2])).setPC nnn) := by
  unfold execCall
  rw [State.push_eq, if_neg (by simpa using h)]
  rfl

/-- `CALL` on a full stack: the violation is recorded and nothing but the fetch advance happens. -/
theorem execCall_full (nnn : Addr) (s : State) (h : s.cfg.stackDepth ≤ s.stack.length) :
    execCall nnn s = .next s.advance.violation := by
  unfold execCall
  rw [State.push_eq, if_pos (by simpa using h)]

/-- `RET` with a top: it is taken off and PC is it. -/
theorem execRet_append (s : State) (l : List Addr) (a : Addr) (h : s.stack = l ++ [a]) :
    execRet s = .next ((s.advance.setStack l).setPC a) := by
  unfold execRet
  rw [State.pop_append _ l a (by simpa using h)]

/-- `RET` on an empty stack: the violation is recorded and nothing but the fetch advance happens. -/
theorem execRet_nil (s : State) (h : s.stack = []) : execRet s = .next s.advance.violation := by
  unfold execRet
  rw [State.pop_nil _ (by simpa using h)]

/-- A stack is empty or ends in its top. -/
theorem stack_cases (st : List Addr) : st = [] ∨ ∃ l a, st = l ++ [a] := by
  rcases List.eq_nil_or_concat st with h | ⟨l, a, h⟩
  · exact .inl h
  · exact .inr ⟨l, a, by simpa using h⟩

/-- Everything `CALL` can do. -/
theorem execCall_cases (nnn : Addr) (s : State) :
    (s.stack.length < s.cfg.stackDepth ∧
      execCall nnn s = .next ((s.advance.setStack (s.stack ++ [s.pc + 2])).setPC nnn)) ∨
    (s.cfg.stackDepth ≤ s.stack.length ∧ execCall nnn s = .next s.advance.violation) := by
  by_cases h : s.cfg.stackDepth ≤ s.stack.length
  · exact .inr ⟨h, execCall_full nnn s h⟩
  · exact .inl ⟨by omega, execCall_room nnn s (by omega)⟩

/-- Everything `RET` can do. -/
theorem execRet_cases (s : State) :
    (∃ l a, s.stack = l ++ [a] ∧ execRet s = .next ((s.advance.setStack l).setPC a)) ∨
    (s.stack = [] ∧ execRet s = .next s.advance.violation) := by
  rcases stack_cases s.stack with h | ⟨l, a, h⟩
  · exact .inr ⟨h, execRet_nil s h⟩
  · exact .inl ⟨l, a, h, execRet_append s l a h⟩

end Sys2Proof.Machine
end

