-- ==== Sys2Proof/Laws/PerInstr.lean ====
section
/-! SUPPORT. A law of the instruction as syntax, one lemma for each constructor: the word `encode` writes lies
in the row of the opcode map that the constructor stands for (30_encoding.md R105, R106). -/

namespace Sys2Proof.Laws.EncodesToItsRow

/-- The encoded word matches the instruction's own row. -/
def Statement (i : Instr) : Prop := i.row.matchesWord (encode i) = true

theorem cls : Statement (.cls) := by unfold Statement; decide
theorem ret : Statement (.ret) := by unfold Statement; decide
theorem scd (n : Nibble) : Statement (.scd n) := by unfold Statement; revert n; decide
theorem scu (n : Nibble) : Statement (.scu n) := by unfold Statement; revert n; decide
theorem scr : Statement (.scr) := by unfold Statement; decide
theorem scl : Statement (.scl) := by unfold Statement; decide
theorem exit : Statement (.exit) := by unfold Statement; decide
theorem low : Statement (.low) := by unfold Statement; decide
theorem high : Statement (.high) := by unfold Statement; decide
theorem jp (nnn : Addr) : Statement (.jp nnn) := by
  simp only [Statement, OpcodeRow.matchesWord, Instr.row, encode, and_F000, groupField_NNN]
  decide
theorem call (nnn : Addr) : Statement (.call nnn) := by
  simp only [Statement, OpcodeRow.matchesWord, Instr.row, encode, and_F000, groupField_NNN]
  decide
theorem seImm (x : Nibble) (nn : Byte) : Statement (.seImm x nn) := by
  simp only [Statement, OpcodeRow.matchesWord, Instr.row, encode, and_F000, groupField_XNN]
  decide
theorem sneImm (x : Nibble) (nn : Byte) : Statement (.sneImm x nn) := by
  simp only [Statement, OpcodeRow.matchesWord, Instr.row, encode, and_F000, groupField_XNN]
  decide
theorem seReg (x : Nibble) (y : Nibble) : Statement (.seReg x y) := by
  simp only [Statement, OpcodeRow.matchesWord, Instr.row, encode, and_F00F, groupField_XYN, nField_XYN]
  decide
theorem ldImm (x : Nibble) (nn : Byte) : Statement (.ldImm x nn) := by
  simp only [Statement, OpcodeRow.matchesWord, Instr.row, encode, and_F000, groupField_XNN]
  decide
theorem addImm (x : Nibble) (nn : Byte) : Statement (.addImm x nn) := by
  simp only [Statement, OpcodeRow.matchesWord, Instr.row, encode, and_F000, groupField_XNN]
  decide
theorem ldReg (x : Nibble) (y : Nibble) : Statement (.ldReg x y) := by
  simp only [Statement, OpcodeRow.matchesWord, Instr.row, encode, and_F00F, groupField_XYN, nField_XYN]
  decide
theorem or (x : Nibble) (y : Nibble) : Statement (.or x y) := by
  simp only [Statement, OpcodeRow.matchesWord, Instr.row, encode, and_F00F, groupField_XYN, nField_XYN]
  decide
theorem and (x : Nibble) (y : Nibble) : Statement (.and x y) := by
  simp only [Statement, OpcodeRow.matchesWord, Instr.row, encode, and_F00F, groupField_XYN, nField_XYN]
  decide
theorem xor (x : Nibble) (y : Nibble) : Statement (.xor x y) := by
  simp only [Statement, OpcodeRow.matchesWord, Instr.row, encode, and_F00F, groupField_XYN, nField_XYN]
  decide
theorem addReg (x : Nibble) (y : Nibble) : Statement (.addReg x y) := by
  simp only [Statement, OpcodeRow.matchesWord, Instr.row, encode, and_F00F, groupField_XYN, nField_XYN]
  decide
theorem sub (x : Nibble) (y : Nibble) : Statement (.sub x y) := by
  simp only [Statement, OpcodeRow.matchesWord, Instr.row, encode, and_F00F, groupField_XYN, nField_XYN]
  decide
theorem shr (x : Nibble) (y : Nibble) : Statement (.shr x y) := by
  simp only [Statement, OpcodeRow.matchesWord, Instr.row, encode, and_F00F, groupField_XYN, nField_XYN]
  decide
theorem subn (x : Nibble) (y : Nibble) : Statement (.subn x y) := by
  simp only [Statement, OpcodeRow.matchesWord, Instr.row, encode, and_F00F, groupField_XYN, nField_XYN]
  decide
theorem shl (x : Nibble) (y : Nibble) : Statement (.shl x y) := by
  simp only [Statement, OpcodeRow.matchesWord, Instr.row, encode, and_F00F, groupField_XYN, nField_XYN]
  decide
theorem sneReg (x : Nibble) (y : Nibble) : Statement (.sneReg x y) := by
  simp only [Statement, OpcodeRow.matchesWord, Instr.row, encode, and_F00F, groupField_XYN, nField_XYN]
  decide
theorem ldI (nnn : Addr) : Statement (.ldI nnn) := by
  simp only [Statement, OpcodeRow.matchesWord, Instr.row, encode, and_F000, groupField_NNN]
  decide
theorem jpV0 (nnn : Addr) : Statement (.jpV0 nnn) := by
  simp only [Statement, OpcodeRow.matchesWord, Instr.row, encode, and_F000, groupField_NNN]
  decide
theorem rnd (x : Nibble) (nn : Byte) : Statement (.rnd x nn) := by
  simp only [Statement, OpcodeRow.matchesWord, Instr.row, encode, and_F000, groupField_XNN]
  decide
theorem drw (x : Nibble) (y : Nibble) (n : Nibble) : Statement (.drw x y n) := by
  simp only [Statement, OpcodeRow.matchesWord, Instr.row, encode, and_F000, groupField_XYN]
  decide
theorem skp (x : Nibble) : Statement (.skp x) := by unfold Statement; revert x; decide
theorem sknp (x : Nibble) : Statement (.sknp x) := by unfold Statement; revert x; decide
theorem plane (x : Nibble) : Statement (.plane x) := by unfold Statement; revert x; decide
theorem ldVxDT (x : Nibble) : Statement (.ldVxDT x) := by unfold Statement; revert x; decide
theorem ldVxK (x : Nibble) : Statement (.ldVxK x) := by unfold Statement; revert x; decide
theorem ldDTVx (x : Nibble) : Statement (.ldDTVx x) := by unfold Statement; revert x; decide
theorem ldSTVx (x : Nibble) : Statement (.ldSTVx x) := by unfold Statement; revert x; decide
theorem addI (x : Nibble) : Statement (.addI x) := by unfold Statement; revert x; decide
theorem ldF (x : Nibble) : Statement (.ldF x) := by unfold Statement; revert x; decide
theorem ldHF (x : Nibble) : Statement (.ldHF x) := by unfold Statement; revert x; decide
theorem ldB (x : Nibble) : Statement (.ldB x) := by unfold Statement; revert x; decide
theorem store (x : Nibble) : Statement (.store x) := by unfold Statement; revert x; decide
theorem load (x : Nibble) : Statement (.load x) := by unfold Statement; revert x; decide

end Sys2Proof.Laws.EncodesToItsRow
end

