-- ==== Sys2Proof/Laws/Step.lean ====
section
/-! SUPPORT. What one step can be: which command it carries out, and what that command answers. A proof about
steps splits with these and never unfolds `step`. -/

namespace Sys2Proof.Machine

/-- With nothing pending, a step is a `STEP` with free inputs. -/
theorem step_of_nil {s : State} (h : s.pending = []) : step s = stepCommand (freeInputs s.seq) s := by
  simp [step, runNext, h]

/-- With a command pending, a step carries it out and leaves the rest pending. -/
theorem step_of_cons {s : State} {c : Command} {rest : List Command} (h : s.pending = c :: rest) :
    step s = runCommand c (s.setPending rest) := by
  simp [step, runNext, h]

theorem stepCommand_stopped {s : State} {inp : StepInputs} (h : s.stopped = true) :
    stepCommand inp s = .next s := by
  simp [stepCommand, h]

theorem stepCommand_running {s : State} {inp : StepInputs} (h : s.stopped = false) :
    stepCommand inp s = fetchExecute (s.sample inp) := by
  simp [stepCommand, h]

@[simp] theorem State.setPending_stopped (s : State) (cs : List Command) :
    (s.setPending cs).stopped = s.stopped := rfl

@[simp] theorem State.setPending_fetch (s : State) (cs : List Command) :
    (s.setPending cs).fetch = s.fetch := rfl

@[simp] theorem State.sample_fetch (s : State) (inp : StepInputs) : (s.sample inp).fetch = s.fetch := rfl

/-- A placed word is what the fetch reads. -/
theorem State.placeWord_fetch (s : State) (w : Word16) (h : s.memWf) : (s.placeWord w).fetch = w := by
  have hb : (bytesOfWord w).length ≤ 4096 := by simp [bytesOfWord]
  show (s.writeBytes s.pc (bytesOfWord w)).fetch = w
  unfold State.fetch
  rw [State.readByte_writeBytes _ _ _ _ h hb, State.readByte_writeBytes _ _ _ _ h hb]
  simp [bytesOfWord]

/-- What a word asks for, case by case. -/
theorem decodeAction_cases (c : Config) (w : Word16) :
    (∃ f, toggleField c w = some f ∧ decodeAction c w = .toggle f) ∨
    (toggleField c w = none ∧ ∃ i, decodeWord w = .ok i ∧ decodeAction c w = .run i) ∨
    (toggleField c w = none ∧ ∃ r, decodeWord w = .reject r ∧ decodeAction c w = .unmapped r) := by
  unfold decodeAction
  cases toggleField c w with
  | some f => exact .inl ⟨f, rfl, rfl⟩
  | none =>
    cases decodeWord w with
    | ok i => exact .inr (.inl ⟨rfl, i, rfl, rfl⟩)
    | reject r => exact .inr (.inr ⟨rfl, r, rfl, rfl⟩)

/-- A step, case by case: it is a `STEP` of a stopped block, a `STEP` that runs what the fetched word asks
for, a `TICK` or a `RESET`. In the last three the state the command sees is `s'`, `s` with that command
taken off. -/
theorem step_cases (s : State) :
    ∃ s', (s' = s ∨ ∃ c, s.pending = c :: s'.pending ∧ s' = s.setPending s'.pending) ∧
      ((s'.stopped = true ∧ step s = .next s') ∨
       (∃ inp, s'.stopped = false ∧
         step s = runAction (decodeAction s'.cfg s'.fetch) (s'.sample inp)) ∨
       step s = .next (tickCommand s') ∨
       ∃ rom g, step s = .next (resetCommand rom g s')) := by
  cases hp : s.pending with
  | nil =>
    refine ⟨s, .inl rfl, ?_⟩
    rw [step_of_nil hp]
    cases hs : s.stopped with
    | true => exact .inl ⟨rfl, stepCommand_stopped hs⟩
    | false => exact .inr (.inl ⟨_, rfl, by rw [stepCommand_running hs]; rfl⟩)
  | cons c rest =>
    refine ⟨s.setPending rest, .inr ⟨c, rfl, rfl⟩, ?_⟩
    rw [step_of_cons hp]
    cases c with
    | step inp =>
      cases hs : (s.setPending rest).stopped with
      | true => exact .inl ⟨rfl, stepCommand_stopped hs⟩
      | false => exact .inr (.inl ⟨inp, rfl, by rw [runCommand, stepCommand_running hs]; rfl⟩)
    | tick => exact .inr (.inr (.inl rfl))
    | reset rom g => exact .inr (.inr (.inr ⟨rom, g, rfl⟩))

end Sys2Proof.Machine
end

