-- ==== Sys2Proof/Tests/Slice0.lean ====
section
/-! SUPPORT. Tests: the smoke test of the well-formedness checks, a word of every row of the opcode map, one
step of each instruction with the result that spec/ gives for it, and a witness for the hypotheses of each
obligation. Expected results are those of 95_test_vectors.md (its vector is named in the docstring) or of the
example of the rule named there. -/

namespace Sys2Proof.Tests

open Sys2Proof.Machine Sys2Proof.Spec

/-! ### Helpers -/

/-- Inputs of a step: no key, random byte 0, both resolutions fine. -/
def quiet : StepInputs := ⟨0, 0, true, true⟩

/-- Registers set by number. -/
def regs (l : List (Nat × Nat)) (s : State) : State :=
  l.foldl (fun s p => s.setV (BitVec.ofNat 4 p.1) (BitVec.ofNat 8 p.2)) s

/-- Bytes put into memory. -/
def bytesAt (a : Nat) (bs : List Nat) (s : State) : State :=
  s.writeBytes (BitVec.ofNat 12 a) (bs.map (BitVec.ofNat 8))

/-- The state with the word `w` at PC and one `STEP` pending. -/
def ready (inp : StepInputs) (w : Nat) (s : State) : State := (s.withFetchWord 16 w).setPending [.step inp]

/-- One step ends in a next state that passes the check. -/
def leaves (s : State) (p : State → Bool) : Bool :=
  match step s with
  | .next t => p t
  | .fault _ => false
  | .refused _ => false

/-- The word `w`, run with `quiet` inputs, leaves a state that passes the check. -/
def runs (w : Nat) (s : State) (p : State → Bool) : Bool := leaves (ready quiet w s) p

/-- A register of a state, as a number. -/
def reg (t : State) (x : Nat) : Nat := (t.getV (BitVec.ofNat 4 x)).toNat

/-- Bytes of memory, as numbers. -/
def mem (t : State) (a n : Nat) : List Nat := (t.readBytes (BitVec.ofNat 12 a) n).map BitVec.toNat

/-- The set pixels of a row. -/
def litRow (y : Nat) : List Bool → Nat → List (Nat × Nat)
  | [], _ => []
  | b :: bs, x => if b then (x, y) :: litRow y bs (x + 1) else litRow y bs (x + 1)

/-- The set pixels of a grid, as (x, y), row by row. -/
def litGrid : List (List Bool) → Nat → List (Nat × Nat)
  | [], _ => []
  | row :: rows, y => litRow y row 0 ++ litGrid rows (y + 1)

/-- The set pixels of each plane. -/
def lit (t : State) : List (List (Nat × Nat)) := t.planes.map fun g => litGrid g 0

/-- Pixels of plane `p` turned over. -/
def dots (p : Nat) (l : List (Nat × Nat)) (s : State) : State :=
  s.setPlanes (l.foldl (fun ps d => ps.modify p fun g => Grid.flip g d.1 d.2) s.planes)

/-- Other quirks. -/
def quirky (shift loadStore jump loresWide tall : Bool) (s : State) : State :=
  s.setQuirks ⟨shift, loadStore, jump, loresWide, tall⟩

/-- Scrolling shifts. -/
def shifting (s : State) : State := { s with cfg := { s.cfg with scrollMode := .shift } }

/-- `FF01` toggles `Q_JUMP`, one of the words `QUIRK_TOGGLE` may name. -/
def toggling (s : State) : State :=
  { s with cfg := { s.cfg with quirkToggle := some ⟨0xFF01, 0xFFFF, .jump⟩ } }

/-- A full stack. -/
def fullStack (s : State) : State := s.setStack (List.replicate 16 0x234)

/-! ### Well-formedness: each check refuses an ill-formed term -/

theorem test_wf_default : defaultConfig.wf = true := by decide
theorem test_wf_stackDepth : { defaultConfig with stackDepth := 11 }.wf = false := by decide
theorem test_wf_fontSmall : { defaultConfig with fontSmall := [0] }.wf = false := by decide
theorem test_wf_fontLarge : { defaultConfig with fontLarge := some [0] }.wf = false := by decide
theorem test_wf_quirkToggle :
    { defaultConfig with quirkToggle := some ⟨0x0001, 0xFF00, .jump⟩ }.wf = false := by decide
theorem test_wf_batch : { defaultConfig with batch := 0 }.wf = false := by decide
theorem test_wf_debounce : { defaultConfig with debounce := 0 }.wf = false := by decide

/-! ### Decoding: a word of every row, written out from 30_encoding.md R106 -/

theorem test_decode_group0 :
    decodeWord 0x00E0 = .ok .cls ∧ decodeWord 0x00EE = .ok .ret ∧ decodeWord 0x00C3 = .ok (.scd 3) ∧
    decodeWord 0x00D4 = .ok (.scu 4) ∧ decodeWord 0x00FB = .ok .scr ∧ decodeWord 0x00FC = .ok .scl ∧
    decodeWord 0x00FD = .ok .exit ∧ decodeWord 0x00FE = .ok .low ∧ decodeWord 0x00FF = .ok .high := by
  decide

theorem test_decode_groups1To7 :
    decodeWord 0x1ABC = .ok (.jp 0xABC) ∧ decodeWord 0x2300 = .ok (.call 0x300) ∧
    decodeWord 0x3342 = .ok (.seImm 3 0x42) ∧ decodeWord 0x4342 = .ok (.sneImm 3 0x42) ∧
    decodeWord 0x5120 = .ok (.seReg 1 2) ∧ decodeWord 0x6A9C = .ok (.ldImm 0xA 0x9C) ∧
    decodeWord 0x7203 = .ok (.addImm 2 3) := by
  decide

theorem test_decode_group8 :
    decodeWord 0x8120 = .ok (.ldReg 1 2) ∧ decodeWord 0x8121 = .ok (.or 1 2) ∧
    decodeWord 0x8122 = .ok (.and 1 2) ∧ decodeWord 0x8123 = .ok (.xor 1 2) ∧
    decodeWord 0x8124 = .ok (.addReg 1 2) ∧ decodeWord 0x8125 = .ok (.sub 1 2) ∧
    decodeWord 0x8126 = .ok (.shr 1 2) ∧ decodeWord 0x8127 = .ok (.subn 1 2) ∧
    decodeWord 0x812E = .ok (.shl 1 2) := by
  decide

theorem test_decode_groups9ToD :
    decodeWord 0x9120 = .ok (.sneReg 1 2) ∧ decodeWord 0xA123 = .ok (.ldI 0x123) ∧
    decodeWord 0xB234 = .ok (.jpV0 0x234) ∧ decodeWord 0xC00F = .ok (.rnd 0 0x0F) ∧
    decodeWord 0xD125 = .ok (.drw 1 2 5) := by
  decide

theorem test_decode_groupE :
    decodeWord 0xE19E = .ok (.skp 1) ∧ decodeWord 0xE1A1 = .ok (.sknp 1) := by
  decide

theorem test_decode_groupF :
    decodeWord 0xF401 = .ok (.plane 4) ∧ decodeWord 0xF407 = .ok (.ldVxDT 4) ∧
    decodeWord 0xF30A = .ok (.ldVxK 3) ∧ decodeWord 0xF115 = .ok (.ldDTVx 1) ∧
    decodeWord 0xF118 = .ok (.ldSTVx 1) ∧ decodeWord 0xF21E = .ok (.addI 2) ∧
    decodeWord 0xFA29 = .ok (.ldF 0xA) ∧ decodeWord 0xF330 = .ok (.ldHF 3) ∧
    decodeWord 0xF533 = .ok (.ldB 5) ∧ decodeWord 0xF255 = .ok (.store 2) ∧
    decodeWord 0xF265 = .ok (.load 2) := by
  decide

/-- One word of each family, bit by bit as R102 lays it out: `oooo xxxx yyyy nnnn`. -/
theorem test_decode_bits :
    decodeWord (0b0010#4 ++ 0b0011_0000_0000#12) = .ok (.call 0x300) ∧
    decodeWord (0b1000#4 ++ 0b0000#4 ++ 0b0001#4 ++ 0b0100#4) = .ok (.addReg 0 1) ∧
    decodeWord (0b1111#4 ++ 0b0010#4 ++ 0b0101_0101#8) = .ok (.store 2) ∧
    decodeWord (0b1110#4 ++ 0b0001#4 ++ 0b1001_1110#8) = .ok (.skp 1) ∧
    decodeWord (0b1101#4 ++ 0b0001#4 ++ 0b0010#4 ++ 0b0101#4) = .ok (.drw 1 2 5) ∧
    decodeWord (0b0000#4 ++ 0b0000#4 ++ 0b1111_1101#8) = .ok .exit := by
  decide

/-- R107: group 0 does not look at x. -/
theorem test_decode_ignores_x : decodeWord 0x0FE0 = .ok .cls ∧ decodeWord 0x0AC7 = .ok (.scd 7) := by decide

/-- Words that R109 lists as unmapped: CF-10, AL-28, SY-2, SY-3 and the words R6(e) names. -/
theorem test_decode_unmapped :
    decodeWord 0x5011 = .reject .unmappedGroup5 ∧ decodeWord 0x8018 = .reject .unmappedGroup8 ∧
    decodeWord 0x0123 = .reject .unmappedGroup0 ∧ decodeWord 0x9121 = .reject .unmappedGroup9 ∧
    decodeWord 0xE000 = .reject .unmappedGroupE ∧ decodeWord 0xF0FF = .reject .unmappedGroupF ∧
    decodeWord 0xF000 = .reject .unmappedGroupF ∧ decodeWord 0xF002 = .reject .unmappedGroupF ∧
    decodeWord 0x5122 = .reject .unmappedGroup5 ∧ decodeWord 0xF175 = .reject .unmappedGroupF ∧
    (decodeBytes [0x12]).1 = .reject .truncated := by
  decide

/-- The host's numbering: the word's bits, laid out high byte first. -/
theorem test_decodeTableWord : decodeTableWord 16 0xD125 = some (.drw 1 2 5) ∧
    decodeTableWord 16 0x5011 = none ∧ encodeBytes (.drw 1 2 5) = [0xD1, 0x25] := by decide

/-! ### Control flow -/

/-- CF-1. -/
theorem test_jp : runs 0x1ABC State.reset (fun t => t.pc == 0xABC) = true := by decide
/-- CF-2. -/
theorem test_call : runs 0x2400 State.reset (fun t => t.pc == 0x400 && t.stack == [0x202]) = true := by decide
/-- CF-4. -/
theorem test_call_full : runs 0x2400 (fullStack State.reset)
    (fun t => t.pc == 0x202 && t.stack.length == 16 && t.sv) = true := by decide
/-- CF-3. -/
theorem test_ret : runs 0x00EE (State.reset.setStack [0x234])
    (fun t => t.pc == 0x234 && t.stack == [] && !t.sv) = true := by decide
/-- CF-5. -/
theorem test_ret_empty : runs 0x00EE State.reset (fun t => t.pc == 0x202 && t.sv) = true := by decide
/-- CF-6. -/
theorem test_seImm : runs 0x3000 (State.reset.setPC 0xFFE) (fun t => t.pc == 0x002) = true := by decide
/-- CF-7. -/
theorem test_seImm_not : runs 0x3001 State.reset (fun t => t.pc == 0x202) = true := by decide
/-- CF-8. -/
theorem test_sneImm : runs 0x4001 State.reset (fun t => t.pc == 0x204) = true := by decide
/-- CF-9. -/
theorem test_seReg : runs 0x5010 (regs [(0, 3), (1, 3)] State.reset) (fun t => t.pc == 0x204) = true := by
  decide
/-- CF-11. -/
theorem test_sneReg : runs 0x9010 (regs [(0, 3), (1, 4)] State.reset) (fun t => t.pc == 0x204) = true := by
  decide
/-- CF-12. -/
theorem test_jpV0 : runs 0xBFFF (regs [(0, 0xFF)] State.reset) (fun t => t.pc == 0x0FE) = true := by decide
/-- CF-14. -/
theorem test_jpV0_quirk : runs 0xB234 (regs [(0, 0x10), (2, 1)] (quirky false false true false false State.reset))
    (fun t => t.pc == 0x235) = true := by decide

/-! ### ALU -/

/-- AL-24. -/
theorem test_ldImm : runs 0x6A9C State.reset (fun t => reg t 0xA == 0x9C && t.pc == 0x202) = true := by decide
/-- AL-25. -/
theorem test_addImm : runs 0x7001 (regs [(0, 0xFF), (15, 0x55)] State.reset)
    (fun t => reg t 0 == 0 && reg t 15 == 0x55) = true := by decide
/-- AL-23. -/
theorem test_ldReg : runs 0x8010 (regs [(0, 0xF0), (1, 0x3C)] State.reset)
    (fun t => reg t 0 == 0x3C && reg t 1 == 0x3C) = true := by decide
/-- AL-20. -/
theorem test_or : runs 0x8011 (regs [(0, 0xF0), (1, 0x0F), (15, 0x55)] State.reset)
    (fun t => reg t 0 == 0xFF && reg t 15 == 0x55) = true := by decide
/-- AL-21. -/
theorem test_and : runs 0x8012 (regs [(0, 0xF0), (1, 0x3C), (15, 0x55)] State.reset)
    (fun t => reg t 0 == 0x30 && reg t 15 == 0x55) = true := by decide
/-- AL-22. -/
theorem test_xor : runs 0x8013 (regs [(0, 0xF0), (1, 0x3C), (15, 0x55)] State.reset)
    (fun t => reg t 0 == 0xCC && reg t 15 == 0x55) = true := by decide
/-- AL-1. -/
theorem test_addReg : runs 0x8014 (regs [(0, 0xFF), (1, 1)] State.reset)
    (fun t => reg t 0 == 0 && reg t 15 == 1) = true := by decide
/-- AL-4. -/
theorem test_addReg_vf : runs 0x8F24 (regs [(15, 0xFF), (2, 2)] State.reset) (fun t => reg t 15 == 1) = true := by
  decide
/-- AL-7. -/
theorem test_sub : runs 0x8015 (regs [(0, 5), (1, 10), (15, 9)] State.reset)
    (fun t => reg t 0 == 0xFB && reg t 15 == 0) = true := by decide
/-- AL-8. -/
theorem test_sub_equal : runs 0x8015 (regs [(0, 7), (1, 7)] State.reset)
    (fun t => reg t 0 == 0 && reg t 15 == 1) = true := by decide
/-- AL-14. -/
theorem test_shr : runs 0x8016 (regs [(0, 0xAA), (1, 5)] State.reset)
    (fun t => reg t 0 == 2 && reg t 1 == 5 && reg t 15 == 1) = true := by decide
/-- AL-15. -/
theorem test_shr_quirk : runs 0x8016 (regs [(0, 4), (1, 5), (15, 9)] (quirky true false false false false State.reset))
    (fun t => reg t 0 == 2 && reg t 15 == 0) = true := by decide
/-- AL-12. -/
theorem test_subn : runs 0x8017 (regs [(0, 10), (1, 5), (15, 9)] State.reset)
    (fun t => reg t 0 == 0xFB && reg t 15 == 0) = true := by decide
/-- AL-17. -/
theorem test_shl : runs 0x801E (regs [(0, 0), (1, 0x81)] State.reset)
    (fun t => reg t 0 == 2 && reg t 15 == 1) = true := by decide
/-- AL-18. -/
theorem test_shl_quirk : runs 0x800E (regs [(0, 0x40), (15, 9)] (quirky true false false false false State.reset))
    (fun t => reg t 0 == 0x80 && reg t 15 == 0) = true := by decide
/-- AL-26. -/
theorem test_rnd : leaves (ready ⟨0, 0xA5, true, true⟩ 0xC00F State.reset) (fun t => reg t 0 == 5) = true := by
  decide

/-! ### Index and memory -/

/-- IM-1. -/
theorem test_ldI : runs 0xA123 State.reset (fun t => t.i == 0x123) = true := by decide
/-- IM-2. -/
theorem test_addI : runs 0xF01E (regs [(0, 2), (15, 0x55)] (State.reset.setI 0xFFF))
    (fun t => t.i == 1 && reg t 15 == 0x55) = true := by decide
/-- IM-12. -/
theorem test_store : runs 0xF255 (regs [(0, 1), (1, 2), (2, 3)] (State.reset.setI 0x300))
    (fun t => mem t 0x300 4 == [1, 2, 3, 0] && t.i == 0x300) = true := by decide
/-- IM-13. -/
theorem test_store_quirk : runs 0xF255 (regs [(0, 1), (1, 2), (2, 3)]
    (quirky false true false false false (State.reset.setI 0x300)))
    (fun t => mem t 0x300 4 == [1, 2, 3, 0] && t.i == 0x303) = true := by decide
/-- IM-15. -/
theorem test_load : runs 0xF265 (bytesAt 0x300 [1, 5, 6] (State.reset.setI 0x300))
    (fun t => reg t 0 == 1 && reg t 1 == 5 && reg t 2 == 6 && t.i == 0x300) = true := by decide
/-- IM-14, at the wrap: the eighth and the ninth byte. -/
theorem test_load_wrap : runs 0xFF65 (bytesAt 0xFF8 [16, 17, 18, 19, 20, 21, 22, 23, 32, 33]
    (quirky false true false false false (State.reset.setI 0xFF8)))
    (fun t => reg t 7 == 23 && reg t 8 == 32 && t.i == 8) = true := by decide
/-- IM-8. -/
theorem test_ldB : runs 0xF033 (regs [(0, 156)] (State.reset.setI 0x300))
    (fun t => mem t 0x300 3 == [1, 5, 6] && t.i == 0x300) = true := by decide
/-- IM-11. -/
theorem test_ldB_wrap : runs 0xF033 (regs [(0, 123)] (State.reset.setI 0xFFE))
    (fun t => mem t 0xFFE 3 == [1, 2, 3] && mem t 0 1 == [3]) = true := by decide
/-- IM-4, IM-5. -/
theorem test_ldF : runs 0xF029 (regs [(0, 0x10)] State.reset) (fun t => t.i == 0x050) = true ∧
    runs 0xF029 (regs [(0, 0xFF)] State.reset) (fun t => t.i == 0x4FB) = true := by decide
/-- IM-6, IM-7. -/
theorem test_ldHF : runs 0xF030 (regs [(0, 3)] State.reset) (fun t => t.i == 0x06E) = true ∧
    runs 0xF030 (regs [(0, 0xFF)] State.reset) (fun t => t.i == 0xA46) = true := by decide

/-! ### Timers and keys -/

/-- TK-1. -/
theorem test_ldVxDT : runs 0xF507 (State.reset.setDT 0x42) (fun t => reg t 5 == 0x42) = true := by decide
/-- TK-2. -/
theorem test_ldDTVx : runs 0xF515 (regs [(5, 0x42)] State.reset) (fun t => t.dt == 0x42) = true := by decide
/-- TK-3. -/
theorem test_ldSTVx : runs 0xF518 (regs [(5, 0x42)] State.reset) (fun t => t.st == 0x42) = true := by decide
/-- TK-4. -/
theorem test_tick : leaves ((State.reset.setST 1).setPending [.tick])
    (fun t => t.dt == 0 && t.st == 0 && t.pc == 0x200) = true := by decide
/-- TK-5. -/
theorem test_skp : leaves (ready ⟨0x0020, 0, true, true⟩ 0xE09E (regs [(0, 5)] State.reset))
    (fun t => t.pc == 0x204) = true := by decide
/-- TK-7. -/
theorem test_skp_no_key : leaves (ready ⟨0xFFFF, 0, true, true⟩ 0xE09E (regs [(0, 0x12)] State.reset))
    (fun t => t.pc == 0x202) = true := by decide
/-- TK-8. -/
theorem test_sknp_no_key : leaves (ready ⟨0xFFFF, 0, true, true⟩ 0xE0A1 (regs [(0, 0x12)] State.reset))
    (fun t => t.pc == 0x204) = true := by decide
/-- TK-9. -/
theorem test_sknp : leaves (ready ⟨0x0020, 0, true, true⟩ 0xE0A1 (regs [(0, 5)] State.reset))
    (fun t => t.pc == 0x202) = true := by decide
/-- TK-12. -/
theorem test_ldVxK_wait : runs 0xF30A (State.reset.setPC 0) (fun t => t.pc == 0 && reg t 3 == 0) = true := by
  decide
/-- TK-11. -/
theorem test_ldVxK : leaves (ready ⟨0x0280, 0, true, true⟩ 0xF30A State.reset)
    (fun t => reg t 3 == 7 && t.pc == 0x202) = true := by decide

/-! ### Display -/

/-- DS-11. -/
theorem test_cls : runs 0x00E0 (dots 1 [(5, 5)] (dots 0 [(0, 0)]
    (State.reset.setPlanes [blankGrid 64 32, blankGrid 64 32])))
    (fun t => lit t == [[], [(5, 5)]]) = true := by decide
/-- DS-2: the right edge clips. -/
theorem test_drw_clip : runs 0xD011 (regs [(0, 60), (15, 7)] (bytesAt 0x300 [0xFF] (State.reset.setI 0x300)))
    (fun t => lit t == [[(60, 0), (61, 0), (62, 0), (63, 0)]] && reg t 15 == 0) = true := by decide
/-- DS-9: rows alternate between planes, and a set pixel collides. -/
theorem test_drw_planes : runs 0xD003 (dots 1 [(1, 1)] (bytesAt 0x300 [0x80, 0x40, 0x20]
    ((State.reset.setI 0x300).setActivePlanes 3)))
    (fun t => lit t == [[(0, 0), (2, 2)], []] && reg t 15 == 1) = true := by decide
/-- SY-4, L1-8. -/
theorem test_high_too_small : leaves (ready ⟨0, 0, true, false⟩ 0x00FF (dots 0 [(0, 0)] State.reset))
    (fun t => t.fatal && t.pc == 0x200 && !t.hires && lit t == [[(0, 0)]]) = true := by decide
/-- DS-12. -/
theorem test_high : runs 0x00FF (dots 0 [(3, 3)] State.reset)
    (fun t => t.hires && t.planes == [blankGrid 128 64] && t.pc == 0x202) = true := by decide
/-- R265's example. -/
theorem test_low : runs 0x00FE (dots 0 [(100, 60)] ((State.reset.setHires true).setPlanes [blankGrid 128 64]))
    (fun t => !t.hires && t.planes == [blankGrid 64 32]) = true := by decide
/-- DS-13. -/
theorem test_scd_noop : runs 0x00C3 (dots 0 [(5, 0)] State.reset) (fun t => lit t == [[(5, 0)]]) = true := by
  decide
/-- DS-14. -/
theorem test_scd : runs 0x00C3 (shifting (dots 0 [(5, 0)] State.reset)) (fun t => lit t == [[(5, 3)]]) = true := by
  decide
/-- R268's example. -/
theorem test_scu : runs 0x00D3 (shifting (dots 0 [(5, 3)] State.reset)) (fun t => lit t == [[(5, 0)]]) = true := by
  decide
/-- DS-16. -/
theorem test_scr : runs 0x00FB (shifting (dots 0 [(62, 0)] State.reset)) (fun t => lit t == [[]]) = true := by
  decide
/-- DS-15. -/
theorem test_scl : runs 0x00FC (shifting (dots 0 [(5, 0), (2, 0)] State.reset))
    (fun t => lit t == [[(1, 0)]]) = true := by decide
/-- DS-18. -/
theorem test_plane : runs 0xF401 State.reset
    (fun t => t.planes.length == 3 && t.active == 0b0100 && lit t == [[], [], []]) = true := by decide

/-! ### System -/

/-- SY-1. -/
theorem test_exit : runs 0x00FD State.reset (fun t => t.halted && t.exitCode == 0 && t.pc == 0x202) = true := by
  decide
/-- SY-1: a later `STEP` changes nothing. -/
theorem test_halted_step : leaves ((State.reset.halt 0).setPending [.step quiet])
    (fun t => t == State.reset.halt 0) = true := by decide
/-- AL-28, R301. -/
theorem test_unmapped : runs 0x8018 (regs [(0, 1), (1, 2)] State.reset)
    (fun t => t.pc == 0x202 && reg t 0 == 1 && reg t 15 == 0) = true := by decide
/-- R302: the toggle comes before the row `PLANE` of the same word. -/
theorem test_toggle : runs 0xFF01 (toggling State.reset)
    (fun t => t.quirks.jump && t.active == 1 && t.pc == 0x202) = true := by decide
/-- SY-5. -/
theorem test_reset_too_small : leaves (State.reset.setPending [.reset [0x12] false])
    (fun t => t.fatal && t.pc == 0x200 && mem t 0x200 1 == [0]) = true := by decide
/-- R340: a ROM is loaded at 0x200, and the fonts are back. -/
theorem test_reset_rom : leaves ((bytesAt 0 [9] State.reset).setPending [.reset [0x60, 0x05] true])
    (fun t => mem t 0x200 3 == [0x60, 0x05, 0] && mem t 0 1 == [0xF0] && t.pc == 0x200) = true := by decide
/-- R310: each outcome's code. -/
theorem test_outcome_codes :
    (commandOutcome .tick State.reset).code = 0 ∧
    (commandOutcome (.reset [0] false) State.reset).code = 2 ∧
    (commandOutcome (.step quiet) (ready quiet 0x00FD State.reset)).code = 3 ∧
    (commandOutcome (.step quiet) (ready quiet 0x2400 (fullStack State.reset))).code = 4 ∧
    (commandOutcome (.step quiet) (ready quiet 0x00EE State.reset)).code = 5 := by decide
/-- A table word runs as the first instruction after reset, whatever the free inputs are. -/
theorem test_first_after_reset :
    leaves (State.reset.withFetchWord 16 0x6A9C) (fun t => reg t 0xA == 0x9C) = true := by decide

/-! ### The host around the block -/

/-- R321: a press sets the bit and the counter; the 20th poll after it clears the table. -/
theorem test_latch : ((⟨0, 0⟩ : KeyLatch).poll 20 [3]) = ⟨0x0008, 20⟩ ∧
    ((⟨0x0008, 1⟩ : KeyLatch).poll 20 []) = ⟨0, 0⟩ ∧ ((⟨0x0008, 2⟩ : KeyLatch).poll 20 []) = ⟨0x0008, 1⟩ := by
  decide
/-- R322: a frame is `BATCH` steps, 50 by default, under one key sample, then one tick. -/
theorem test_frame : (frame [3] (fun _ => ⟨7, true, true⟩) ⟨0, 0⟩ State.reset).2.pending =
    List.replicate 50 (.step ⟨0x0008, 7, true, true⟩) ++ [.tick] := by decide

/-! ### Witnesses: a state and operands that meet the hypotheses of each obligation that has some -/

/-- `DecodeOfEncodeIsIdentity`: its one hypothesis, at the largest operands. -/
theorem witness_DecodeOfEncodeIsIdentity : (Instr.drw 0xF 0xF 0xF).wf = true := by decide

/-- `EncodeOfDecodeKeepsExaminedBits`: a word of group 0 with its x nibble set, and a word of another group. -/
theorem witness_EncodeOfDecodeKeepsExaminedBits :
    (decodeWord 0x0FE0 = .ok .cls ∧ groupField 0x0FE0 = 0) ∧
    (decodeWord 0xFF65 = .ok (.load 0xF) ∧ groupField 0xFF65 ≠ 0) := by decide

/-- `DecoderIsTheOpcodeMap`: a decoded word, and a word that matches a row. -/
theorem witness_DecoderIsTheOpcodeMap :
    decodeWord 0x8014 = .ok (.addReg 0 1) ∧
    (⟨"ADD_Vx__Vy", 0x8004, 0xF00F⟩ : OpcodeRow) ∈ opcodeTable ∧ (0x8014 : Word16) &&& 0xF00F = 0x8004 := by
  decide

/-- `StepRunsDecodedInstruction`: with a `STEP` pending, and with nothing pending. -/
theorem witness_StepRunsDecodedInstruction (s : State)
    (h : s = ready quiet 0x8014 State.reset ∨ s = State.reset.withFetchWord 16 0x8014) :
    s.halted = false ∧ s.fatal = false ∧ (Instr.addReg 0 1).wf = true ∧
    decodeBytes (s.readBytes s.pc 2) = (.ok (.addReg 0 1), []) ∧
    toggleField s.cfg (wordOfBytes (s.readByte s.pc) (s.readByte (s.pc + 1))) = none ∧
    (s.pending = [.step quiet] ∨ s.pending = []) := by
  rcases h with rfl | rfl <;> decide

/-- `PlacedWordIsRunNext`, PC at the last address. -/
theorem witness_PlacedWordIsRunNext : MemoryCanonical (State.reset.setPC 0xFFF) ∧ 0xFF65 < 65536 ∧
    (State.reset.setPC 0xFFF).pending = [] ∧ decodeTableWord 16 0xFF65 = some (.load 0xF) ∧
    toggleField (State.reset.setPC 0xFFF).cfg (BitVec.ofNat 16 0xFF65) = none := by decide

/-- `UnmappedWordOnlyAdvancesPc`: with a `STEP` pending, and with nothing pending. -/
theorem witness_UnmappedWordOnlyAdvancesPc (q : List Command) (h : q = [.step quiet] ∨ q = []) :
    ((ready quiet 0x8018 State.reset).setPending q).halted = false ∧
    ((ready quiet 0x8018 State.reset).setPending q).fatal = false ∧
    toggleField ((ready quiet 0x8018 State.reset).setPending q).cfg
      ((ready quiet 0x8018 State.reset).setPending q).fetch = none ∧
    decodeWord ((ready quiet 0x8018 State.reset).setPending q).fetch = .reject .unmappedGroup8 ∧
    ((ready quiet 0x8018 State.reset).setPending q).pending = q := by
  rcases h with rfl | rfl <;> decide

/-- `StoppedBlockIgnoresStepAndTick`: halted or fatal, with each of the three queues. -/
theorem witness_StoppedBlockIgnoresStepAndTick (q : List Command)
    (h : q = [] ∨ q = [.step quiet] ∨ q = [.tick]) :
    ((State.reset.halt 0).setPending q).halted = true ∧
    (State.reset.raiseConfigurationError.setPending q).fatal = true ∧
    ((State.reset.halt 0).setPending q).pending = q := by
  rcases h with rfl | rfl | rfl <;> decide

/-- `QuirkToggleFlipsItsField`, on a word that also matches a row: with a `STEP` pending, and with nothing
pending. -/
theorem witness_QuirkToggleFlipsItsField (q : List Command) (h : q = [.step quiet] ∨ q = []) :
    ((ready quiet 0xFF01 (toggling State.reset)).setPending q).halted = false ∧
    ((ready quiet 0xFF01 (toggling State.reset)).setPending q).fatal = false ∧
    ((ready quiet 0xFF01 (toggling State.reset)).setPending q).cfg.quirkToggle =
      some ⟨0xFF01, 0xFFFF, .jump⟩ ∧
    ((ready quiet 0xFF01 (toggling State.reset)).setPending q).fetch &&& 0xFFFF = 0xFF01 ∧
    ((ready quiet 0xFF01 (toggling State.reset)).setPending q).pending = q := by
  rcases h with rfl | rfl <;> decide

/-- `TickDecrementsTimersClamped`, one timer at 0 and the other at 255. -/
theorem witness_TickDecrementsTimersClamped : ((State.reset.setST 255).setPending [.tick]).halted = false ∧
    ((State.reset.setST 255).setPending [.tick]).fatal = false ∧
    ((State.reset.setST 255).setPending [.tick]).pending = .tick :: [] ∧
    ((State.reset.setST 255).setPending [.tick]).dt = 0 := by decide

/-- `ResetLeavesListedValues`: the empty ROM and the largest one. -/
theorem witness_ResetLeavesListedValues (n : Nat) (h : n = 0 ∨ n = 3584) :
    (List.replicate n (0xAA : Byte)).length ≤ 3584 ∧
    (State.reset.setPending [.reset (List.replicate n 0xAA) true]).pending =
      .reset (List.replicate n 0xAA) true :: [] :=
  ⟨by rw [List.length_replicate]; omega, rfl⟩

/-- The ranges of `ResetLeavesListedValues` at their ends: no address lies in two of them. -/
theorem witness_ResetLeavesListedValues_ranges (n : Nat) (a : Addr) (hn : n ≤ 3584) :
    ¬ (a.toNat < 0x050 ∧ 0x050 ≤ a.toNat) ∧ ¬ (a.toNat < 0x0F0 ∧ 0x0F0 ≤ a.toNat) ∧
    (∀ k, k < n → a = BitVec.ofNat 12 (0x200 + k) → ¬ (a.toNat < 0x200 ∨ 0x200 + n ≤ a.toNat)) := by
  refine ⟨by omega, by omega, fun k hk ha => ?_⟩
  subst ha
  rw [BitVec.toNat_ofNat]
  omega

/-- `RejectedResetOnlySetsFatal`: one byte too many, and a display that cannot show lores. -/
theorem witness_RejectedResetOnlySetsFatal :
    ((State.reset.setPending [.reset (List.replicate 3585 0) true]).pending =
      .reset (List.replicate 3585 0) true :: [] ∧ 3584 < (List.replicate 3585 (0 : Byte)).length) ∧
    (State.reset.setPending [.reset [] false]).pending = .reset [] false :: [] :=
  ⟨⟨rfl, by rw [List.length_replicate]; omega⟩, rfl⟩

/-- `ResetStateIsEmptyRomReset`. -/
theorem witness_ResetStateIsEmptyRomReset : (State.reset.setPC 0x300).cfg = defaultConfig := by decide

/-- `ReadAfterWrite`, `StoreWritesV0ToVx`, `BcdStoresThreeDigits`, `LoadUndoesStore`: a canonical memory with a
byte listed at the last address, and a second state with the same parameters and I. -/
theorem witness_canonical : MemoryCanonical (bytesAt 0xFFF [1] (State.reset.setI 0xFFE)) ∧
    (bytesAt 0xFFF [1] (State.reset.setI 0xFFE)).mem = [(0xFFF, 1)] ∧
    (State.reset.setI 0xFFE).cfg = (bytesAt 0xFFF [1] (State.reset.setI 0xFFE)).cfg ∧
    (State.reset.setI 0xFFE).i = (bytesAt 0xFFF [1] (State.reset.setI 0xFFE)).i := by decide

/-- There is a state that holds any memory. -/
theorem holding (m : Memory) :
    ∃ u : State, u.cfg = (State.reset.setI 0xFF8).cfg ∧ u.i = (State.reset.setI 0xFF8).i ∧ u.mem = m :=
  ⟨{ State.reset.setI 0xFF8 with mem := m }, rfl, rfl, rfl⟩

/-- `LoadUndoesStore`: a state that holds the stored memory. -/
theorem witness_LoadUndoesStore : ∃ t, exec (.store 0xF) (State.reset.setI 0xFF8) = .next t ∧
    ∃ u : State, u.cfg = (State.reset.setI 0xFF8).cfg ∧ u.i = (State.reset.setI 0xFF8).i ∧ u.mem = t.mem :=
  ⟨_, rfl, holding _⟩

/-- `MemReadShiftsBytesIn` and `MemWriteStoresBytesAscending`. -/
theorem witness_MemRead : 1 ≤ 1 ∧ 1 ≤ 2 := by decide

/-- `StoreIsSeenByTheNextFetch`. -/
theorem witness_StoreIsSeenByTheNextFetch : MemoryCanonical (State.reset.setI 0x202) ∧ (1 : Nibble) ≠ 0 ∧
    (State.reset.setI 0x202).i = (State.reset.setI 0x202).pc + 2 := by decide

/-- `CallPushesOrRecordsOverflow`: a full stack and one with a single place left; `RetUndoesCall`: the latter. -/
theorem witness_CallPushesOrRecordsOverflow :
    (fullStack State.reset).stack.length = (fullStack State.reset).cfg.stackDepth ∧
    (State.reset.setStack (List.replicate 15 0x234)).stack.length < State.reset.cfg.stackDepth := by decide

/-- `RetPopsOrRecordsUnderflow`: an empty stack and a stack of one. -/
theorem witness_RetPopsOrRecordsUnderflow : State.reset.stack = [] ∧
    (State.reset.setStack [0x234]).stack = [] ++ [0x234] := by decide

/-- `FlagWritesAreZeroOrOne`: a flag-writing instruction, VF being neither 0 nor 1 before it. -/
theorem witness_FlagWritesAreZeroOrOne :
    (∃ t, exec (.sub 0 1) (regs [(15, 9)] State.reset) = .next t) ∧
    (match Instr.sub 0 1 with
      | .addReg _ _ | .sub _ _ | .subn _ _ | .shr _ _ | .shl _ _ | .drw _ _ _ => True
      | _ => False) := ⟨⟨_, rfl⟩, trivial⟩

/-- The words of `LoadImmediateSetsVx`, `AddRegisterSetsCarry`, `StoreWritesV0ToVx`, `LoadReadsV0ToVx`. -/
theorem witness_words : (0x6FFF : Word16) &&& 0xF000 = 0x6000 ∧ (0x8FF4 : Word16) &&& 0xF00F = 0x8004 ∧
    (0xFF55 : Word16) &&& 0xF0FF = 0xF055 ∧ (0xFF65 : Word16) &&& 0xF0FF = 0xF065 := by decide

/-- `KeyWaitTakesLowestKey`: no key, and only the highest one. -/
theorem witness_KeyWaitTakesLowestKey : (withKeys 0 State.reset).inp.keys = 0 ∧
    (withKeys 0x8000 State.reset).inp.keys ≠ 0 := by decide

/-- `ClearZeroesOnlyActivePlanes`, the clause on inactive planes: a set pixel of one. -/
theorem witness_ClearZeroesOnlyActivePlanes :
    (dots 1 [(63, 31)] (State.reset.setPlanes [blankGrid 64 32, blankGrid 64 32])).active.getLsbD 1 = false ∧
    planePixel (dots 1 [(63, 31)] (State.reset.setPlanes [blankGrid 64 32, blankGrid 64 32])).planes 1 63 31 =
      true := by decide

/-- `DrawXorsSpritePixelwise` and `DoubleDrawRestoresPlanes`: sound planes, a sprite pixel that lands and one
that does not. -/
theorem witness_DrawXorsSpritePixelwise : PlanesSound State.reset ∧ (0 : Nibble) ≠ 0xF ∧
    Turned State.reset 0 0 1 0 0 0 ∧ ¬ Turned State.reset 0 0 1 1 0 0 := by
  refine ⟨by decide, by decide, ⟨0, 0, by decide⟩, ?_⟩
  rintro ⟨r, c, -, -, -, -, -, -, hp, -⟩
  have hl : (activeList State.reset.active).length = 1 := by decide
  rw [hl, Nat.mod_one] at hp
  exact absurd hp (by decide)

/-- `ResolutionSwitchClearsOrIsUndone`: each verdict for each resolution. -/
theorem witness_ResolutionSwitchClearsOrIsUndone :
    (withGeom true true State.reset).inp.geomLores = true ∧
    (withGeom true true State.reset).inp.geomHires = true ∧
    (withGeom false false State.reset).inp.geomLores = false ∧
    (withGeom false false State.reset).inp.geomHires = false := by decide

/-- `ScrollsShiftActivePlanes`: sound planes under either mode, and the last pixel of the grid. -/
theorem witness_ScrollsShiftActivePlanes : PlanesSound (shifting State.reset) ∧
    (shifting State.reset).cfg.scrollMode = .shift ∧ State.reset.cfg.scrollMode = .noop ∧
    63 < (shifting State.reset).width ∧ 31 < (shifting State.reset).height := by decide

/-- `PlaneSelectGrowsWithBlankPlanes` and `UnselectedPlanesSurviveClear`: a plane that the mask names and one
that it does not. -/
theorem witness_planes : (0b1000 : Nibble).getLsbD 3 = true ∧ (0b1000 : Nibble).getLsbD 0 = false := by decide

/-- `StepOutcomeMatchesItsEffect`: a running block. -/
theorem witness_StepOutcomeMatchesItsEffect : (ready quiet 0x00FD State.reset).halted = false ∧
    (ready quiet 0x00FD State.reset).fatal = false := by decide

/-- A state at the edges of the invariant: a full stack, four planes, all of them active. -/
def edge : State := (fullStack State.reset).setActivePlanes 0b1111

/-- `StepKeepsInvariant`: the invariant holds of `edge`, and `edge` has a step. -/
theorem witness_StepKeepsInvariant : edge.Inv ∧ ∃ t, step (edge.setPending [.tick]) = .next t :=
  ⟨⟨by decide, by decide, by decide, by decide, by decide, by decide⟩, _, rfl⟩

/-- `RegistersChangeOnlyUnderTheirWriters`: an instruction that changes a register. -/
theorem witness_RegistersChangeOnlyUnderTheirWriters :
    ∃ t, exec (.ldImm 3 7) State.reset = .next t ∧ t.getV 3 ≠ State.reset.getV 3 := ⟨_, rfl, by decide⟩

/-- `MemoryChangesOnlyWhereStored`: a store across the end of memory, and an address it does not reach. -/
theorem witness_MemoryChangesOnlyWhereStored : MemoryCanonical (State.reset.setI 0xFFF) ∧
    (∃ t, exec (.store 1) (State.reset.setI 0xFFF) = .next t) ∧
    ¬ StoresTo (.store 1) (State.reset.setI 0xFFF) 0x001 := by
  refine ⟨by decide, ⟨_, rfl⟩, ?_⟩
  rintro ⟨k, hk, h⟩
  have : k = 0 ∨ k = 1 := by
    have : (1 : Nibble).toNat = 1 := rfl
    omega
  rcases this with rfl | rfl <;> exact absurd h (by decide)

/-- `ControlStateChangesOnlyUnderItsWriters`: an instruction for each field that may change. -/
theorem witness_ControlStateChangesOnlyUnderItsWriters :
    (∃ t, exec (.ldI 1) State.reset = .next t ∧ t.i ≠ State.reset.i) ∧
    (∃ t, exec (.store 0) (quirky false true false false false State.reset) = .next t ∧ t.i ≠ State.reset.i) ∧
    (∃ t, exec (.call 1) State.reset = .next t ∧ t.stack ≠ State.reset.stack) ∧
    (∃ t, exec (.ldDTVx 0) (regs [(0, 1)] State.reset) = .next t ∧ t.dt ≠ State.reset.dt) ∧
    (∃ t, exec (.ldSTVx 0) (regs [(0, 1)] State.reset) = .next t ∧ t.st ≠ State.reset.st) ∧
    (∃ t, exec .high (withGeom true true State.reset) = .next t ∧ t.hires ≠ State.reset.hires) ∧
    (∃ t, exec .cls (dots 0 [(63, 31)] State.reset) = .next t ∧
      t.planes ≠ (dots 0 [(63, 31)] State.reset).planes) ∧
    (∃ t, exec (.plane 8) State.reset = .next t ∧ t.planes.length ≠ State.reset.planes.length) ∧
    (∃ t, exec .exit State.reset = .next t ∧ t.halted ≠ State.reset.halted) ∧
    (∃ t, exec .low State.reset = .next t ∧ t.fatal ≠ State.reset.fatal) ∧
    (∃ t, exec .ret State.reset = .next t ∧ t.sv ≠ State.reset.sv) :=
  ⟨⟨_, rfl, by decide⟩, ⟨_, rfl, by decide⟩, ⟨_, rfl, by decide⟩, ⟨_, rfl, by decide⟩, ⟨_, rfl, by decide⟩,
    ⟨_, rfl, by decide⟩, ⟨_, rfl, by decide⟩, ⟨_, rfl, by decide⟩, ⟨_, rfl, by decide⟩, ⟨_, rfl, by decide⟩,
    ⟨_, rfl, by decide⟩⟩

/-- `InputsReachOnlyTheirReaders` and `NoInstructionReadsSoundTimer`: an instruction that meets all their
hypotheses. -/
theorem witness_InputsReachOnlyTheirReaders :
    (∀ x, Instr.cls ≠ .skp x ∧ Instr.cls ≠ .sknp x ∧ Instr.cls ≠ .ldVxK x) ∧
    (∀ x nn, Instr.cls ≠ .rnd x nn) ∧ Instr.cls ≠ .low ∧ Instr.cls ≠ .high ∧ (∀ x, Instr.cls ≠ .ldSTVx x) := by
  simp

end Sys2Proof.Tests
end

-- ==== proofs: frames ====
section
/-! PROOFS. How frames compose, and the frame of each write that a control transfer is made of: the frame of an
instruction follows from the writes it makes. -/

namespace Sys2Proof.Spec

open Sys2Proof.Machine

/-- A result that is a next state completes with `P` exactly when `P` holds of that state. -/
@[simp] theorem completes_next (t : State) (P : State → Prop) : Completes (.next t) P ↔ P t := by
  simp [Completes]

theorem Part.Same.trans {s t u : State} {p : Part} (hst : Part.Same s t p) (htu : Part.Same t u p) :
    Part.Same s u p := by
  cases p
  case mem | v => exact fun a => (htu a).trans (hst a)
  case host =>
    obtain ⟨hinp, hpending, hseq⟩ := hst
    obtain ⟨hinp', hpending', hseq'⟩ := htu
    exact ⟨hinp'.trans hinp, hpending'.trans hpending, hseq'.trans hseq⟩
  all_goals exact Eq.trans htu hst

/-- One write after another leaves alone what neither of them lists. -/
theorem SameExcept.trans {ps qs : List Part} {s t u : State} (hst : SameExcept ps s t)
    (htu : SameExcept qs t u) : SameExcept (ps ++ qs) s u := by
  intro p hp
  obtain ⟨hps, hqs⟩ : p ∉ ps ∧ p ∉ qs := by simpa using hp
  exact (hst p hps).trans (htu p hqs)

theorem SameExcept.mono {ps qs : List Part} {s t : State} (h : SameExcept ps s t) (hsub : ps ⊆ qs) :
    SameExcept qs s t := fun p hp => h p fun hmem => hp (hsub hmem)

theorem sameExcept_setPC (s : State) (a : Addr) : SameExcept [.pc] s (s.setPC a) := by
  intro p hp
  cases p <;> simp_all [Part.Same]

theorem sameExcept_setStack (s : State) (l : List Addr) : SameExcept [.stack] s (s.setStack l) := by
  intro p hp
  cases p <;> simp_all [Part.Same]

theorem sameExcept_violation (s : State) : SameExcept [.sv] s s.violation := by
  intro p hp
  cases p <;> simp_all [Part.Same]

theorem sameExcept_advance (s : State) : SameExcept [.pc] s s.advance := sameExcept_setPC s (s.pc + 2)

/-- The frame of a stack operation that fails (R39). -/
theorem sameExcept_advance_violation (s : State) : SameExcept [.pc, .sv] s s.advance.violation :=
  (sameExcept_advance s).trans (sameExcept_violation _)

/-- The frame of a control transfer through the stack that succeeds (R41, R42). -/
theorem sameExcept_advance_setStack_setPC (s : State) (l : List Addr) (a : Addr) :
    SameExcept [.pc, .stack] s ((s.advance.setStack l).setPC a) :=
  (((sameExcept_advance s).trans (sameExcept_setStack _ l)).trans (sameExcept_setPC _ a)).mono (by simp)

end Sys2Proof.Spec
end

-- ==== proofs: the call stack ====
section
/-! PROOFS. `CALL` and `RET` (10_state.md section 6): what the laws of the shared operations say of them, with
the frames of their two outcomes. -/

namespace Sys2Proof.Spec

open Sys2Proof.Machine

theorem exec_call (nnn : Addr) (s : State) : exec (.call nnn) s = execCall nnn s := rfl

theorem exec_ret (s : State) : exec .ret s = execRet s := rfl

/-- Addition on addresses is addition modulo 4096. -/
theorem addr_add_ofNat (a : Addr) (k : Nat) : a + BitVec.ofNat 12 k = BitVec.ofNat 12 ((a.toNat + k) % 4096) := by
  apply BitVec.eq_of_toNat_eq
  simp

/-- Settles O23: the stack is full or has room, and the law of `CALL` for each gives the next state. -/
theorem callPushesOrRecordsOverflow : Obligations.CallPushesOrRecordsOverflow := by
  intro nnn s hdepth
  rw [exec_call]
  by_cases hfull : s.stack.length = s.cfg.stackDepth
  · rw [execCall_full nnn s hfull.ge]
    have hframe : SameExcept [.pc, .stack, .sv] s s.advance.violation :=
      (sameExcept_advance_violation s).mono (by simp)
    rw [completes_next, if_pos hfull]
    exact ⟨hframe, rfl, rfl, rfl⟩
  · have hroom : s.stack.length < s.cfg.stackDepth := lt_of_le_of_ne hdepth hfull
    rw [execCall_room nnn s hroom]
    have hframe : SameExcept [.pc, .stack, .sv] s
        ((s.advance.setStack (s.stack ++ [s.pc + 2])).setPC nnn) :=
      (sameExcept_advance_setStack_setPC s _ nnn).mono (by simp)
    have hreturn : s.pc + 2 = BitVec.ofNat 12 ((s.pc.toNat + 2) % 4096) := addr_add_ofNat s.pc 2
    rw [completes_next, if_neg hfull, ← hreturn]
    exact ⟨hframe, rfl, rfl, rfl⟩

/-- Settles O24: the law of `RET` for an empty stack, and the one for a stack with a last element. -/
theorem retPopsOrRecordsUnderflow : Obligations.RetPopsOrRecordsUnderflow := by
  intro s
  rw [exec_ret]
  constructor
  · intro hempty
    rw [execRet_nil s hempty, completes_next]
    exact ⟨sameExcept_advance_violation s, rfl, rfl⟩
  · intro l a hstack
    rw [execRet_append s l a hstack, completes_next]
    exact ⟨sameExcept_advance_setStack_setPC s l a, rfl, rfl⟩

end Sys2Proof.Spec
end

-- ==== proofs: memory ====
section
/-! PROOFS. The memory primitives `MemRead` and `MemWrite` (20_memory.md section 1): the bytes each of them handles,
listed by their offset `k`, and what it does with them, as one loop over the offsets. -/

namespace Sys2Proof.Spec

open Sys2Proof.Machine

/-! ### MemRead -/

/-- The bytes read from `a` on, by their offset. -/
theorem readBytes_eq_map_range (s : State) (a : Addr) (n : Nat) :
    s.readBytes a n = (List.range n).map fun k => s.readByte (a + BitVec.ofNat 12 k) := by
  apply List.ext_getElem?
  intro k
  rw [s.readBytes_getElem?]
  by_cases hk : k < n <;> simp [hk]

/-- Shifting a byte in at the low end is the arithmetic step of `bytesToNat`. -/
theorem shiftLeft_or_byte (v : Nat) (b : Byte) : v <<< 8 ||| b.toNat = v * 256 + b.toNat := by
  rw [← Nat.shiftLeft_add_eq_or_of_lt b.isLt, Nat.shiftLeft_eq]

/-- Settles O17: the bytes are listed by their offset, and one fold over the offsets both reads and joins them. -/
theorem memReadShiftsBytesIn : Obligations.MemReadShiftsBytesIn := by
  intro s a n _
  rw [State.memRead, bytesToNat, readBytes_eq_map_range, List.foldl_map]
  simp only [shiftLeft_or_byte, addr_add_ofNat]

/-! ### MemWrite -/

/-- The bytes of `v`, the high one first, by their offset. -/
theorem natToBytes_eq_map_range (v n : Nat) :
    natToBytes v n = (List.range n).map fun k => BitVec.ofNat 8 (v >>> (8 * (n - 1 - k))) := by
  induction n with
  | zero => rfl
  | succ n ih =>
    have hhigh : v / 256 ^ n = v >>> (8 * n) := by norm_num [Nat.shiftRight_eq_div_pow, pow_mul]
    rw [natToBytes, ih, hhigh, List.range_succ_eq_map]
    simp [Nat.sub_sub, Nat.add_comm]

/-- Bytes listed by their offset are stored one after another, each at its offset from `a`. -/
theorem writeBytes_map_range (s : State) (a : Addr) (f : Nat → Byte) (n : Nat) :
    s.writeBytes a ((List.range n).map f) =
      (List.range n).foldl (fun t k => t.writeByte (a + BitVec.ofNat 12 k) (f k)) s := by
  induction n generalizing s a f with
  | zero => rfl
  | succ n ih =>
    have hoffset : ∀ k, a + 1#12 + BitVec.ofNat 12 k = a + BitVec.ofNat 12 (k + 1) := by
      intro k
      rw [BitVec.add_assoc, BitVec.ofNat_add, BitVec.add_comm 1#12]
    rw [List.range_succ_eq_map, List.map_cons, List.map_map, State.writeBytes, ih]
    simp [List.foldl_map, hoffset]

/-- Settles O18: the bytes of `v` are listed by their offset, and storing such a list is the loop over the
offsets. -/
theorem memWriteStoresBytesAscending : Obligations.MemWriteStoresBytesAscending := by
  intro s a n v _
  rw [State.memWrite, natToBytes_eq_map_range, writeBytes_map_range]
  simp only [addr_add_ofNat]

end Sys2Proof.Spec
end

-- ==== proofs: jumps and skips ====
section
/-! PROOFS. The return from a call, the jumps and the skips (40_control_flow.md): where PC goes, the frame being
that of the writes each of them makes. -/

namespace Sys2Proof.Spec

open Sys2Proof.Machine

/-! ### CALL, then RET -/

/-- A part that is listed but reads the same in the end need not be listed. -/
theorem SameExcept.of_same {p : Part} {ps : List Part} {s t : State} (h : SameExcept (p :: ps) s t)
    (hp : Part.Same s t p) : SameExcept ps s t := by
  intro q hq
  by_cases hqp : q = p
  · exact hqp ▸ hp
  · exact h q (by simp [hqp, hq])

/-- Settles O25: `CALL` leaves the return address on top of the old stack, so `RET` takes the branch of a stack
with a top; both change only PC and the stack, and the stack is the old one again. -/
theorem retUndoesCall : Obligations.RetUndoesCall := by
  intro nnn s hroom
  rw [exec_call, execCall_room nnn s hroom, completes_next, exec_ret, execRet_append _ s.stack (s.pc + 2) rfl,
    completes_next]
  refine ⟨rfl, SameExcept.of_same (p := .stack) ?_ rfl⟩
  exact ((sameExcept_advance_setStack_setPC s (s.stack ++ [s.pc + 2]) nnn).trans
    (sameExcept_advance_setStack_setPC _ s.stack (s.pc + 2))).mono (by simp)

/-! ### Jumps -/

theorem exec_jp (nnn : Addr) (s : State) : exec (.jp nnn) s = .next (s.setPC nnn) := rfl

theorem exec_jpV0 (nnn : Addr) (s : State) :
    exec (.jpV0 nnn) s = .next (s.setPC (nnn + zext12 (s.getV (s.jumpRegister nnn)))) := rfl

/-- A byte is added to an address without a sign, and modulo 4096 (00_scope.md R9). -/
theorem toNat_add_zext12 (a : Addr) (b : Byte) : (a + zext12 b).toNat = (a.toNat + b.toNat) % 4096 := by
  simp [zext12]

/-- Settles O21: a jump is a single write of PC, and the sum of `JP V0, nnn` wraps. -/
theorem jumpsSetPcOnly : Obligations.JumpsSetPcOnly := by
  intro nnn s
  rw [exec_jp, exec_jpV0, completes_next, completes_next]
  exact ⟨⟨rfl, sameExcept_setPC s nnn⟩, toNat_add_zext12 nnn _, sameExcept_setPC s _⟩

/-! ### Skips -/

theorem exec_seImm (x : Nibble) (nn : Byte) (s : State) :
    exec (.seImm x nn) s = .next (s.advance.skipIf (s.getV x == nn)) := rfl

theorem exec_sneImm (x : Nibble) (nn : Byte) (s : State) :
    exec (.sneImm x nn) s = .next (s.advance.skipIf (s.getV x != nn)) := rfl

theorem exec_seReg (x y : Nibble) (s : State) :
    exec (.seReg x y) s = .next (s.advance.skipIf (s.getV x == s.getV y)) := rfl

theorem exec_sneReg (x y : Nibble) (s : State) :
    exec (.sneReg x y) s = .next (s.advance.skipIf (s.getV x != s.getV y)) := rfl

/-- What every skip does (R10, R36), `c` being the test it makes and `P` the comparison that the test decides. -/
theorem completes_skipIf (s : State) {c : Bool} {P : Prop} [Decidable P] (hc : c = true ↔ P) :
    Completes (.next (s.advance.skipIf c))
      (fun t => t.pc = s.pc + (if P then 4 else 2) ∧ SameExcept [.pc] s t) := by
  rw [completes_next, State.advance_skipIf]
  exact ⟨by simp [hc], sameExcept_setPC s _⟩

/-- Settles O22: each of the four is a skip, on a test that decides its comparison. -/
theorem skipsPassOneWord : Obligations.SkipsPassOneWord := by
  intro x y nn s
  rw [exec_seImm, exec_sneImm, exec_seReg, exec_sneReg]
  exact ⟨completes_skipIf s beq_iff_eq, completes_skipIf s bne_iff_ne, completes_skipIf s beq_iff_eq,
    completes_skipIf s bne_iff_ne⟩

end Sys2Proof.Spec
end

-- ==== proofs: register loads and arithmetic ====
section
/-! PROOFS. The meanings of 41_alu.md. Each of them writes a plain result, or a result and then a flag: what the two
kinds of write leave in the registers and outside them is said once, and the rest is arithmetic on bytes. -/

namespace Sys2Proof.Spec

open Sys2Proof.Machine

/-! ### The two kinds of write -/

theorem sameExcept_setV (s : State) (x : Nibble) (b : Byte) : SameExcept [.v] s (s.setV x b) := by
  intro p hp
  cases p <;> simp_all [Part.Same]

theorem sameExcept_result (s : State) (x : Nibble) (b : Byte) : SameExcept [.v, .pc] s (s.result x b) :=
  ((sameExcept_advance s).trans (sameExcept_setV _ x b)).mono (by simp)

theorem sameExcept_resultFlag (s : State) (x : Nibble) (b f : Byte) :
    SameExcept [.v, .pc] s (s.resultFlag x b f) :=
  ((sameExcept_result s x b).trans (sameExcept_setV _ 0xF f)).mono (by simp)

theorem getV_result_self (s : State) (x : Nibble) (b : Byte) : (s.result x b).getV x = b := by
  rw [State.getV_result, if_pos rfl]

theorem getV_result_of_ne (s : State) {x r : Nibble} (b : Byte) (hr : r ≠ x) :
    (s.result x b).getV r = s.getV r := by
  rw [State.getV_result, if_neg hr]

theorem getV_resultFlag_vf (s : State) (x : Nibble) (b f : Byte) : (s.resultFlag x b f).getV 0xF = f := by
  rw [State.getV_resultFlag, if_pos rfl]

theorem getV_resultFlag_self (s : State) {x : Nibble} (b f : Byte) (hx : x ≠ 0xF) :
    (s.resultFlag x b f).getV x = b := by
  rw [State.getV_resultFlag, if_neg hx, if_pos rfl]

/-- What a plain result leaves alone. -/
theorem result_frame (s : State) (x : Nibble) (b : Byte) :
    (∀ r, r ≠ x → (s.result x b).getV r = s.getV r) ∧ (s.result x b).pc = s.pc + 2 ∧
      SameExcept [.v, .pc] s (s.result x b) :=
  ⟨fun _ => getV_result_of_ne s b, rfl, sameExcept_result s x b⟩

/-- What a result with a flag leaves alone. -/
theorem resultFlag_frame (s : State) (x : Nibble) (b f : Byte) :
    (∀ r, r ≠ x → r ≠ 0xF → (s.resultFlag x b f).getV r = s.getV r) ∧ (s.resultFlag x b f).pc = s.pc + 2 ∧
      SameExcept [.v, .pc] s (s.resultFlag x b f) := by
  refine ⟨fun r hx hF => ?_, rfl, sameExcept_resultFlag s x b f⟩
  rw [State.getV_resultFlag, if_neg hF, if_neg hx]

/-! ### The instructions as writes -/

theorem exec_ldImm (x : Nibble) (nn : Byte) (s : State) : exec (.ldImm x nn) s = .next (s.result x nn) := rfl

theorem exec_addImm (x : Nibble) (nn : Byte) (s : State) :
    exec (.addImm x nn) s = .next (s.result x (s.getV x + nn)) := rfl

theorem exec_ldReg (x y : Nibble) (s : State) : exec (.ldReg x y) s = .next (s.result x (s.getV y)) := rfl

theorem exec_or (x y : Nibble) (s : State) :
    exec (.or x y) s = .next (s.result x (s.getV x ||| s.getV y)) := rfl

theorem exec_and (x y : Nibble) (s : State) :
    exec (.and x y) s = .next (s.result x (s.getV x &&& s.getV y)) := rfl

theorem exec_xor (x y : Nibble) (s : State) :
    exec (.xor x y) s = .next (s.result x (s.getV x ^^^ s.getV y)) := rfl

theorem exec_rnd (x : Nibble) (nn : Byte) (s : State) :
    exec (.rnd x nn) s = .next (s.result x (s.inp.rnd &&& nn)) := rfl

theorem exec_addReg (x y : Nibble) (s : State) : exec (.addReg x y) s =
    .next (s.resultFlag x (s.getV x + s.getV y) (carryFlag (s.getV x) (s.getV y))) := rfl

theorem exec_sub (x y : Nibble) (s : State) : exec (.sub x y) s =
    .next (s.resultFlag x (s.getV x - s.getV y) (noBorrowFlag (s.getV x) (s.getV y))) := rfl

theorem exec_subn (x y : Nibble) (s : State) : exec (.subn x y) s =
    .next (s.resultFlag x (s.getV y - s.getV x) (noBorrowFlag (s.getV y) (s.getV x))) := rfl

/-- The source of a shift is one register, chosen by `Q_SHIFT` (90_conflicts.md C1). -/
theorem shiftSource_eq (s : State) (x y : Nibble) :
    s.shiftSource x y = s.getV (if s.quirks.shift then x else y) := by
  rw [State.shiftSource, apply_ite s.getV]

theorem exec_shr (x y : Nibble) (s : State) : exec (.shr x y) s =
    .next (s.resultFlag x (s.getV (if s.quirks.shift then x else y) >>> 1)
      (shiftOutLow (s.getV (if s.quirks.shift then x else y)))) := by
  rw [← shiftSource_eq]
  rfl

theorem exec_shl (x y : Nibble) (s : State) : exec (.shl x y) s =
    .next (s.resultFlag x (s.getV (if s.quirks.shift then x else y) <<< 1)
      (shiftOutHigh (s.getV (if s.quirks.shift then x else y)))) := by
  rw [← shiftSource_eq]
  rfl

theorem exec_drw (x y n : Nibble) (s : State) : exec (.drw x y n) s =
    .next ((s.advance.setPlanes (s.draw x y n).planes).setVF (collisionFlag (s.draw x y n).coll)) := rfl

/-! ### Results and flags as numbers -/

theorem carryFlag_eq (a b : Byte) : carryFlag a b = if a.toNat + b.toNat > 255 then 1 else 0 := by
  simp [carryFlag, flagByte]

theorem noBorrowFlag_eq (a b : Byte) : noBorrowFlag a b = if a.toNat ≥ b.toNat then 1 else 0 := by
  simp [noBorrowFlag, flagByte]

/-- A difference of bytes is the difference of integers modulo 256. -/
theorem toNat_byte_sub (a b : Byte) : ((a - b).toNat : Int) = (a.toNat - b.toNat) % 256 := by
  have hb := b.isLt
  rw [BitVec.toNat_sub]
  omega

/-- A flag that is a bit of a byte has that bit's value. -/
theorem toNat_flagByte_getLsbD (b : Byte) (k : Nat) : (flagByte (b.getLsbD k)).toNat = b.toNat / 2 ^ k % 2 := by
  have hflag : ∀ c : Bool, (flagByte c).toNat = c.toNat := by decide
  rw [hflag, BitVec.getLsbD, Nat.toNat_testBit]

theorem toNat_shiftOutLow (b : Byte) : (shiftOutLow b).toNat = b.toNat % 2 := by
  rw [shiftOutLow, toNat_flagByte_getLsbD, pow_zero, Nat.div_one]

theorem toNat_shiftOutHigh (b : Byte) : (shiftOutHigh b).toNat = b.toNat / 128 := by
  have hb := b.isLt
  rw [shiftOutHigh, toNat_flagByte_getLsbD]
  omega

theorem toNat_byte_half (b : Byte) : (b >>> 1).toNat = b.toNat / 2 := by
  rw [BitVec.toNat_ushiftRight, Nat.shiftRight_eq_div_pow, pow_one]

theorem toNat_byte_double (b : Byte) : (b <<< 1).toNat = b.toNat * 2 % 256 := by
  rw [BitVec.toNat_shiftLeft, Nat.shiftLeft_eq, pow_one]

/-! ### The arithmetic laws -/

/-- Both subtractions, `SUB` with `a` and `b` from Vx and Vy, `SUBN` the other way round. -/
theorem completes_difference (s : State) (x : Nibble) (a b : Byte) :
    Completes (.next (s.resultFlag x (a - b) (noBorrowFlag a b))) (fun t =>
      t.getV 0xF = (if a.toNat ≥ b.toNat then 1 else 0) ∧
      (x ≠ 0xF → ((t.getV x).toNat : Int) = (a.toNat - b.toNat) % 256) ∧
      (∀ r, r ≠ x → r ≠ 0xF → t.getV r = s.getV r) ∧ t.pc = s.pc + 2 ∧ SameExcept [.v, .pc] s t) := by
  rw [completes_next, getV_resultFlag_vf, noBorrowFlag_eq]
  refine ⟨rfl, fun hx => ?_, resultFlag_frame s x _ _⟩
  rw [getV_resultFlag_self s _ _ hx, toNat_byte_sub]

/-- Both shifts: the number `f` that the flag is, and the number `n` that the result is. -/
theorem completes_shift (s : State) (x : Nibble) {b flag : Byte} {n f : Nat} (hb : b.toNat = n)
    (hflag : flag.toNat = f) :
    Completes (.next (s.resultFlag x b flag)) (fun t =>
      (t.getV 0xF).toNat = f ∧ (x ≠ 0xF → (t.getV x).toNat = n) ∧
      (∀ r, r ≠ x → r ≠ 0xF → t.getV r = s.getV r) ∧ t.pc = s.pc + 2 ∧ SameExcept [.v, .pc] s t) := by
  rw [completes_next, getV_resultFlag_vf]
  refine ⟨hflag, fun hx => ?_, resultFlag_frame s x b flag⟩
  rw [getV_resultFlag_self s _ _ hx, hb]

/-- Settles O29: each instruction is a single write of a result, with or without a flag, so that its law is the
law of the result and the flag as numbers. -/
theorem arithmeticLaws : Obligations.ArithmeticLaws := by
  intro x y nn s
  rw [exec_addReg, exec_sub, exec_subn, exec_addImm, exec_shr, exec_shl]
  refine ⟨?sum, completes_difference s x _ _, completes_difference s x _ _, ?sumImm,
    completes_shift s x (toNat_byte_half _) (toNat_shiftOutLow _),
    completes_shift s x (toNat_byte_double _) (toNat_shiftOutHigh _)⟩
  case sum =>
    rw [completes_next, getV_resultFlag_vf, carryFlag_eq]
    refine ⟨rfl, fun hx => ?_⟩
    rw [getV_resultFlag_self s _ _ hx, BitVec.toNat_add]
  case sumImm =>
    rw [completes_next, getV_result_self]
    exact ⟨BitVec.toNat_add _ _, fun hx => getV_result_of_ne s _ hx.symm⟩

/-! ### Flags are 0 or 1 -/

/-- A state that a flag was written to last has 0 or 1 in VF. -/
theorem vf_zero_or_one_of_setVF {u t : State} {c : Bool}
    (h : (.next (u.setVF (flagByte c)) : Result) = .next t) : t.getV 0xF = 0 ∨ t.getV 0xF = 1 := by
  obtain rfl : u.setVF (flagByte c) = t := Host.Outcome.next.inj h
  rw [State.setVF, State.getV_setV_self]
  exact flagByte_eq c

/-- Settles O30: the last write of each of the six is one of VF, of a flag. -/
theorem flagWritesAreZeroOrOne : Obligations.FlagWritesAreZeroOrOne := by
  intro i s t hexec hwrites
  cases i with
  | addReg x y => exact vf_zero_or_one_of_setVF (exec_addReg x y s ▸ hexec)
  | sub x y => exact vf_zero_or_one_of_setVF (exec_sub x y s ▸ hexec)
  | subn x y => exact vf_zero_or_one_of_setVF (exec_subn x y s ▸ hexec)
  | shr x y => exact vf_zero_or_one_of_setVF (exec_shr x y s ▸ hexec)
  | shl x y => exact vf_zero_or_one_of_setVF (exec_shl x y s ▸ hexec)
  | drw x y n => exact vf_zero_or_one_of_setVF (exec_drw x y n s ▸ hexec)
  | _ => exact False.elim hwrites

/-! ### Plain results -/

/-- Settles O27: each of the six writes a plain result, read back from Vx. -/
theorem plainResultsLeaveVfAlone : Obligations.PlainResultsLeaveVfAlone := by
  intro x y nn s
  rw [exec_ldReg, exec_addImm, exec_or, exec_and, exec_xor, exec_rnd]
  simp only [completes_next, getV_result_self, true_and]
  exact ⟨result_frame s x _, ⟨BitVec.toNat_add _ _, result_frame s x _⟩,
    ⟨fun _ _ => BitVec.getLsbD_or, result_frame s x _⟩, ⟨fun _ _ => BitVec.getLsbD_and, result_frame s x _⟩,
    ⟨fun _ _ => BitVec.getLsbD_xor, result_frame s x _⟩, ⟨fun _ _ => BitVec.getLsbD_and, result_frame s x _⟩⟩

/-! ### The words of two instructions -/

/-- A word of a row with mask 0xF000 has the row's group. -/
theorem groupField_of_and_F000 {w bits : Word16} (h : w &&& 0xF000 = bits) : groupField w = groupField bits := by
  rw [← h, and_F000, groupField_NNN]

/-- A word of a row with mask 0xF00F has the row's group and low nibble. -/
theorem fields_of_and_F00F {w bits : Word16} (h : w &&& 0xF00F = bits) :
    groupField w = groupField bits ∧ nField w = nField bits := by
  rw [← h, and_F00F, groupField_XYN, nField_XYN]
  exact ⟨rfl, rfl⟩

theorem decodeWord_6xnn {w : Word16} (h : w &&& 0xF000 = 0x6000) :
    decodeWord w = .ok (.ldImm (xField w) (nnField w)) := by
  rw [decodeWord, groupField_of_and_F000 h]
  rfl

theorem decodeWord_8xy4 {w : Word16} (h : w &&& 0xF00F = 0x8004) :
    decodeWord w = .ok (.addReg (xField w) (yField w)) := by
  obtain ⟨hgroup, hn⟩ := fields_of_and_F00F h
  have hgroup8 : decodeWord w = decodeGroup8 w := by
    rw [decodeWord, hgroup]
    rfl
  rw [hgroup8, decodeGroup8, hn]
  rfl

/-- Settles O26: the group selects the instruction, which writes nn as a plain result. -/
theorem loadImmediateSetsVx : Obligations.LoadImmediateSetsVx := by
  refine ⟨fun w hw => decodeWord_6xnn hw, fun x nn s => ?_⟩
  rw [exec_ldImm, completes_next]
  exact ⟨State.getV_result s x nn, rfl, sameExcept_result s x nn⟩

/-- Settles O28: the group and the low nibble select the instruction, which writes the sum and then the carry. -/
theorem addRegisterSetsCarry : Obligations.AddRegisterSetsCarry := by
  refine ⟨fun w hw => decodeWord_8xy4 hw, fun x y s => ?_⟩
  have hsum : s.getV x + s.getV y = BitVec.ofNat 8 (((s.getV x).toNat + (s.getV y).toNat) % 256) := by
    apply BitVec.eq_of_toNat_eq
    simp
  rw [exec_addReg, completes_next, ← hsum, ← carryFlag_eq]
  exact ⟨State.getV_resultFlag s x _ _, rfl, sameExcept_resultFlag s x _ _⟩

end Sys2Proof.Spec
end

-- ==== proofs: index register and memory windows ====
section
/-! PROOFS. The meanings of 42_index_memory.md. Each of them is a fetch advance and then one or two of three writes:
I, a window of memory, a run of registers. The frame of each write and what a window holds afterwards are said once. -/

namespace Sys2Proof.Spec

open Sys2Proof.Machine

/-! ### The frames of the three writes -/

theorem sameExcept_setI (s : State) (a : Addr) : SameExcept [.i] s (s.setI a) := by
  intro p hp
  cases p <;> simp_all [Part.Same]

theorem sameExcept_writeBytes (s : State) (a : Addr) (bs : List Byte) :
    SameExcept [.mem] s (s.writeBytes a bs) := by
  intro p hp
  cases p <;> simp_all [Part.Same]

theorem sameExcept_setRegs (s : State) (k : Nat) (bs : List Byte) : SameExcept [.v] s (s.setRegs k bs) := by
  intro p hp
  cases p <;> simp_all [Part.Same]

/-! ### The instructions as writes -/

theorem exec_ldI (nnn : Addr) (s : State) : exec (.ldI nnn) s = .next (s.advance.setI nnn) := rfl

theorem exec_addI (x : Nibble) (s : State) :
    exec (.addI x) s = .next (s.advance.setI (s.i + zext12 (s.getV x))) := rfl

theorem exec_ldF (x : Nibble) (s : State) :
    exec (.ldF x) s = .next (s.advance.setI (smallGlyphAddr (s.getV x))) := rfl

theorem exec_ldHF (x : Nibble) (s : State) :
    exec (.ldHF x) s = .next (s.advance.setI (largeGlyphAddr (s.getV x))) := rfl

theorem exec_ldB (x : Nibble) (s : State) :
    exec (.ldB x) s = .next (s.advance.writeBytes s.i (bcdDigits (s.getV x))) := rfl

theorem exec_store (x : Nibble) (s : State) : exec (.store x) s =
    .next ((s.advance.writeBytes s.i (s.regBytes (x.toNat + 1))).setI (s.indexAfter x)) := rfl

theorem exec_load (x : Nibble) (s : State) : exec (.load x) s =
    .next ((s.advance.setRegs 0 (s.readBytes s.i (x.toNat + 1))).setI (s.indexAfter x)) := rfl

/-! ### Writers of I alone -/

/-- No glyph address wraps: the last one is 255 * 5. -/
theorem toNat_smallGlyphAddr (v : Byte) : (smallGlyphAddr v).toNat = v.toNat * 5 := by
  have hv := v.isLt
  rw [smallGlyphAddr, BitVec.toNat_ofNat]
  omega

/-- No glyph address wraps: the last one is 0x050 + 255 * 10. -/
theorem toNat_largeGlyphAddr (v : Byte) : (largeGlyphAddr v).toNat = 0x050 + v.toNat * 10 := by
  have hv := v.isLt
  rw [largeGlyphAddr, BitVec.toNat_ofNat]
  omega

theorem sameExcept_advance_setI (s : State) (a : Addr) : SameExcept [.i, .pc] s (s.advance.setI a) :=
  ((sameExcept_advance s).trans (sameExcept_setI _ a)).mono (by simp)

/-- What each of them does, `n` being the number that the new I is. -/
theorem completes_advance_setI (s : State) {a : Addr} {n : Nat} (ha : a.toNat = n) :
    Completes (.next (s.advance.setI a))
      (fun t => t.i.toNat = n ∧ t.pc = s.pc + 2 ∧ SameExcept [.i, .pc] s t) := by
  rw [completes_next]
  exact ⟨ha, rfl, sameExcept_advance_setI s a⟩

/-- Settles O31: each of the four is a single write of I after the fetch advance, of an address whose number is the
one stated. -/
theorem indexLoadsSetI : Obligations.IndexLoadsSetI := by
  intro nnn x s
  rw [exec_ldI, exec_addI, exec_ldF, exec_ldHF]
  refine ⟨?_, completes_advance_setI s (toNat_add_zext12 s.i _),
    completes_advance_setI s (toNat_smallGlyphAddr _), completes_advance_setI s (toNat_largeGlyphAddr _)⟩
  rw [completes_next]
  exact ⟨rfl, rfl, sameExcept_advance_setI s nnn⟩

/-! ### A window of memory after it is written -/

/-- The byte at offset `k` of a window that was written (R73): no later byte comes round to its address. -/
theorem readByte_writeBytes_at {s : State} (hs : MemoryCanonical s) (a : Addr) {bs : List Byte}
    (hlen : bs.length ≤ 4096) {k : Nat} {b : Byte} (hb : bs[k]? = some b) :
    (s.writeBytes a bs).readByte (a + BitVec.ofNat 12 k) = b := by
  obtain ⟨hk, -⟩ := List.getElem?_eq_some_iff.1 hb
  have hoffset : (a + BitVec.ofNat 12 k - a).toNat = k := by
    rw [BitVec.add_comm, BitVec.add_sub_cancel, BitVec.toNat_ofNat]
    omega
  rw [s.readByte_writeBytes a bs _ hs hlen, hoffset, hb, Option.getD_some]

/-- A byte at no offset of the window stays. -/
theorem readByte_writeBytes_outside {s : State} (hs : MemoryCanonical s) (a : Addr) {bs : List Byte}
    (hlen : bs.length ≤ 4096) {c : Addr} (hc : ∀ k, k < bs.length → c ≠ a + BitVec.ofNat 12 k) :
    (s.writeBytes a bs).readByte c = s.readByte c := by
  have hoffset : c = a + BitVec.ofNat 12 (c - a).toNat := by
    rw [BitVec.ofNat_toNat, BitVec.setWidth_eq, BitVec.add_comm, BitVec.sub_add_cancel]
  have hpast : bs.length ≤ (c - a).toNat := by
    by_contra hlt
    exact hc _ (Nat.lt_of_not_le hlt) hoffset
  rw [s.readByte_writeBytes a bs c hs hlen, List.getElem?_eq_none hpast, Option.getD_none]

/-! ### The words of the store and the load -/

/-- A word of a row with mask 0xF0FF has the row's group and low byte. -/
theorem fields_of_and_F0FF {w bits : Word16} (h : w &&& 0xF0FF = bits) :
    groupField w = groupField bits ∧ nnField w = nnField bits := by
  rw [← h, and_F0FF, groupField_XNN, nnField_XNN]
  exact ⟨rfl, rfl⟩

theorem decodeWord_groupF {w : Word16} (hgroup : groupField w = 0xF) : decodeWord w = decodeGroupF w := by
  rw [decodeWord, hgroup]
  rfl

theorem decodeWord_Fx55 {w : Word16} (h : w &&& 0xF0FF = 0xF055) : decodeWord w = .ok (.store (xField w)) := by
  obtain ⟨hgroup, hnn⟩ := fields_of_and_F0FF h
  rw [decodeWord_groupF hgroup, decodeGroupF, hnn]
  rfl

theorem decodeWord_Fx65 {w : Word16} (h : w &&& 0xF0FF = 0xF065) : decodeWord w = .ok (.load (xField w)) := by
  obtain ⟨hgroup, hnn⟩ := fields_of_and_F0FF h
  rw [decodeWord_groupF hgroup, decodeGroupF, hnn]
  rfl

/-! ### LD [I], Vx -/

/-- V0..Vx are at most 16 bytes, so that the window does not overlap itself. -/
theorem regBytes_length_le (s : State) (x : Nibble) : (s.regBytes (x.toNat + 1)).length ≤ 4096 := by
  have hx := x.isLt
  rw [State.regBytes_length]
  omega

/-- What `LD [I], Vx` leaves in the window at I. -/
theorem readByte_store_window {s : State} (hs : MemoryCanonical s) {x : Nibble} {k : Nat} (hk : k ≤ x.toNat) :
    (s.advance.writeBytes s.i (s.regBytes (x.toNat + 1))).readByte (s.i + BitVec.ofNat 12 k) =
      s.getV (BitVec.ofNat 4 k) := by
  refine readByte_writeBytes_at (s := s.advance) hs s.i (regBytes_length_le s x) ?_
  rw [State.regBytes_getElem?, if_pos (Nat.lt_succ_of_le hk)]

/-- Settles O32: the window at I holds the registers and the rest of memory stays; the frame is that of the three
writes. -/
theorem storeWritesV0ToVx : Obligations.StoreWritesV0ToVx := by
  refine ⟨fun w hw => decodeWord_Fx55 hw, fun x s hs => ?_⟩
  rw [exec_store, completes_next]
  refine ⟨fun k hk => readByte_store_window hs hk, fun a ha => ?outside, rfl,
    State.writeBytes_pc s.advance _ _, ?frame⟩
  case outside =>
    refine readByte_writeBytes_outside (s := s.advance) hs s.i (regBytes_length_le s x) fun k hk => ha k ?_
    rwa [State.regBytes_length, Nat.lt_succ_iff] at hk
  case frame =>
    exact (((sameExcept_advance s).trans (sameExcept_writeBytes _ s.i _)).trans
      (sameExcept_setI _ _)).mono (by simp)

/-- Settles O19: the fetch reads the first two bytes of the window, which are V0 and V1. -/
theorem storeIsSeenByTheNextFetch : Obligations.StoreIsSeenByTheNextFetch := by
  intro s x hs hx hi
  have hx1 : 1 ≤ x.toNat := by bv_omega
  have hV0 := readByte_store_window hs (Nat.zero_le x.toNat)
  have hV1 := readByte_store_window hs hx1
  rw [BitVec.add_zero] at hV0
  rw [exec_store, completes_next, State.fetch]
  simp only [State.setI_pc, State.setI_readByte, State.writeBytes_pc, State.advance_pc, ← hi]
  exact congrArg₂ wordOfBytes hV0 hV1

/-! ### LD Vx, [I] -/

/-- Settles O33: the registers loaded are those of the law of the load; the frame is that of the three writes. -/
theorem loadReadsV0ToVx : Obligations.LoadReadsV0ToVx := by
  refine ⟨fun w hw => decodeWord_Fx65 hw, fun x s => ?_⟩
  rw [exec_load, completes_next]
  exact ⟨State.getV_loaded s x, rfl, State.setRegs_pc s.advance _ _,
    (((sameExcept_advance s).trans (sameExcept_setRegs _ 0 _)).trans (sameExcept_setI _ _)).mono (by simp)⟩

/-- States with the same parameters and the same memory list read the same bytes. -/
theorem readByte_eq_of_mem_eq {s t : State} (hcfg : t.cfg = s.cfg) (hmem : t.mem = s.mem) (a : Addr) :
    t.readByte a = s.readByte a := by
  rw [State.readByte, State.readByte, hcfg, hmem]

/-- Settles O34: register r is loaded from the address that it was stored to. -/
theorem loadUndoesStore : Obligations.LoadUndoesStore := by
  intro x s u hs hcfg hi
  rw [exec_store, completes_next]
  intro hmem
  rw [exec_load, completes_next]
  intro r hr
  rw [State.setI_getV, State.getV_loaded, if_pos hr, hi]
  have hregister : BitVec.ofNat 4 r.toNat = r := by rw [BitVec.ofNat_toNat, BitVec.setWidth_eq]
  have hstored := readByte_store_window hs hr
  rw [hregister] at hstored
  exact (readByte_eq_of_mem_eq (by simp [hcfg]) hmem _).trans hstored

/-! ### LD B, Vx -/

/-- The three digits that `bcdDigits` lists are decimal, and make the byte. -/
theorem decimal_digits (v : Byte) : v.toNat / 100 ≤ 2 ∧ v.toNat / 10 % 10 ≤ 9 ∧ v.toNat % 10 ≤ 9 ∧
    v.toNat = 100 * (v.toNat / 100) + 10 * (v.toNat / 10 % 10) + v.toNat % 10 := by
  have hv := v.isLt
  omega

/-- Settles O35: the window of three bytes at I holds the digits and the rest of memory stays. -/
theorem bcdStoresThreeDigits : Obligations.BcdStoresThreeDigits := by
  intro x s hs
  have hlen : (bcdDigits (s.getV x)).length ≤ 4096 := by simp [bcdDigits]
  have hdigit := fun k b => readByte_writeBytes_at (s := s.advance) hs s.i hlen (k := k) (b := b)
  obtain ⟨hh, hd, ho, hsum⟩ := decimal_digits (s.getV x)
  have hhundreds := hdigit 0 _ rfl
  rw [BitVec.add_zero] at hhundreds
  rw [exec_ldB, completes_next]
  refine ⟨⟨_, _, _, hh, hd, ho, hsum, hhundreds, hdigit 1 _ rfl, hdigit 2 _ rfl⟩, fun a h0 h1 h2 => ?outside,
    State.writeBytes_pc s.advance _ _, ?frame⟩
  case outside =>
    refine readByte_writeBytes_outside (s := s.advance) hs s.i hlen fun k hk => ?_
    change k < 3 at hk
    interval_cases k
    · rwa [BitVec.add_zero]
    · exact h1
    · exact h2
  case frame => exact ((sameExcept_advance s).trans (sameExcept_writeBytes _ s.i _)).mono (by simp)

end Sys2Proof.Spec
end

-- ==== proofs: timers and keys ====
section
/-! PROOFS. The meanings of 43_timers_keys.md: the moves between a timer and a register, and the three uses of the
key latch. What the latch answers, to the key test and to the key wait, is said before the instructions that ask. -/

namespace Sys2Proof.Spec

open Sys2Proof.Machine

/-! ### The instructions as writes -/

theorem exec_ldVxDT (x : Nibble) (s : State) : exec (.ldVxDT x) s = .next (s.result x s.dt) := rfl

theorem exec_ldDTVx (x : Nibble) (s : State) : exec (.ldDTVx x) s = .next (s.advance.setDT (s.getV x)) := rfl

theorem exec_ldSTVx (x : Nibble) (s : State) : exec (.ldSTVx x) s = .next (s.advance.setST (s.getV x)) := rfl

theorem exec_skp (x : Nibble) (s : State) :
    exec (.skp x) s = .next (s.advance.skipIf (keyDown s.inp.keys (s.getV x))) := rfl

theorem exec_sknp (x : Nibble) (s : State) :
    exec (.sknp x) s = .next (s.advance.skipIf (!keyDown s.inp.keys (s.getV x))) := rfl

/-- The wait of R236 takes the fetch advance back, so that nothing at all has changed. -/
theorem exec_ldVxK_no_key (x : Nibble) {s : State} (hkeys : s.inp.keys = 0) : exec (.ldVxK x) s = .next s := by
  have hback : s.advance.setPC (s.advance.pc - 2) = s := by
    rw [State.advance_pc, BitVec.add_sub_cancel]
    rfl
  rw [exec, execLdVxK, if_pos hkeys, hback]

theorem exec_ldVxK_key (x : Nibble) {s : State} (hkeys : s.inp.keys ≠ 0) :
    exec (.ldVxK x) s = .next (s.result x (lowestKey s.inp.keys)) := by
  rw [exec, execLdVxK, if_neg hkeys, State.result]

/-! ### Timer moves -/

theorem sameExcept_setDT (s : State) (b : Byte) : SameExcept [.dt] s (s.setDT b) := by
  intro p hp
  cases p <;> simp_all [Part.Same]

theorem sameExcept_setST (s : State) (b : Byte) : SameExcept [.st] s (s.setST b) := by
  intro p hp
  cases p <;> simp_all [Part.Same]

/-- Settles O36: each of the three is a single write after the fetch advance. -/
theorem timerMoves : Obligations.TimerMoves := by
  intro x s
  rw [exec_ldVxDT, exec_ldDTVx, exec_ldSTVx, completes_next, completes_next, completes_next]
  exact ⟨⟨State.getV_result s x s.dt, rfl, sameExcept_result s x s.dt⟩,
    ⟨rfl, rfl, ((sameExcept_advance s).trans (sameExcept_setDT _ _)).mono (by simp)⟩,
    ⟨rfl, rfl, ((sameExcept_advance s).trans (sameExcept_setST _ _)).mono (by simp)⟩⟩

/-! ### Key skips -/

/-- The model's key test decides the key-latch bit of R230. -/
theorem keyDown_iff (s : State) (v : Byte) : keyDown s.inp.keys v = true ↔ KeyIsDown s v := by
  rw [keyDown, Bool.and_eq_true, decide_eq_true_iff]

/-- Settles O37: both are skips, `SKP` on the key test and `SKNP` on its negation. -/
theorem keySkipsTestTheLatch : Obligations.KeySkipsTestTheLatch := by
  intro x s
  have hdown := keyDown_iff s (s.getV x)
  have hup : (!keyDown s.inp.keys (s.getV x)) = true ↔ ¬ KeyIsDown s (s.getV x) := by
    rw [Bool.not_eq_true', ← Bool.not_eq_true, hdown]
  have hsknp := completes_skipIf s hup
  rw [exec_skp, exec_sknp]
  exact ⟨completes_skipIf s hdown, by simpa only [ite_not] using hsknp⟩

/-! ### Key wait -/

/-- With some key down, the search of R236 finds one, and the first that it finds is the lowest (D15). -/
theorem lowestKey_of_ne_zero {keys : BitVec 16} (hkeys : keys ≠ 0) :
    ∃ k, k < 16 ∧ keys.getLsbD k = true ∧ (∀ j, j < k → keys.getLsbD j = false) ∧
      lowestKey keys = BitVec.ofNat 8 k := by
  cases hfind : (List.range 16).find? fun k => keys.getLsbD k with
  | none =>
    refine absurd (BitVec.eq_of_getLsbD_eq fun k hk => ?_) hkeys
    rw [List.find?_range_eq_none] at hfind
    simpa using hfind k hk
  | some k =>
    obtain ⟨hdown, hk, hlower⟩ := List.find?_range_eq_some.1 hfind
    refine ⟨k, List.mem_range.1 hk, hdown, fun j hj => by simpa using hlower j hj, ?_⟩
    rw [lowestKey, hfind, Option.getD_some]

/-- Settles O38: with no key down the step is the identity; else it is a plain result, the lowest key down. -/
theorem keyWaitTakesLowestKey : Obligations.KeyWaitTakesLowestKey := by
  refine fun x s => ⟨exec_ldVxK_no_key x, fun hkeys => ?_⟩
  obtain ⟨k, hk, hdown, hlower, hlowest⟩ := lowestKey_of_ne_zero hkeys
  rw [exec_ldVxK_key x hkeys, completes_next, hlowest]
  exact ⟨k, hk, hdown, hlower, State.getV_result s x _, rfl, sameExcept_result s x _⟩

end Sys2Proof.Spec
end

-- ==== proofs: the planes ====
section
/-! PROOFS. The meanings of 44_display.md that work on whole planes: clear, plane select, resolution switch and
scroll. What a primitive leaves at each pixel of each plane is said once, for all planes at a time. -/

namespace Sys2Proof.Spec

open Sys2Proof.Machine

/-! ### The frames of the writes -/

theorem sameExcept_setPlanes (s : State) (ps : List Grid) : SameExcept [.planes] s (s.setPlanes ps) := by
  intro p hp
  cases p <;> simp_all [Part.Same]

theorem sameExcept_setActive (s : State) (m : Nibble) : SameExcept [.active] s (s.setActive m) := by
  intro p hp
  cases p <;> simp_all [Part.Same]

theorem sameExcept_setHires (s : State) (h : Bool) : SameExcept [.hires] s (s.setHires h) := by
  intro p hp
  cases p <;> simp_all [Part.Same]

theorem sameExcept_raiseConfigurationError (s : State) : SameExcept [.fatal] s s.raiseConfigurationError := by
  intro p hp
  cases p <;> simp_all [Part.Same]

theorem sameExcept_advance_setPlanes (s : State) (ps : List Grid) :
    SameExcept [.planes, .pc] s (s.advance.setPlanes ps) :=
  ((sameExcept_advance s).trans (sameExcept_setPlanes _ ps)).mono (by simp)

/-! ### The instructions as writes -/

theorem exec_cls (s : State) : exec .cls s = .next s.advance.clear := rfl

theorem exec_plane (m : Nibble) (s : State) : exec (.plane m) s = .next (s.advance.setActivePlanes m) := rfl

theorem exec_low (s : State) : exec .low s = .next (s.switchTo false) := rfl

theorem exec_high (s : State) : exec .high s = .next (s.switchTo true) := rfl

theorem exec_scd (n : Nibble) (s : State) : exec (.scd n) s = .next (s.advance.scroll .down n.toNat) := rfl

theorem exec_scu (n : Nibble) (s : State) : exec (.scu n) s = .next (s.advance.scroll .up n.toNat) := rfl

theorem exec_scr (s : State) : exec .scr s = .next (s.advance.scroll .right 4) := rfl

theorem exec_scl (s : State) : exec .scl s = .next (s.advance.scroll .left 4) := rfl

/-! ### Pixels of mapped and of grown planes -/

/-- A pixel after the active planes are mapped by an `f` that makes no pixel out of a plane that is not there. -/
theorem planePixel_mapActive (m : Nibble) (f : Grid → Grid) (ps : List Grid) (p x y : Nat)
    (hf : Grid.pixel (f []) x y = false) :
    planePixel (mapActive m f 0 ps) p x y =
      if m.getLsbD p then Grid.pixel (f (ps.getD p [])) x y else planePixel ps p x y := by
  rw [planePixel_eq, planePixel_eq, mapActive_getElem?, Nat.zero_add, List.getD]
  cases ps[p]? with
  | none => simp [hf]
  | some g => by_cases hp : m.getLsbD p <;> simp [hp]

/-- A plane that is not there and a blank one read alike (log 10). -/
theorem planePixel_growPlanes (w h n : Nat) (ps : List Grid) (p x y : Nat) :
    planePixel (growPlanes w h n ps) p x y = planePixel ps p x y := by
  by_cases hp : p < ps.length
  · simp [planePixel_eq, growPlanes, List.getElem?_append_left hp]
  · rw [planePixel_eq, planePixel_eq, growPlanes, List.getElem?_append_right (not_lt.1 hp),
      List.getElem?_eq_none (not_lt.1 hp), List.getElem?_replicate]
    split
    · exact blankGrid_pixel w h x y
    · rfl

/-! ### Clear and plane select -/

/-- `Clear()` leaves what the inactive planes hold (R251). -/
theorem planePixel_clear (s : State) (p x y : Nat) :
    planePixel s.clear.planes p x y = (!s.active.getLsbD p && planePixel s.planes p x y) := by
  rw [State.clear, State.setPlanes_planes, planePixel_mapActive _ _ _ _ _ _ (blankGrid_pixel ..), blankGrid_pixel]
  cases s.active.getLsbD p <;> rfl

/-- The picture after `Clear()` is that of the inactive planes (R262). -/
theorem composite_clear_iff (s : State) (x y : Nat) : s.clear.composite x y = true ↔
    ∃ p, s.active.getLsbD p = false ∧ planePixel s.planes p x y = true := by
  rw [State.composite_iff]
  exact exists_congr fun p => by rw [planePixel_clear, Bool.and_eq_true, Bool.not_eq_true']

/-- A plane select changes no pixel: what it adds is blank (R250). -/
theorem planePixel_setActivePlanes (s : State) (m : Nibble) (p x y : Nat) :
    planePixel (s.setActivePlanes m).planes p x y = planePixel s.planes p x y :=
  planePixel_growPlanes _ _ _ s.planes p x y

/-- Settles O39: `CLS` maps the active planes to blank ones, and the composite shows what the inactive ones hold. -/
theorem clearZeroesOnlyActivePlanes : Obligations.ClearZeroesOnlyActivePlanes := by
  intro s
  rw [exec_cls, completes_next]
  refine ⟨mapActive_length _ _ _ _, fun p => ?planes,
    fun p x y hinactive hpixel => (composite_clear_iff s.advance x y).2 ⟨p, hinactive, hpixel⟩, rfl,
    sameExcept_advance_setPlanes s _⟩
  case planes =>
    rw [State.clear, State.setPlanes_planes, mapActive_getElem?, Nat.zero_add]
    rfl

/-- `planesNamed` is no further than the highest plane that the mask names (R250). -/
theorem planesNamed_eq_zero_or_succ (m : Nibble) :
    planesNamed m = 0 ∨ ∃ p, p < 4 ∧ m.getLsbD p = true ∧ p + 1 = planesNamed m := by
  unfold planesNamed
  split_ifs with h3 h2 h1 h0
  · exact .inr ⟨3, by omega, h3, rfl⟩
  · exact .inr ⟨2, by omega, h2, rfl⟩
  · exact .inr ⟨1, by omega, h1, rfl⟩
  · exact .inr ⟨0, by omega, h0, rfl⟩
  · exact .inl rfl

/-- Settles O44: the planes grow to `planesNamed m`, which is one past a plane that the mask names and past no
further one; where there are already as many, none is added. -/
theorem planeSelectGrowsWithBlankPlanes : Obligations.PlaneSelectGrowsWithBlankPlanes := by
  intro m s
  rw [exec_plane, completes_next]
  refine ⟨rfl, ⟨planesNamed m - s.planes.length, rfl, ?growth⟩, fun p hp hnamed => ?named, rfl,
    ((sameExcept_advance_setPlanes s _).trans (sameExcept_setActive _ m)).mono (by simp)⟩
  case growth =>
    rcases planesNamed_eq_zero_or_succ m with hnone | ⟨p, hp, hnamed, hlast⟩
    · exact .inl (by omega)
    · by_cases hgrow : s.planes.length ≤ p
      · exact .inr ⟨p, hp, hnamed, by omega⟩
      · exact .inl (by omega)
  case named =>
    rw [State.setActivePlanes, State.setActive_planes, State.setPlanes_planes, growPlanes_length]
    exact lt_max_of_lt_right (lt_planesNamed m p hp hnamed)

/-- Settles O45: the select changes no pixel and makes the mask the active set, so that the clear leaves what the
unselected planes held before both. -/
theorem unselectedPlanesSurviveClear : Obligations.UnselectedPlanesSurviveClear := by
  intro m s
  rw [exec_plane, completes_next, exec_cls, completes_next]
  have hselect (p x y : Nat) : planePixel (s.advance.setActivePlanes m).advance.planes p x y =
      planePixel s.planes p x y := planePixel_setActivePlanes s.advance m p x y
  have hactive : (s.advance.setActivePlanes m).advance.active = m := rfl
  refine ⟨fun p x y hunselected => ?pixels, fun x y => ?picture⟩
  case pixels => rw [planePixel_clear, hselect, hactive, hunselected, Bool.not_false, Bool.true_and]
  case picture => simp only [composite_clear_iff, hselect, hactive]

/-! ### Resolution switch -/

/-- With the verdict, a switch blanks every plane at the new resolution (R252). -/
theorem completes_switchTo_of_geomOk {s : State} {h : Bool} (hok : s.inp.geomOk h = true) :
    Completes (.next (s.switchTo h)) (fun t => t.hires = h ∧
      t.planes = List.replicate s.planes.length (blankGrid (widthOf h) (heightOf h)) ∧
      t.pc = s.pc + 2 ∧ SameExcept [.hires, .planes, .pc] s t) := by
  rw [completes_next, State.switchTo, if_pos hok]
  exact ⟨rfl, List.map_const' .., rfl, (((sameExcept_advance s).trans (sameExcept_setHires _ h)).trans
    (sameExcept_setPlanes _ _)).mono (by simp)⟩

/-- Without it, the switch is undone (60_exceptions.md R311). -/
theorem completes_switchTo_of_not_geomOk {s : State} {h : Bool} (hno : s.inp.geomOk h = false) :
    Completes (.next (s.switchTo h)) (fun t => t.fatal = true ∧ SameExcept [.fatal] s t) := by
  rw [completes_next, State.switchTo, hno]
  exact ⟨rfl, sameExcept_raiseConfigurationError s⟩

/-- Settles O42: `LOW` and `HIGH` are the switch to their resolution, and each verdict decides its outcome. -/
theorem resolutionSwitchClearsOrIsUndone : Obligations.ResolutionSwitchClearsOrIsUndone := by
  intro s
  rw [exec_low, exec_high]
  exact ⟨completes_switchTo_of_geomOk (h := false), completes_switchTo_of_geomOk (h := true),
    completes_switchTo_of_not_geomOk (h := false), completes_switchTo_of_not_geomOk (h := true)⟩

/-! ### Scrolls -/

/-- A plane that is not there shows nothing when it is shifted. -/
theorem shiftGrid_nil_pixel {w h x y : Nat} (dir : ScrollDir) (amt : Nat) (hx : x < w) (hy : y < h) :
    Grid.pixel (shiftGrid w h dir amt []) x y = false := by
  rw [shiftGrid_pixel w h dir amt [] x y hx hy]
  cases dir <;> simp [Grid.pixel]

/-- What every scroll does (R259, R260), `f` being the pixels of the shifted planes. -/
theorem completes_scroll {s : State} (hs : PlanesSound s) (dir : ScrollDir) (amt : Nat)
    (f : Nat → Nat → Nat → Bool) (hf : ∀ p x y, x < s.width → y < s.height →
      Grid.pixel (shiftGrid s.width s.height dir amt (s.planes.getD p [])) x y = f p x y) :
    Completes (.next (s.advance.scroll dir amt)) (fun t => t.pc = s.pc + 2 ∧
      (s.cfg.scrollMode = .noop → SameExcept [.pc] s t) ∧
      (s.cfg.scrollMode = .shift → SameExcept [.planes, .pc] s t ∧
        t.planes.length = s.planes.length ∧ (∀ g ∈ t.planes, Grid.shaped s.width s.height g) ∧
        ∀ p x y, x < s.width → y < s.height → planePixel t.planes p x y =
          if s.active.getLsbD p then f p x y else planePixel s.planes p x y)) := by
  rw [completes_next, State.scroll, State.advance_cfg]
  cases s.cfg.scrollMode with
  | noop => exact ⟨rfl, fun _ => sameExcept_advance s, nofun⟩
  | shift =>
    refine ⟨rfl, nofun, fun _ => ⟨sameExcept_advance_setPlanes s _, mapActive_length _ _ _ _,
      fun g hg => ?shape, fun p x y hx hy => ?pixel⟩⟩
    case shape =>
      rcases mem_mapActive hg with hold | ⟨k, -, rfl⟩
      · exact hs.1 g hold
      · exact shiftGrid_shaped _ _ _ _ k
    case pixel =>
      rw [← hf p x y hx hy]
      exact planePixel_mapActive _ _ _ _ _ _ (shiftGrid_nil_pixel dir amt hx hy)

/-- Settles O43: each of the four is a scroll, in its direction and by its amount. -/
theorem scrollsShiftActivePlanes : Obligations.ScrollsShiftActivePlanes := by
  intro n s hs
  rw [exec_scd, exec_scu, exec_scr, exec_scl]
  exact ⟨completes_scroll hs .down _ _ fun _ x y hx hy => shiftGrid_pixel _ _ .down _ _ x y hx hy,
    completes_scroll hs .up _ _ fun _ x y hx hy => shiftGrid_pixel _ _ .up _ _ x y hx hy,
    completes_scroll hs .right _ _ fun _ x y hx hy => shiftGrid_pixel _ _ .right _ _ x y hx hy,
    completes_scroll hs .left _ _ fun _ x y hx hy => shiftGrid_pixel _ _ .left _ _ x y hx hy⟩

end Sys2Proof.Spec
end

-- ==== proofs: the draw ====
section
/-! PROOFS. `DRW` (44_display.md R253 to R258, R264). A draw turns over the places of one list, none of them twice:
what that leaves at each pixel and in VF follows by induction on the list, and the places are those that the
sprite, its origin, the edges and the active planes give. -/

namespace Sys2Proof.Spec

open Sys2Proof.Machine

/-! ### Turning over a list of places -/

/-- A pixel of a plane. -/
structure Place where
  plane : Nat
  x : Nat
  y : Nat
  deriving DecidableEq

/-- The places of a list turned over one after another, on top of the drawing `d`. -/
def turnOver (d : Drawing) (l : List Place) : Drawing := l.foldl (fun d q => d.xorPixel q.plane q.x q.y) d

theorem turnOver_cons (d : Drawing) (q : Place) (l : List Place) :
    turnOver d (q :: l) = turnOver (d.xorPixel q.plane q.x q.y) l := rfl

/-- The place lies in one of `k` planes of `w` by `h` pixels. -/
def Place.Within (k w h : Nat) (q : Place) : Prop := q.plane < k ∧ q.x < w ∧ q.y < h

theorem planePixel_xorPixel_self {w h : Nat} {d : Drawing} {q : Place} (hs : ∀ g ∈ d.planes, Grid.shaped w h g)
    (hq : q.Within d.planes.length w h) :
    planePixel (d.xorPixel q.plane q.x q.y).planes q.plane q.x q.y = !planePixel d.planes q.plane q.x q.y := by
  obtain ⟨hplane, hx, hy⟩ := hq
  rw [xorPixel_pixel d _ _ _ _ _ _ hs hx hy, if_pos ⟨rfl, rfl, rfl, hplane⟩]

theorem planePixel_xorPixel_of_ne {w h : Nat} {d : Drawing} {q o : Place} (hs : ∀ g ∈ d.planes, Grid.shaped w h g)
    (hq : q.Within d.planes.length w h) (ho : o ≠ q) :
    planePixel (d.xorPixel q.plane q.x q.y).planes o.plane o.x o.y = planePixel d.planes o.plane o.x o.y := by
  obtain ⟨-, hx, hy⟩ := hq
  rw [xorPixel_pixel d _ _ _ _ _ _ hs hx hy, if_neg]
  rintro ⟨hplane', hx', hy', -⟩
  cases o
  cases q
  simp_all

/-- A pixel after places are turned over, none of them twice: it changed iff its place is in the list. -/
theorem planePixel_turnOver {w h : Nat} {d : Drawing} {l : List Place} (hs : ∀ g ∈ d.planes, Grid.shaped w h g)
    (hl : ∀ q ∈ l, q.Within d.planes.length w h) (hnodup : l.Nodup) (o : Place) :
    planePixel (turnOver d l).planes o.plane o.x o.y =
      if o ∈ l then !planePixel d.planes o.plane o.x o.y else planePixel d.planes o.plane o.x o.y := by
  induction l generalizing d with
  | nil => rfl
  | cons q l ih =>
    obtain ⟨hqWithin, hlWithin⟩ := List.forall_mem_cons.1 hl
    obtain ⟨hqNotMem, hlNodup⟩ := List.nodup_cons.1 hnodup
    have hrest := ih (d := d.xorPixel q.plane q.x q.y) (xorPixel_shaped _ _ _ hs)
      (by simpa only [xorPixel_length] using hlWithin) hlNodup
    rw [turnOver_cons, hrest]
    by_cases ho : o = q
    · subst ho
      rw [if_neg hqNotMem, planePixel_xorPixel_self hs hqWithin, if_pos List.mem_cons_self]
    · rw [planePixel_xorPixel_of_ne hs hqWithin ho]
      simp only [List.mem_cons, ho, false_or]

/-- The collision after places are turned over, none of them twice: one of them was set before (R257). -/
theorem coll_turnOver {w h : Nat} {d : Drawing} {l : List Place} (hs : ∀ g ∈ d.planes, Grid.shaped w h g)
    (hl : ∀ q ∈ l, q.Within d.planes.length w h) (hnodup : l.Nodup) :
    (turnOver d l).coll = true ↔ d.coll = true ∨ ∃ q ∈ l, planePixel d.planes q.plane q.x q.y = true := by
  induction l generalizing d with
  | nil => simp [turnOver]
  | cons q l ih =>
    obtain ⟨hqWithin, hlWithin⟩ := List.forall_mem_cons.1 hl
    obtain ⟨hqNotMem, hlNodup⟩ := List.nodup_cons.1 hnodup
    have hrest := ih (d := d.xorPixel q.plane q.x q.y) (xorPixel_shaped _ _ _ hs)
      (by simpa only [xorPixel_length] using hlWithin) hlNodup
    have hunchanged : ∀ o ∈ l, planePixel (d.xorPixel q.plane q.x q.y).planes o.plane o.x o.y =
        planePixel d.planes o.plane o.x o.y := fun o ho =>
      planePixel_xorPixel_of_ne hs hqWithin fun heq => hqNotMem (heq ▸ ho)
    have hcoll : (d.xorPixel q.plane q.x q.y).coll = (d.coll || planePixel d.planes q.plane q.x q.y) := rfl
    rw [turnOver_cons, hrest, hcoll, Bool.or_eq_true, List.exists_mem_cons_iff, or_assoc]
    exact or_congr_right (or_congr_right (exists_congr fun o => and_congr_right fun ho => by rw [hunchanged o ho]))

/-! ### A draw is a list of places -/

/-- The places that one sprite row turns over (`drawRow`). -/
def rowPlaces (w : Nat) (bit : Nat → Bool) (p x0 y : Nat) (cs : List Nat) : List Place :=
  (cs.filter fun c => bit c && decide (x0 + c < w)).map fun c => ⟨p, x0 + c, y⟩

theorem drawRow_eq_turnOver (w : Nat) (bit : Nat → Bool) (p x0 y : Nat) (cs : List Nat) (d : Drawing) :
    drawRow w bit p x0 y cs d = turnOver d (rowPlaces w bit p x0 y cs) := by
  rw [drawRow, turnOver, rowPlaces, List.foldl_map, List.foldl_filter]

/-- The places that a sprite turns over (`drawSprite`). -/
def spritePlaces (w h : Nat) (al : List Nat) (X Y : Nat) (b : List Byte) (sh : SpriteShape) : List Place :=
  if al.length = 0 then []
  else ((List.range sh.rows).filter fun r => Y % h + r < h).flatMap fun r =>
    rowPlaces w (spriteBit b sh.width r) (al.getD (r % al.length) 0) (X % w) (Y % h + r) (List.range sh.width)

theorem drawSprite_eq_turnOver (w h : Nat) (al : List Nat) (ps : List Grid) (X Y : Nat) (b : List Byte)
    (sh : SpriteShape) : drawSprite w h al ps X Y b sh = turnOver ⟨ps, false⟩ (spritePlaces w h al X Y b sh) := by
  unfold drawSprite spritePlaces
  split
  · rfl
  · rw [turnOver, List.foldl_flatMap, List.foldl_filter]
    simp only [decide_eq_true_eq, drawRow_eq_turnOver, turnOver]

theorem mem_rowPlaces {w : Nat} {bit : Nat → Bool} {p x0 y : Nat} {cs : List Nat} {q : Place} :
    q ∈ rowPlaces w bit p x0 y cs ↔
      ∃ c ∈ cs, bit c = true ∧ x0 + c < w ∧ q = ⟨p, x0 + c, y⟩ := by
  simp only [rowPlaces, List.mem_map, List.mem_filter, Bool.and_eq_true, decide_eq_true_eq, and_assoc,
    eq_comm (b := q)]

theorem nodup_rowPlaces (w : Nat) (bit : Nat → Bool) (p x0 y n : Nat) :
    (rowPlaces w bit p x0 y (List.range n)).Nodup := by
  refine List.Nodup.map (fun c c' heq => ?_) (List.nodup_range.filter _)
  simpa using heq

/-- The places of a sprite, with the row and the column of it that each comes from. -/
theorem mem_spritePlaces {w h : Nat} {al : List Nat} {X Y : Nat} {b : List Byte} {sh : SpriteShape} {q : Place} :
    q ∈ spritePlaces w h al X Y b sh ↔ ∃ r c, r < sh.rows ∧ c < sh.width ∧
      q.x = X % w + c ∧ q.x < w ∧ q.y = Y % h + r ∧ q.y < h ∧
      al[r % al.length]? = some q.plane ∧ spriteBit b sh.width r c = true := by
  by_cases hal : al.length = 0
  · simp [spritePlaces, List.eq_nil_of_length_eq_zero hal]
  have hplane (r : Nat) : al[r % al.length]? = some (al.getD (r % al.length) 0) := by
    have hlt : r % al.length < al.length := Nat.mod_lt r (Nat.pos_of_ne_zero hal)
    rw [List.getD, List.getElem?_eq_getElem hlt, Option.getD_some]
  simp only [spritePlaces, if_neg hal, List.mem_flatMap, List.mem_filter, List.mem_range, decide_eq_true_eq,
    mem_rowPlaces]
  constructor
  · rintro ⟨r, ⟨hr, hrow⟩, c, hc, hbit, hcol, rfl⟩
    exact ⟨r, c, hr, hc, rfl, hcol, rfl, hrow, hplane r, hbit⟩
  · rintro ⟨r, c, hr, hc, hx, hcol, hy, hrow, hp, hbit⟩
    obtain ⟨p, px, py⟩ := q
    obtain rfl : px = X % w + c := hx
    obtain rfl : py = Y % h + r := hy
    obtain rfl : al.getD (r % al.length) 0 = p := Option.some.inj ((hplane r).symm.trans hp)
    exact ⟨r, ⟨hr, hrow⟩, c, hc, hbit, hcol, rfl⟩

/-- No place is turned over twice: it tells the row and the column of the sprite. -/
theorem nodup_spritePlaces (w h : Nat) (al : List Nat) (X Y : Nat) (b : List Byte) (sh : SpriteShape) :
    (spritePlaces w h al X Y b sh).Nodup := by
  unfold spritePlaces
  split
  · exact List.nodup_nil
  · refine List.nodup_flatMap.2 ⟨fun r _ => nodup_rowPlaces .., ?rowsDisjoint⟩
    case rowsDisjoint =>
      refine (List.nodup_range.filter _).imp fun hne q hq hq' => ?_
      obtain ⟨c, -, -, -, rfl⟩ := mem_rowPlaces.1 hq
      obtain ⟨c', -, -, -, heq⟩ := mem_rowPlaces.1 hq'
      exact hne (Nat.add_left_cancel (congrArg Place.y heq))

/-! ### The places of `DRW` -/

theorem spriteShape_rows (s : State) (n : Nibble) : (s.spriteShape n).rows = spriteRows s n := by
  unfold State.spriteShape spriteRows
  split_ifs <;> simp_all

theorem spriteShape_width (s : State) (n : Nibble) : (s.spriteShape n).width = spriteWidth s n := by
  unfold State.spriteShape spriteWidth
  split_ifs <;> simp_all

theorem spriteWidth_eq (s : State) (n : Nibble) : spriteWidth s n = 8 ∨ spriteWidth s n = 16 := by
  unfold spriteWidth
  split <;> simp

theorem getD_readBytes (s : State) (a : Addr) {k n : Nat} (hk : k < n) :
    (s.readBytes a n).getD k 0 = s.readByte (a + BitVec.ofNat 12 k) := by
  rw [List.getD, State.readBytes_getElem?, if_pos hk, Option.getD_some]

/-- The bits of the bytes that `DRW` reads are the pixels of R253. -/
theorem spriteBit_readBytes {s : State} {n : Nibble} {r c : Nat} (hr : r < spriteRows s n)
    (hc : c < spriteWidth s n) :
    spriteBit (s.readBytes s.i (s.spriteShape n).len) (spriteWidth s n) r c = spritePixel s n r c := by
  rw [spritePixel, spriteBit, SpriteShape.len, spriteShape_rows, spriteShape_width]
  rcases spriteWidth_eq s n with hwidth | hwidth <;> rw [hwidth] at hc ⊢
  · rw [if_pos rfl, if_pos rfl, getD_readBytes s s.i (by omega)]
  · rw [if_neg (by decide), if_neg (by decide), getD_readBytes s s.i (by omega), getD_readBytes s s.i (by omega),
      BitVec.getLsbD_append]
    by_cases hleft : c < 8
    · rw [if_pos hleft, if_neg (by omega), show 15 - c - 8 = 7 - c by omega]
    · rw [if_neg hleft, if_pos (by omega)]

/-- The places that `DRW Vx, Vy, n` turns over. -/
def drawPlaces (s : State) (x y n : Nibble) : List Place :=
  spritePlaces s.width s.height (activeList s.active) (s.getV x).toNat (s.getV y).toNat
    (s.readBytes s.i (s.spriteShape n).len) (s.spriteShape n)

theorem draw_eq_turnOver (s : State) (x y n : Nibble) :
    s.draw x y n = turnOver ⟨s.planes, false⟩ (drawPlaces s x y n) :=
  drawSprite_eq_turnOver ..

theorem mem_drawPlaces {s : State} {x y n : Nibble} {q : Place} :
    q ∈ drawPlaces s x y n ↔ Turned s x y n q.plane q.x q.y := by
  rw [drawPlaces, mem_spritePlaces, spriteShape_rows, spriteShape_width]
  refine exists_congr fun r => exists_congr fun c => and_congr_right fun hr => and_congr_right fun hc => ?_
  rw [spriteBit_readBytes hr hc]

theorem nodup_drawPlaces (s : State) (x y n : Nibble) : (drawPlaces s x y n).Nodup := nodup_spritePlaces ..

theorem within_of_mem_drawPlaces {s : State} (hs : PlanesSound s) {x y n : Nibble} {q : Place}
    (hq : q ∈ drawPlaces s x y n) : q.Within s.planes.length s.width s.height := by
  obtain ⟨r, c, -, -, -, hx, -, hy, hplane, -⟩ := mem_drawPlaces.1 hq
  have hactive : s.active.getLsbD q.plane = true := (mem_activeList _ _).1 (List.mem_of_getElem? hplane)
  exact ⟨hs.2 q.plane (BitVec.lt_of_getLsbD hactive) hactive, hx, hy⟩

/-! ### What a draw leaves -/

theorem planePixel_draw {s : State} (hs : PlanesSound s) (x y n : Nibble) (q : Place) :
    planePixel (s.draw x y n).planes q.plane q.x q.y =
      if q ∈ drawPlaces s x y n then !planePixel s.planes q.plane q.x q.y
      else planePixel s.planes q.plane q.x q.y := by
  rw [draw_eq_turnOver]
  exact planePixel_turnOver hs.1 (fun _ => within_of_mem_drawPlaces hs) (nodup_drawPlaces s x y n) q

theorem planePixel_draw_of_turned {s : State} (hs : PlanesSound s) {x y n : Nibble} {p px py : Nat}
    (hturned : Turned s x y n p px py) :
    planePixel (s.draw x y n).planes p px py = !planePixel s.planes p px py :=
  (planePixel_draw hs x y n ⟨p, px, py⟩).trans (if_pos (mem_drawPlaces.2 hturned))

theorem planePixel_draw_of_not_turned {s : State} (hs : PlanesSound s) {x y n : Nibble} {p px py : Nat}
    (hstays : ¬ Turned s x y n p px py) :
    planePixel (s.draw x y n).planes p px py = planePixel s.planes p px py :=
  (planePixel_draw hs x y n ⟨p, px, py⟩).trans (if_neg fun hmem => hstays (mem_drawPlaces.1 hmem))

/-- The collision of R257 and R258: a landed pixel was set before. -/
theorem coll_draw_iff {s : State} (hs : PlanesSound s) (x y n : Nibble) : (s.draw x y n).coll = true ↔
    ∃ p px py, Turned s x y n p px py ∧ planePixel s.planes p px py = true := by
  rw [draw_eq_turnOver, coll_turnOver hs.1 (fun _ => within_of_mem_drawPlaces hs) (nodup_drawPlaces s x y n)]
  constructor
  · rintro (hnone | ⟨q, hq, hset⟩)
    · exact nomatch hnone
    · exact ⟨q.plane, q.x, q.y, mem_drawPlaces.1 hq, hset⟩
  · rintro ⟨p, px, py, hturned, hset⟩
    exact .inr ⟨⟨p, px, py⟩, mem_drawPlaces.2 hturned, hset⟩

/-! ### The state after a draw -/

/-- The next state of `DRW`. -/
def afterDraw (x y n : Nibble) (s : State) : State :=
  (s.advance.setPlanes (s.draw x y n).planes).setVF (collisionFlag (s.draw x y n).coll)

theorem exec_drw_eq_afterDraw (x y n : Nibble) (s : State) : exec (.drw x y n) s = .next (afterDraw x y n s) :=
  exec_drw x y n s

theorem afterDraw_planes (x y n : Nibble) (s : State) : (afterDraw x y n s).planes = (s.draw x y n).planes := rfl

theorem getV_afterDraw_of_ne {r : Nibble} (hr : r ≠ 0xF) (x y n : Nibble) (s : State) :
    (afterDraw x y n s).getV r = s.getV r := by
  rw [afterDraw, State.setVF, State.getV_setV, if_neg hr, State.setPlanes_getV, State.advance_getV]

theorem vf_afterDraw_iff (x y n : Nibble) (s : State) :
    (afterDraw x y n s).getV 0xF = 1 ↔ (s.draw x y n).coll = true := by
  rw [afterDraw, State.setVF, State.getV_setV_self]
  cases (s.draw x y n).coll <;> decide

theorem planesSound_afterDraw {s : State} (hs : PlanesSound s) (x y n : Nibble) :
    PlanesSound (afterDraw x y n s) := by
  obtain ⟨hlength, hshaped⟩ := drawSprite_keeps (activeList s.active) s.planes (s.getV x).toNat (s.getV y).toNat
    (s.readBytes s.i (s.spriteShape n).len) (s.spriteShape n) hs.1
  exact ⟨hshaped, fun p hp hactive => (hs.2 p hp hactive).trans_eq hlength.symm⟩

/-! ### The same draw again -/

/-- A draw leaves the sprite where it is, and its place unless a coordinate is VF. -/
theorem turned_afterDraw_iff {x y : Nibble} (hx : x ≠ 0xF) (hy : y ≠ 0xF) (n : Nibble) (s : State)
    (p px py : Nat) : Turned (afterDraw x y n s) x y n p px py ↔ Turned s x y n p px py := by
  unfold Turned
  rw [getV_afterDraw_of_ne hx, getV_afterDraw_of_ne hy]
  rfl

theorem planePixel_draw_afterDraw {s : State} (hs : PlanesSound s) {x y : Nibble} (hx : x ≠ 0xF) (hy : y ≠ 0xF)
    (n : Nibble) (p px py : Nat) :
    planePixel ((afterDraw x y n s).draw x y n).planes p px py = planePixel s.planes p px py := by
  have hs' := planesSound_afterDraw hs x y n
  have hagain := turned_afterDraw_iff hx hy n s p px py
  by_cases hturned : Turned s x y n p px py
  · rw [planePixel_draw_of_turned hs' (hagain.2 hturned), afterDraw_planes, planePixel_draw_of_turned hs hturned,
      Bool.not_not]
  · rw [planePixel_draw_of_not_turned hs' (hagain.not.2 hturned), afterDraw_planes,
      planePixel_draw_of_not_turned hs hturned]

/-- Lists of as many planes, all of one shape, with the same pixels are the same. -/
theorem planes_ext {w h : Nat} {ps qs : List Grid} (hlength : ps.length = qs.length)
    (hps : ∀ g ∈ ps, Grid.shaped w h g) (hqs : ∀ g ∈ qs, Grid.shaped w h g)
    (hpixel : ∀ p x y, planePixel ps p x y = planePixel qs p x y) : ps = qs := by
  refine List.ext_getElem hlength fun p hp hq => ?_
  refine Grid.ext_pixel (hps _ (List.getElem_mem hp)) (hqs _ (List.getElem_mem hq)) fun x y _ _ => ?_
  simpa [planePixel_eq, hp, hq] using hpixel p x y

/-- Settles O41: both draws turn over the same places, so the second undoes the first in every pixel, and it
collides where the first turned a clear pixel over. -/
theorem doubleDrawRestoresPlanes : Obligations.DoubleDrawRestoresPlanes := by
  intro x y n s hs hx hy
  rw [exec_drw_eq_afterDraw, completes_next, exec_drw_eq_afterDraw, completes_next]
  have hs' := planesSound_afterDraw hs x y n
  constructor
  · have hlength : ((afterDraw x y n s).draw x y n).planes.length = s.planes.length :=
      (State.draw_length _ x y n).trans (State.draw_length s x y n)
    exact planes_ext hlength (planesSound_afterDraw hs' x y n).1 hs.1 (planePixel_draw_afterDraw hs hx hy n)
  · rw [vf_afterDraw_iff, coll_draw_iff hs']
    refine exists_congr fun p => exists_congr fun px => exists_congr fun py => ?_
    rw [turned_afterDraw_iff hx hy]
    refine and_congr_right fun hturned => ?_
    rw [afterDraw_planes, planePixel_draw_of_turned hs hturned, Bool.not_eq_true']

end Sys2Proof.Spec
end

-- ==== proofs: exit, unmapped words and the quirk toggle ====
section
/-! PROOFS. The meanings of 45_system.md: the program's exit, and the two steps that run no row of the opcode map.
What a `STEP` of a running block is, whichever queue supplies it, is said once for both. -/

namespace Sys2Proof.Spec

open Sys2Proof.Machine

/-! ### The frames of the writes -/

theorem sameExcept_halt (s : State) (code : Int) : SameExcept [.halted, .exitCode] s (s.halt code) := by
  intro p hp
  cases p <;> simp_all [Part.Same]

theorem sameExcept_setQuirks (s : State) (q : Quirks) : SameExcept [.quirks] s (s.setQuirks q) := by
  intro p hp
  cases p <;> simp_all [Part.Same]

theorem sameExcept_setPending (s : State) (cs : List Command) : SameExcept [.host] s (s.setPending cs) := by
  intro p hp
  cases p <;> simp_all [Part.Same]

theorem sameExcept_sample (s : State) (inp : StepInputs) : SameExcept [.host] s (s.sample inp) := by
  intro p hp
  cases p <;> simp_all [Part.Same]

/-- The frame of a `STEP` that does no more than sample its inputs and fetch (R104). -/
theorem sameExcept_setPending_sample_advance (s : State) (rest : List Command) (inp : StepInputs) :
    SameExcept [.pc, .host] s ((s.setPending rest).sample inp).advance :=
  (((sameExcept_setPending s rest).trans (sameExcept_sample _ inp)).trans (sameExcept_advance _)).mono (by simp)

/-! ### Exit -/

theorem exec_exit (s : State) : exec .exit s = .next (s.advance.halt s.cfg.exitCode) := rfl

/-- Settles O46: `EXIT` is a halt after the fetch advance. -/
theorem exitHaltsWithTheCode : Obligations.ExitHaltsWithTheCode := by
  intro s
  rw [exec_exit, completes_next]
  exact ⟨rfl, rfl, rfl, ((sameExcept_advance s).trans (sameExcept_halt _ _)).mono (by simp)⟩

/-! ### A STEP of a running block -/

theorem stopped_eq_false {s : State} (hhalted : s.halted = false) (hfatal : s.fatal = false) :
    s.stopped = false := by
  rw [State.stopped, hhalted, hfatal, Bool.or_false]

theorem step_of_pending_step {s : State} {inp : StepInputs} {rest : List Command} (hrun : s.stopped = false)
    (hpending : s.pending = .step inp :: rest) :
    step s = runAction (decodeAction s.cfg s.fetch) ((s.setPending rest).sample inp) := by
  rw [step_of_cons hpending, runCommand, stepCommand_running (s := s.setPending rest) hrun]
  rfl

/-- An empty queue is a `STEP` with free inputs that leaves an empty queue (log 5). -/
theorem step_of_pending_nil {s : State} (hrun : s.stopped = false) (hpending : s.pending = []) :
    step s = runAction (decodeAction s.cfg s.fetch) ((s.setPending []).sample (freeInputs s.seq)) := by
  have hqueue : s.setPending [] = s := by rw [State.setPending, ← hpending]
  rw [step_of_nil hpending, stepCommand_running hrun, hqueue]
  rfl

/-- What holds of the fetched word's action, whatever inputs are sampled and whatever stays pending, holds of the
step: of a pending `STEP`, and of the one that an empty queue stands for. -/
theorem completes_step {s : State} {P : List Command → State → Prop} (hrun : s.stopped = false)
    (haction : ∀ rest inp,
      Completes (runAction (decodeAction s.cfg s.fetch) ((s.setPending rest).sample inp)) (P rest)) :
    (∀ inp rest, s.pending = .step inp :: rest → Completes (step s) (P rest)) ∧
    (s.pending = [] → Completes (step s) (P [])) :=
  ⟨fun inp rest hpending => step_of_pending_step hrun hpending ▸ haction rest inp,
    fun hpending => step_of_pending_nil hrun hpending ▸ haction [] _⟩

/-! ### Unmapped words -/

theorem decodeAction_of_reject {c : Config} {w : Word16} {r : DecodeReject} (htoggle : toggleField c w = none)
    (hreject : decodeWord w = .reject r) : decodeAction c w = .unmapped r := by
  rw [decodeAction, htoggle, hreject]

theorem runAction_unmapped (r : DecodeReject) (s : State) : runAction (.unmapped r) s = .next s.advance := rfl

theorem commandOutcome_unmapped {s : State} {r : DecodeReject} (haction : decodeAction s.cfg s.fetch = .unmapped r)
    (inp : StepInputs) : commandOutcome (.step inp) s = .normal := by
  rw [commandOutcome, haction, actionOutcome, ite_self]

/-- Settles O9: the word asks for the fetch advance alone, and the outcome of that action is normal. -/
theorem unmappedWordOnlyAdvancesPc : Obligations.UnmappedWordOnlyAdvancesPc := by
  intro s r hhalted hfatal htoggle hreject
  have haction := decodeAction_of_reject htoggle hreject
  have hnormal := commandOutcome_unmapped haction
  obtain ⟨hpending, hempty⟩ := completes_step (s := s)
    (P := fun rest t => t.pc = s.pc + 2 ∧ SameExcept [.pc, .host] s t ∧ t.pending = rest)
    (stopped_eq_false hhalted hfatal) fun rest inp => by
      rw [haction, runAction_unmapped, completes_next]
      exact ⟨rfl, sameExcept_setPending_sample_advance s rest inp, rfl⟩
  exact ⟨fun inp rest h => ⟨hpending inp rest h, hnormal inp⟩, fun h => ⟨hempty h, hnormal _⟩⟩

/-! ### The quirk toggle -/

theorem decodeAction_of_quirkToggle {c : Config} {w : Word16} {t : QuirkToggle} (ht : c.quirkToggle = some t)
    (hw : w &&& t.mask = t.bits) : decodeAction c w = .toggle t.field := by
  have htoggle : toggleField c w = some t.field := by simp [toggleField, ht, hw]
  rw [decodeAction, htoggle]

theorem runAction_toggle (f : QuirkField) (s : State) :
    runAction (.toggle f) s = .next (s.advance.setQuirks (toggleQuirk s.quirks f)) := rfl

/-- A toggle flips its own field and no other (R302). -/
theorem quirkValue_toggleQuirk (q : Quirks) (f g : QuirkField) :
    quirkValue (toggleQuirk q f) g = if g = f then !quirkValue q g else quirkValue q g := by
  cases f <;> cases g <;> rfl

/-- Settles O11: the toggle is tried before the opcode map, and its action is the fetch advance and the flip. -/
theorem quirkToggleFlipsItsField : Obligations.QuirkToggleFlipsItsField := by
  intro s t hhalted hfatal ht hw toggled
  refine completes_step (stopped_eq_false hhalted hfatal) fun rest inp => ?_
  rw [decodeAction_of_quirkToggle ht hw, runAction_toggle, completes_next]
  exact ⟨rfl, ((sameExcept_setPending_sample_advance s rest inp).trans (sameExcept_setQuirks _ _)).mono (by simp),
    rfl, quirkValue_toggleQuirk s.quirks t.field⟩

end Sys2Proof.Spec
end

-- ==== proofs: the tick ====
section
/-! PROOFS. The timers of 60_exceptions.md section 3. A `TICK` of a running block is a write of `DT` and one of `ST`,
each of the timer one tick later. -/

namespace Sys2Proof.Spec

open Sys2Proof.Machine

/-- A timer at 0 stays there: natural subtraction is the clamp of R320. -/
theorem toNat_timerTick (t : Byte) : (timerTick t).toNat = t.toNat - 1 := by
  rw [timerTick]
  split
  case isTrue hpos => exact BitVec.toNat_sub_of_le hpos
  case isFalse hzero => omega

theorem tickCommand_running {s : State} (hrun : s.stopped = false) :
    tickCommand s = (s.setDT (timerTick s.dt)).setST (timerTick s.st) := by
  rw [tickCommand, hrun, if_neg Bool.false_ne_true]

theorem step_of_pending_tick {s : State} {rest : List Command} (hrun : s.stopped = false)
    (hpending : s.pending = .tick :: rest) :
    step s = .next (((s.setPending rest).setDT (timerTick s.dt)).setST (timerTick s.st)) := by
  rw [step_of_cons hpending, runCommand, tickCommand_running (s := s.setPending rest) hrun]
  rfl

/-- The frame of a `TICK` that is taken off the queue and carried out. -/
theorem sameExcept_setPending_setDT_setST (s : State) (rest : List Command) (d t : Byte) :
    SameExcept [.dt, .st, .host] s (((s.setPending rest).setDT d).setST t) :=
  (((sameExcept_setPending s rest).trans (sameExcept_setDT _ d)).trans (sameExcept_setST _ t)).mono (by simp)

/-- Settles O12: the step writes each timer one tick later, and its frame is that of the two writes. -/
theorem tickDecrementsTimersClamped : Obligations.TickDecrementsTimersClamped := by
  intro s rest hhalted hfatal hpending
  rw [step_of_pending_tick (stopped_eq_false hhalted hfatal) hpending, completes_next]
  exact ⟨toNat_timerTick s.dt, toNat_timerTick s.st, sameExcept_setPending_setDT_setST s rest _ _, rfl, rfl⟩

end Sys2Proof.Spec
end

-- ==== proofs: the decoder and the encoder ====
section
/-! PROOFS. 30_encoding.md: the decoder of a word is a choice by its fields. Each group of words is read back once for
the words it accepts and once for those it rejects; the statements about all words split on the group. -/

namespace Sys2Proof.Spec

open Sys2Proof.Machine

/-! ### Written-out words -/

/-- Settles O1: thirteen closed words, each decoded by evaluation. -/
theorem writtenWordsDecode : Obligations.WrittenWordsDecode := by
  unfold Obligations.WrittenWordsDecode
  decide

/-! ### Encode, then decode -/

theorem decodeWord_encode (i : Instr) : decodeWord (encode i) = .ok i := by
  cases i
  case cls | ret | scr | scl | exit | low | high => rfl
  case scd | scu => simp [encode, decodeWord, decodeGroup0]
  case jp | call | ldI | jpV0 | seImm | sneImm | ldImm | addImm | rnd | seReg | sneReg | drw =>
    simp [encode, decodeWord]
  case ldReg | or | and | xor | addReg | sub | shr | subn | shl => simp [encode, decodeWord, decodeGroup8]
  case skp | sknp => simp [encode, decodeWord, decodeGroupE]
  case plane | ldVxDT | ldVxK | ldDTVx | ldSTVx | addI | ldF | ldHF | ldB | store | load =>
    simp [encode, decodeWord, decodeGroupF]

/-- Settles O2: the bytes of an instruction make its word again, which decodes to it. -/
theorem decodeOfEncodeIsIdentity : Obligations.DecodeOfEncodeIsIdentity := by
  intro i rest _
  rw [encodeBytes, decodeBytes_bytesOfWord, decodeWord_encode]

/-! ### Decode, then encode -/

theorem encodeNNN_fields (w : Word16) : encodeNNN (groupField w) (nnnField w) = w := by
  apply BitVec.eq_of_toNat_eq
  rw [encodeNNN_toNat, groupField_eq, nnnField_eq]
  omega

theorem encodeXNN_fields (w : Word16) : encodeXNN (groupField w) (xField w) (nnField w) = w := by
  apply BitVec.eq_of_toNat_eq
  rw [encodeXNN_toNat, groupField_eq, xField_eq, nnField_eq]
  omega

theorem encodeXYN_fields (w : Word16) : encodeXYN (groupField w) (xField w) (yField w) (nField w) = w := by
  apply BitVec.eq_of_toNat_eq
  rw [encodeXYN_toNat, groupField_eq, xField_eq, yField_eq, nField_eq]
  omega

theorem decodeWord_group0 {w : Word16} (hgroup : groupField w = 0x0) : decodeWord w = decodeGroup0 w := by
  rw [decodeWord, hgroup]
  rfl

theorem decodeWord_group8 {w : Word16} (hgroup : groupField w = 0x8) : decodeWord w = decodeGroup8 w := by
  rw [decodeWord, hgroup]
  rfl

theorem decodeWord_groupE {w : Word16} (hgroup : groupField w = 0xE) : decodeWord w = decodeGroupE w := by
  rw [decodeWord, hgroup]
  rfl

/-- The low byte is `y` and `n`. -/
theorem yField_append_nField (w : Word16) : yField w ++ nField w = nnField w := by
  apply BitVec.eq_of_toNat_eq
  rw [toNat_concat, yField_eq, nField_eq, nnField_eq]
  omega

theorem encode_of_decodeGroup0 {w : Word16} {i : Instr} (h : decodeGroup0 w = .ok i) :
    encode i = encodeZ (nnField w) := by
  unfold decodeGroup0 at h
  split at h
  case h_1 hy =>
    obtain rfl := Decoded.ok.inj h
    rw [← yField_append_nField, BitVec.eq_of_toNat_eq (y := 0xC) hy]
    rfl
  case h_2 hy =>
    obtain rfl := Decoded.ok.inj h
    rw [← yField_append_nField, BitVec.eq_of_toNat_eq (y := 0xD) hy]
    rfl
  case h_3 =>
    split at h <;> cases h
    all_goals rename_i hnn; exact congrArg encodeZ (BitVec.eq_of_toNat_eq hnn.symm)

theorem encode_of_decodeGroup8 {w : Word16} {i : Instr} (h : decodeGroup8 w = .ok i) :
    encode i = encodeXYN 0x8 (xField w) (yField w) (nField w) := by
  unfold decodeGroup8 at h
  split at h <;> cases h
  all_goals rename_i hn; exact congrArg (encodeXYN _ _ _) (BitVec.eq_of_toNat_eq hn.symm)

theorem encode_of_decodeGroupE {w : Word16} {i : Instr} (h : decodeGroupE w = .ok i) :
    encode i = encodeXNN 0xE (xField w) (nnField w) := by
  unfold decodeGroupE at h
  split at h <;> cases h
  all_goals rename_i hnn; exact congrArg (encodeXNN _ _) (BitVec.eq_of_toNat_eq hnn.symm)

theorem encode_of_decodeGroupF {w : Word16} {i : Instr} (h : decodeGroupF w = .ok i) :
    encode i = encodeXNN 0xF (xField w) (nnField w) := by
  unfold decodeGroupF at h
  split at h <;> cases h
  all_goals rename_i hnn; exact congrArg (encodeXNN _ _) (BitVec.eq_of_toNat_eq hnn.symm)

/-- Outside group 0 a word is encoded again as it was. -/
theorem encode_of_decodeWord {w : Word16} {i : Instr} (hgroup : groupField w ≠ 0) (h : decodeWord w = .ok i) :
    encode i = w := by
  have hNNN {o : Nibble} (ho : (groupField w).toNat = o.toNat) : encodeNNN o (nnnField w) = w := by
    rw [← BitVec.eq_of_toNat_eq ho, encodeNNN_fields]
  have hXNN {o : Nibble} (ho : (groupField w).toNat = o.toNat) : encodeXNN o (xField w) (nnField w) = w := by
    rw [← BitVec.eq_of_toNat_eq ho, encodeXNN_fields]
  have hXYN {o n : Nibble} (ho : (groupField w).toNat = o.toNat) (hn : nField w = n) :
      encodeXYN o (xField w) (yField w) n = w := by
    rw [← BitVec.eq_of_toNat_eq ho, ← hn, encodeXYN_fields]
  unfold decodeWord at h
  split at h
  case h_1 ho => exact absurd (BitVec.eq_of_toNat_eq ho) hgroup
  case h_2 ho | h_3 ho | h_11 ho | h_12 ho => cases h; exact hNNN ho
  case h_4 ho | h_5 ho | h_7 ho | h_8 ho | h_13 ho => cases h; exact hXNN ho
  case h_6 ho | h_10 ho =>
    by_cases hn : nField w = 0
    · cases (if_pos hn).symm.trans h; exact hXYN ho hn
    · cases (if_neg hn).symm.trans h
  case h_9 ho => exact (encode_of_decodeGroup8 h).trans (hXYN ho rfl)
  case h_14 ho => cases h; exact hXYN ho rfl
  case h_15 ho => exact (encode_of_decodeGroupE h).trans (hXNN ho)
  case h_16 =>
    have ho : (groupField w).toNat = 0xF := by
      have hlt := (groupField w).isLt
      simp only [imp_false] at *
      omega
    exact (encode_of_decodeGroupF h).trans (hXNN ho)

/-- Settles O3: group 0 is encoded from the low byte alone, every other group from the whole word. -/
theorem encodeOfDecodeKeepsExaminedBits : Obligations.EncodeOfDecodeKeepsExaminedBits := by
  intro w i h
  by_cases hgroup : groupField w = 0
  · rw [if_pos hgroup, and_F0FF, hgroup]
    exact encode_of_decodeGroup0 (decodeWord_group0 hgroup ▸ h)
  · rw [if_neg hgroup, encode_of_decodeWord hgroup h]
    exact (BitVec.and_allOnes (x := w)).symm

/-! ### Rejected words -/

theorem decodeGroup0_reject_iff (w : Word16) : (∃ r, decodeGroup0 w = .reject r) ↔
    yField w ≠ 0xC ∧ yField w ≠ 0xD ∧
      nnField w ∉ ([0xE0, 0xEE, 0xFB, 0xFC, 0xFD, 0xFE, 0xFF] : List Byte) := by
  simp only [ne_eq, ← BitVec.toNat_inj, List.mem_cons, List.not_mem_nil, or_false, not_or]
  unfold decodeGroup0
  split
  case h_1 hy | h_2 hy => simp [hy]
  case h_3 => split <;> simp_all

theorem decodeGroup8_reject_iff (w : Word16) : (∃ r, decodeGroup8 w = .reject r) ↔
    nField w ∈ ([0x8, 0x9, 0xA, 0xB, 0xC, 0xD, 0xF] : List Nibble) := by
  simp only [← BitVec.toNat_inj, List.mem_cons, List.not_mem_nil, or_false]
  unfold decodeGroup8
  have := (nField w).isLt
  split <;> simp_all
  omega

theorem decodeGroupE_reject_iff (w : Word16) : (∃ r, decodeGroupE w = .reject r) ↔
    nnField w ∉ ([0x9E, 0xA1] : List Byte) := by
  simp only [← BitVec.toNat_inj, List.mem_cons, List.not_mem_nil, or_false, not_or]
  unfold decodeGroupE
  split <;> simp_all

theorem decodeGroupF_reject_iff (w : Word16) : (∃ r, decodeGroupF w = .reject r) ↔
    nnField w ∉ ([0x01, 0x07, 0x0A, 0x15, 0x18, 0x1E, 0x29, 0x30, 0x33, 0x55, 0x65] : List Byte) := by
  simp only [← BitVec.toNat_inj, List.mem_cons, List.not_mem_nil, or_false, not_or]
  unfold decodeGroupF
  split <;> simp_all

/-- Settles O5: a word is rejected by its group's part of the decoder, or by the test of the low nibble in groups 5
and 9; the other groups are full. -/
theorem rejectedWordsAreTheListedOnes : Obligations.RejectedWordsAreTheListedOnes := by
  intro w
  rw [ListedUnmapped, ← decodeGroup0_reject_iff, ← decodeGroup8_reject_iff, ← decodeGroupE_reject_iff,
    ← decodeGroupF_reject_iff]
  simp only [← BitVec.toNat_inj (x := groupField w)]
  unfold decodeWord
  have hlt := (groupField w).isLt
  by_cases hn : nField w = 0#4 <;> interval_cases (groupField w).toNat <;> simp [hn]

/-! ### The opcode map -/

open Laws in
theorem encodesToItsRow : ∀ i : Instr, EncodesToItsRow.Statement i
  | .cls => EncodesToItsRow.cls
  | .ret => EncodesToItsRow.ret
  | .scd n => EncodesToItsRow.scd n
  | .scu n => EncodesToItsRow.scu n
  | .scr => EncodesToItsRow.scr
  | .scl => EncodesToItsRow.scl
  | .exit => EncodesToItsRow.exit
  | .low => EncodesToItsRow.low
  | .high => EncodesToItsRow.high
  | .jp nnn => EncodesToItsRow.jp nnn
  | .call nnn => EncodesToItsRow.call nnn
  | .seImm x nn => EncodesToItsRow.seImm x nn
  | .sneImm x nn => EncodesToItsRow.sneImm x nn
  | .seReg x y => EncodesToItsRow.seReg x y
  | .ldImm x nn => EncodesToItsRow.ldImm x nn
  | .addImm x nn => EncodesToItsRow.addImm x nn
  | .ldReg x y => EncodesToItsRow.ldReg x y
  | .or x y => EncodesToItsRow.or x y
  | .and x y => EncodesToItsRow.and x y
  | .xor x y => EncodesToItsRow.xor x y
  | .addReg x y => EncodesToItsRow.addReg x y
  | .sub x y => EncodesToItsRow.sub x y
  | .shr x y => EncodesToItsRow.shr x y
  | .subn x y => EncodesToItsRow.subn x y
  | .shl x y => EncodesToItsRow.shl x y
  | .sneReg x y => EncodesToItsRow.sneReg x y
  | .ldI nnn => EncodesToItsRow.ldI nnn
  | .jpV0 nnn => EncodesToItsRow.jpV0 nnn
  | .rnd x nn => EncodesToItsRow.rnd x nn
  | .drw x y n => EncodesToItsRow.drw x y n
  | .skp x => EncodesToItsRow.skp x
  | .sknp x => EncodesToItsRow.sknp x
  | .plane x => EncodesToItsRow.plane x
  | .ldVxDT x => EncodesToItsRow.ldVxDT x
  | .ldVxK x => EncodesToItsRow.ldVxK x
  | .ldDTVx x => EncodesToItsRow.ldDTVx x
  | .ldSTVx x => EncodesToItsRow.ldSTVx x
  | .addI x => EncodesToItsRow.addI x
  | .ldF x => EncodesToItsRow.ldF x
  | .ldHF x => EncodesToItsRow.ldHF x
  | .ldB x => EncodesToItsRow.ldB x
  | .store x => EncodesToItsRow.store x
  | .load x => EncodesToItsRow.load x

theorem row_mem_opcodeTable (i : Instr) : i.row ∈ opcodeTable := by
  cases i <;> simp [opcodeTable, tableInstrs, tableInstrs0To7, tableInstrs8ToD, tableInstrsEToF, Instr.row]

/-- No row asks for the bits of the `x` nibble: they are an operand, or not examined (R107). -/
theorem F0FF_and_mask : ∀ r ∈ opcodeTable, 0xF0FF &&& r.mask = r.mask := by
  decide

theorem encode_and_F0FF {w : Word16} {i : Instr} (h : decodeWord w = .ok i) :
    encode i &&& 0xF0FF = w &&& 0xF0FF := by
  rw [encodeOfDecodeKeepsExaminedBits w i h, BitVec.and_assoc]
  split <;> rfl

theorem matches_row_of_decodeWord {w : Word16} {i : Instr} (h : decodeWord w = .ok i) :
    w &&& i.row.mask = i.row.bits := by
  have hmask := F0FF_and_mask i.row (row_mem_opcodeTable i)
  calc w &&& i.row.mask = w &&& 0xF0FF &&& i.row.mask := by rw [BitVec.and_assoc, hmask]
    _ = encode i &&& i.row.mask := by rw [← encode_and_F0FF h, BitVec.and_assoc, hmask]
    _ = i.row.bits := beq_iff_eq.1 (encodesToItsRow i)

/-- A word of a row with mask 0xF0F0 has the row's group and `y` nibble. -/
theorem fields_of_and_F0F0 {w bits : Word16} (h : w &&& 0xF0F0 = bits) :
    groupField w = groupField bits ∧ yField w = yField bits := by
  rw [← h, and_F0F0, groupField_XYN, yField_XYN]
  exact ⟨rfl, rfl⟩

/-- The `y` nibble is the high half of the low byte. -/
theorem yField_of_nnField {w v : Word16} (h : nnField w = nnField v) : yField w = yField v := by
  apply BitVec.eq_of_toNat_eq
  have := congrArg BitVec.toNat h
  rw [nnField_eq, nnField_eq] at this
  rw [yField_eq, yField_eq]
  omega

theorem toOption_eq_some {d : Decoded} {i : Instr} : d.toOption = some i ↔ d = .ok i := by
  cases d <;> simp [Decoded.toOption]

/-- A word that matches the row of an instruction decodes to one of that row. -/
theorem row_of_matches_row (j : Instr) {w : Word16} (h : w &&& j.row.mask = j.row.bits) :
    (decodeWord w).toOption.map Instr.row = some j.row := by
  cases j <;> dsimp only [Instr.row] at h
  case scd | scu =>
    obtain ⟨hgroup, hy⟩ := fields_of_and_F0F0 h
    rw [decodeWord_group0 hgroup, decodeGroup0, hy]
    rfl
  case cls | ret | scr | scl | exit | low | high =>
    obtain ⟨hgroup, hnn⟩ := fields_of_and_F0FF h
    rw [decodeWord_group0 hgroup, decodeGroup0, yField_of_nnField hnn, hnn]
    rfl
  case jp | call | seImm | sneImm | ldImm | addImm | ldI | jpV0 | rnd | drw =>
    rw [decodeWord, groupField_of_and_F000 h]
    rfl
  case seReg | sneReg =>
    obtain ⟨hgroup, hn⟩ := fields_of_and_F00F h
    rw [decodeWord, hgroup, hn]
    rfl
  case ldReg | or | and | xor | addReg | sub | shr | subn | shl =>
    obtain ⟨hgroup, hn⟩ := fields_of_and_F00F h
    rw [decodeWord_group8 hgroup, decodeGroup8, hn]
    rfl
  case skp | sknp =>
    obtain ⟨hgroup, hnn⟩ := fields_of_and_F0FF h
    rw [decodeWord_groupE hgroup, decodeGroupE, hnn]
    rfl
  case plane | ldVxDT | ldVxK | ldDTVx | ldSTVx | addI | ldF | ldHF | ldB | store | load =>
    obtain ⟨hgroup, hnn⟩ := fields_of_and_F0FF h
    rw [decodeWord_groupF hgroup, decodeGroupF, hnn]
    rfl

/-- Settles O4: the examined bits of a decoded word are those of the instruction's own encoding, and each row's
fields select its branch of the decoder. -/
theorem decoderIsTheOpcodeMap : Obligations.DecoderIsTheOpcodeMap := by
  refine ⟨rfl, fun w i h => ⟨row_mem_opcodeTable i, matches_row_of_decodeWord h⟩, fun w r hr h => ?_⟩
  obtain ⟨j, -, rfl⟩ := List.mem_map.1 hr
  obtain ⟨i, hi, hrow⟩ := Option.map_eq_some_iff.1 (row_of_matches_row j h)
  exact ⟨i, toOption_eq_some.1 hi, hrow⟩

end Sys2Proof.Spec
end

-- ==== proofs: the invariant ====
section
/-! PROOFS. `State.Inv` speaks of six fields: the parameters, memory, the stack, the planes, the resolution and the
active set. A write of any other field keeps it at sight; each write of one of the six keeps it by a lemma of its own,
and every command is made of such writes. -/

namespace Sys2Proof.Spec

open Sys2Proof.Machine

/-! ### The writes -/

/-- The fields that the invariant speaks of. -/
def invFields (s : State) : Config × Memory × List Addr × List Grid × Bool × Nibble :=
  (s.cfg, s.mem, s.stack, s.planes, s.hires, s.active)

theorem inv_of_invFields_eq {s t : State} (h : s.Inv) (heq : invFields t = invFields s) : t.Inv := by
  simp only [invFields, Prod.mk.injEq] at heq
  obtain ⟨hcfg, hmem, hstack, hplanes, hhires, hactive⟩ := heq
  have hwidth : t.width = s.width := congrArg widthOf hhires
  have hheight : t.height = s.height := congrArg heightOf hhires
  exact ⟨hcfg ▸ h.config, State.memWf_of_eq hcfg hmem h.memory, hstack ▸ hcfg ▸ h.stackBound,
    hplanes ▸ h.planeCount, hwidth ▸ hheight ▸ hplanes ▸ h.planeShape, hplanes ▸ hactive ▸ h.activeExist⟩

theorem inv_advance {s : State} (h : s.Inv) : s.advance.Inv := inv_of_invFields_eq h rfl

theorem inv_setRegs {s : State} (h : s.Inv) (k : Nat) (bs : List Byte) : (s.setRegs k bs).Inv :=
  inv_of_invFields_eq h (by simp [invFields])

theorem inv_setStack {s : State} (h : s.Inv) {l : List Addr} (hl : l.length ≤ s.cfg.stackDepth) :
    (s.setStack l).Inv := ⟨h.config, h.memory, hl, h.planeCount, h.planeShape, h.activeExist⟩

theorem inv_writeBytes {s : State} (h : s.Inv) (a : Addr) (bs : List Byte) : (s.writeBytes a bs).Inv := by
  have hmem := s.writeBytes_memWf a bs h.memory
  have hrest : invFields (s.writeBytes a bs) = invFields { s with mem := (s.writeBytes a bs).mem } := by
    simp [invFields]
  refine inv_of_invFields_eq (s := { s with mem := (s.writeBytes a bs).mem }) ?_ hrest
  exact ⟨h.config, by simpa [State.memWf] using hmem, h.stackBound, h.planeCount, h.planeShape, h.activeExist⟩

theorem inv_setPlanes {s : State} (h : s.Inv) {ps : List Grid} (hlength : ps.length = s.planes.length)
    (hshape : ∀ g ∈ ps, Grid.shaped s.width s.height g) : (s.setPlanes ps).Inv :=
  ⟨h.config, h.memory, h.stackBound, hlength ▸ h.planeCount, hshape, hlength ▸ h.activeExist⟩

/-- Mapping the active planes by a function that makes planes of the current resolution. -/
theorem inv_setPlanes_mapActive {s : State} (h : s.Inv) (m : Nibble) {f : Grid → Grid}
    (hf : ∀ g, Grid.shaped s.width s.height (f g)) : (s.setPlanes (mapActive m f 0 s.planes)).Inv := by
  refine inv_setPlanes h (mapActive_length _ _ _ _) fun g hg => ?_
  rcases mem_mapActive hg with hold | ⟨k, -, rfl⟩
  · exact h.planeShape g hold
  · exact hf k

theorem inv_scroll {s : State} (h : s.Inv) (dir : ScrollDir) (amt : Nat) : (s.scroll dir amt).Inv := by
  unfold State.scroll
  split
  · exact h
  · exact inv_setPlanes_mapActive h _ fun g => shiftGrid_shaped ..

theorem inv_resize {s : State} (h : s.Inv) (hires : Bool) : (s.resize hires).Inv := by
  have hlength : (s.resize hires).planes.length = s.planes.length := List.length_map ..
  refine ⟨h.config, h.memory, h.stackBound, hlength ▸ h.planeCount, fun g hg => ?_, hlength ▸ h.activeExist⟩
  obtain ⟨-, -, rfl⟩ := List.mem_map.1 hg
  exact blankGrid_shaped _ _

theorem inv_switchTo {s : State} (h : s.Inv) (hires : Bool) : (s.switchTo hires).Inv := by
  unfold State.switchTo
  split
  · exact inv_resize (inv_advance h) hires
  · exact inv_of_invFields_eq h rfl

/-- A plane select adds blank planes of the current resolution until those that the mask names are there (R250). -/
theorem inv_setActivePlanes {s : State} (h : s.Inv) (m : Nibble) : (s.setActivePlanes m).Inv := by
  have hlength : (s.setActivePlanes m).planes.length = max s.planes.length (planesNamed m) := growPlanes_length ..
  obtain ⟨hone, hfour⟩ := h.planeCount
  have hnamed := planesNamed_le m
  refine ⟨h.config, h.memory, h.stackBound, by omega, fun g hg => ?shape, fun p hp hactive => ?exist⟩
  case shape =>
    rcases List.mem_append.1 hg with hold | hnew
    · exact h.planeShape g hold
    · obtain rfl := List.eq_of_mem_replicate hnew
      exact blankGrid_shaped _ _
  case exist =>
    have := lt_planesNamed m p hp hactive
    omega

/-! ### The instructions -/

/-- A skip writes PC alone. -/
theorem inv_skip {s : State} (h : s.Inv) (c : Bool) : (s.advance.skipIf c).Inv := by
  rw [State.advance_skipIf]
  exact inv_of_invFields_eq h rfl

/-- Every instruction completes and keeps the invariant. -/
theorem exec_keeps_inv (i : Instr) {s : State} (h : s.Inv) : Completes (exec i s) State.Inv := by
  have ha := inv_advance h
  cases i
  case jp | jpV0 | ldImm | addImm | ldReg | or | and | xor | rnd | ldVxDT | addReg | sub | shr | subn | shl
      | ldI | addI | ldF | ldHF | ldDTVx | ldSTVx | exit =>
    exact (completes_next _ _).2 (inv_of_invFields_eq h rfl)
  case seImm | sneImm | seReg | sneReg | skp | sknp => exact (completes_next _ _).2 (inv_skip h _)
  case ldVxK x =>
    by_cases hkeys : s.inp.keys = 0
    · rwa [exec_ldVxK_no_key x hkeys, completes_next]
    · rw [exec_ldVxK_key x hkeys, completes_next]
      exact inv_of_invFields_eq h rfl
  case ret =>
    rw [exec_ret]
    rcases execRet_cases s with ⟨l, a, hstack, heq⟩ | ⟨-, heq⟩ <;> rw [heq, completes_next]
    · have hl := h.stackBound
      rw [hstack, List.length_append] at hl
      exact inv_of_invFields_eq (inv_setStack ha (l := l) (Nat.le_of_add_right_le hl)) rfl
    · exact inv_of_invFields_eq h rfl
  case call nnn =>
    rw [exec_call]
    rcases execCall_cases nnn s with ⟨hroom, heq⟩ | ⟨-, heq⟩ <;> rw [heq, completes_next]
    · exact inv_of_invFields_eq (inv_setStack ha (l := s.stack ++ [s.pc + 2]) (by simpa using hroom)) rfl
    · exact inv_of_invFields_eq h rfl
  case ldB => exact (completes_next _ _).2 (inv_writeBytes ha _ _)
  case store => exact (completes_next _ _).2 (inv_of_invFields_eq (inv_writeBytes ha _ _) rfl)
  case load => exact (completes_next _ _).2 (inv_of_invFields_eq (inv_setRegs ha _ _) rfl)
  case cls => exact (completes_next _ _).2 (inv_setPlanes_mapActive ha _ fun _ => blankGrid_shaped _ _)
  case scd | scu | scr | scl => exact (completes_next _ _).2 (inv_scroll ha _ _)
  case low | high => exact (completes_next _ _).2 (inv_switchTo h _)
  case plane => exact (completes_next _ _).2 (inv_setActivePlanes ha _)
  case drw x y n =>
    rw [exec_drw_eq_afterDraw, completes_next]
    obtain ⟨hshape, -⟩ := planesSound_afterDraw ⟨h.planeShape, h.activeExist⟩ x y n
    exact inv_of_invFields_eq (inv_setPlanes ha (s.draw_length x y n) hshape) rfl

/-! ### The commands -/

theorem runAction_keeps_inv (a : Action) {s : State} (h : s.Inv) : Completes (runAction a s) State.Inv := by
  cases a with
  | run i => exact exec_keeps_inv i h
  | toggle f => exact (completes_next _ _).2 (inv_of_invFields_eq h rfl)
  | unmapped r => exact (completes_next _ _).2 (inv_advance h)

theorem tickCommand_keeps_inv {s : State} (h : s.Inv) : (tickCommand s).Inv := by
  unfold tickCommand
  split
  · exact h
  · exact inv_of_invFields_eq h rfl

/-- A reset leaves one blank plane, which is the active one, and an empty stack. -/
theorem inv_afterReset {c : Config} {m : Memory} (hc : c.wf = true) (hm : Memory.wf (background c) m)
    (inp : StepInputs) (pending : List Command) (seq : Nat) : (State.afterReset c m inp pending seq).Inv := by
  refine ⟨hc, hm, Nat.zero_le _, (by decide : 1 ≤ 1 ∧ 1 ≤ 4), fun g hg => ?shape, fun p hp hactive => ?exist⟩
  case shape =>
    obtain rfl := List.mem_singleton.1 hg
    exact blankGrid_shaped _ _
  case exist =>
    change (0b0001 : Nibble).getLsbD p = true at hactive
    change p < 1
    interval_cases p <;> simp_all

theorem resetCommand_keeps_inv (rom : List Byte) (g : Bool) {s : State} (h : s.Inv) :
    (resetCommand rom g s).Inv := by
  unfold resetCommand
  split_ifs with hsize
  · exact inv_of_invFields_eq h rfl
  · refine inv_afterReset h.config (romImage_wf _ _ rom ?_) _ _ _
    simp only [romMax, romBase] at *
    omega
  · exact inv_of_invFields_eq h rfl

/-- Settles O49: taking the command off and sampling the inputs write the model's own fields, and each command keeps
the invariant. -/
theorem stepKeepsInvariant : Obligations.StepKeepsInvariant := by
  intro s t h hstep
  obtain ⟨s', hs', hcases⟩ := step_cases s
  have h' : s'.Inv := by
    rcases hs' with rfl | ⟨c, -, heq⟩
    · exact h
    · exact inv_of_invFields_eq h (heq ▸ rfl)
  have hnext : Completes (step s) State.Inv := by
    rcases hcases with ⟨-, heq⟩ | ⟨inp, -, heq⟩ | heq | ⟨rom, g, heq⟩ <;> rw [heq]
    · exact (completes_next _ _).2 h'
    · exact runAction_keeps_inv _ (inv_of_invFields_eq h' rfl)
    · exact (completes_next _ _).2 (tickCommand_keeps_inv h')
    · exact (completes_next _ _).2 (resetCommand_keeps_inv rom g h')
  rwa [hstep, completes_next] at hnext

/-- Settles O50: the reset state is what a reset with well-formed parameters and a canonical memory leaves. -/
theorem resetMeetsInvariant : Obligations.ResetMeetsInvariant :=
  inv_afterReset (by decide) State.reset_memWf _ _ _

end Sys2Proof.Spec
end

-- ==== proofs: what each instruction changes ====
section
/-! PROOFS. The parts of the state that each instruction may change, as one table, and that it changes no other. The
statements that say which instructions write a part are lookups in the table, with a closer look at the writers where
the statement says more. -/

namespace Sys2Proof.Spec

open Sys2Proof.Machine

/-! ### The table -/

/-- The parts of the state that an instruction may change (10_state.md R32, R34, R38, R43 to R48). -/
def changedParts : Instr → List Part
  | .jp _ | .jpV0 _ | .seImm _ _ | .sneImm _ _ | .seReg _ _ | .sneReg _ _ | .skp _ | .sknp _ => [.pc]
  | .ldImm _ _ | .addImm _ _ | .ldReg _ _ | .or _ _ | .and _ _ | .xor _ _ | .addReg _ _ | .sub _ _ | .shr _ _
  | .subn _ _ | .shl _ _ | .rnd _ _ | .ldVxDT _ | .ldVxK _ => [.v, .pc]
  | .ldI _ | .addI _ | .ldF _ | .ldHF _ => [.i, .pc]
  | .ldDTVx _ => [.dt, .pc]
  | .ldSTVx _ => [.st, .pc]
  | .ldB _ => [.mem, .pc]
  | .store _ => [.mem, .i, .pc]
  | .load _ => [.v, .i, .pc]
  | .call _ | .ret => [.stack, .sv, .pc]
  | .exit => [.halted, .exitCode, .pc]
  | .cls | .scd _ | .scu _ | .scr | .scl => [.planes, .pc]
  | .plane _ => [.active, .planes, .pc]
  | .low | .high => [.hires, .planes, .fatal, .pc]
  | .drw _ _ _ => [.v, .planes, .pc]

theorem sameExcept_refl (s : State) : SameExcept [] s s := by
  intro p _
  cases p <;> simp [Part.Same]

theorem sameExcept_advance_skipIf (s : State) (c : Bool) : SameExcept [.pc] s (s.advance.skipIf c) := by
  rw [State.advance_skipIf]
  exact sameExcept_setPC s _

theorem sameExcept_advance_scroll (s : State) (dir : ScrollDir) (amt : Nat) :
    SameExcept [.planes, .pc] s (s.advance.scroll dir amt) := by
  unfold State.scroll
  split
  · exact (sameExcept_advance s).mono (by simp)
  · exact sameExcept_advance_setPlanes s _

theorem sameExcept_switchTo (s : State) (hires : Bool) :
    SameExcept [.hires, .planes, .fatal, .pc] s (s.switchTo hires) := by
  cases hgeom : s.inp.geomOk hires
  · obtain ⟨-, hframe⟩ := (completes_next _ _).1 (completes_switchTo_of_not_geomOk hgeom)
    exact hframe.mono (by simp)
  · obtain ⟨-, -, -, hframe⟩ := (completes_next _ _).1 (completes_switchTo_of_geomOk hgeom)
    exact hframe.mono (by simp)

/-- The frame of `DRW`: the sprite goes to the planes, the collision to VF. -/
theorem sameExcept_afterDraw (x y n : Nibble) (s : State) :
    SameExcept [.v, .planes, .pc] s (afterDraw x y n s) :=
  ((sameExcept_advance_setPlanes s _).trans (sameExcept_setV _ 0xF _)).mono (by simp)

/-- A next state completes with the frame of the writes that made it, and with any wider one. -/
theorem completes_frame {ps qs : List Part} {s t : State} (h : SameExcept ps s t) (hsub : ps ⊆ qs) :
    Completes (.next t) (SameExcept qs s) :=
  (completes_next _ _).2 (h.mono hsub)

/-- Every instruction completes, and changes no part that the table does not list for it. -/
theorem exec_changes_only (i : Instr) (s : State) : Completes (exec i s) (SameExcept (changedParts i) s) := by
  have ha := sameExcept_advance s
  cases i
  case jp | jpV0 => exact completes_frame (sameExcept_setPC s _) (List.Subset.refl _)
  case seImm | sneImm | seReg | sneReg | skp | sknp =>
    exact completes_frame (sameExcept_advance_skipIf s _) (List.Subset.refl _)
  case ldImm | addImm | ldReg | or | and | xor | rnd | ldVxDT =>
    exact completes_frame (sameExcept_result s _ _) (List.Subset.refl _)
  case addReg | sub | shr | subn | shl => exact completes_frame (sameExcept_resultFlag s _ _ _) (List.Subset.refl _)
  case ldVxK x =>
    by_cases hkeys : s.inp.keys = 0
    · rw [exec_ldVxK_no_key x hkeys]
      exact completes_frame (sameExcept_refl s) (List.nil_subset _)
    · rw [exec_ldVxK_key x hkeys]
      exact completes_frame (sameExcept_result s _ _) (List.Subset.refl _)
  case ldI | addI | ldF | ldHF => exact completes_frame (sameExcept_advance_setI s _) (List.Subset.refl _)
  case ldDTVx => exact completes_frame (ha.trans (sameExcept_setDT _ _)) (by simp [changedParts])
  case ldSTVx => exact completes_frame (ha.trans (sameExcept_setST _ _)) (by simp [changedParts])
  case ldB => exact completes_frame (ha.trans (sameExcept_writeBytes _ _ _)) (by simp [changedParts])
  case store =>
    exact completes_frame ((ha.trans (sameExcept_writeBytes _ _ _)).trans (sameExcept_setI _ _))
      (by simp [changedParts])
  case load =>
    exact completes_frame ((ha.trans (sameExcept_setRegs _ _ _)).trans (sameExcept_setI _ _))
      (by simp [changedParts])
  case call nnn =>
    rw [exec_call]
    rcases execCall_cases nnn s with ⟨-, heq⟩ | ⟨-, heq⟩ <;> rw [heq]
    · exact completes_frame (sameExcept_advance_setStack_setPC s _ nnn) (by simp [changedParts])
    · exact completes_frame (sameExcept_advance_violation s) (by simp [changedParts])
  case ret =>
    rw [exec_ret]
    rcases execRet_cases s with ⟨l, a, -, heq⟩ | ⟨-, heq⟩ <;> rw [heq]
    · exact completes_frame (sameExcept_advance_setStack_setPC s l a) (by simp [changedParts])
    · exact completes_frame (sameExcept_advance_violation s) (by simp [changedParts])
  case exit => exact completes_frame (ha.trans (sameExcept_halt _ _)) (by simp [changedParts])
  case cls => exact completes_frame (sameExcept_advance_setPlanes s _) (List.Subset.refl _)
  case scd | scu | scr | scl => exact completes_frame (sameExcept_advance_scroll s _ _) (List.Subset.refl _)
  case plane m =>
    exact completes_frame ((sameExcept_advance_setPlanes s _).trans (sameExcept_setActive _ m))
      (by simp [changedParts])
  case low | high => exact completes_frame (sameExcept_switchTo s _) (List.Subset.refl _)
  case drw x y n => exact completes_frame (sameExcept_afterDraw x y n s) (List.Subset.refl _)

/-- A next state of an instruction is the one that it completes with. -/
theorem of_completes_exec {i : Instr} {s t : State} {P : State → Prop} (hexec : exec i s = .next t)
    (h : Completes (exec i s) P) : P t := by
  rwa [hexec, completes_next] at h

theorem sameExcept_of_exec {i : Instr} {s t : State} (hexec : exec i s = .next t) :
    SameExcept (changedParts i) s t := of_completes_exec hexec (exec_changes_only i s)

/-- A part that reads otherwise after an instruction is listed for it. -/
theorem mem_changedParts {i : Instr} {s t : State} (hexec : exec i s = .next t) (p : Part)
    (hp : ¬ Part.Same s t p) : p ∈ changedParts i := by
  by_contra hnot
  exact hp (sameExcept_of_exec hexec p hnot)

/-! ### Every step ends in a next state -/

theorem runAction_next (a : Action) (s : State) : ∃ t, runAction a s = .next t := by
  cases a with
  | run i =>
    obtain ⟨t, ht, -⟩ := exec_changes_only i s
    exact ⟨t, ht⟩
  | toggle f => exact ⟨_, runAction_toggle f s⟩
  | unmapped r => exact ⟨_, runAction_unmapped r s⟩

/-- Settles O48: a step is a command that is ignored, an action, a `TICK` or a `RESET`, and each has a next state. -/
theorem everyStepHasANextState : Obligations.EveryStepHasANextState := by
  intro s
  obtain ⟨s', -, ⟨-, heq⟩ | ⟨inp, -, heq⟩ | heq | ⟨rom, g, heq⟩⟩ := step_cases s
  · exact ⟨_, heq⟩
  · exact heq ▸ runAction_next _ _
  · exact ⟨_, heq⟩
  · exact ⟨_, heq⟩

/-! ### Registers -/

theorem eq_of_getV_result_ne {s : State} {x r : Nibble} {b : Byte} (h : (s.result x b).getV r ≠ s.getV r) :
    r = x := by
  by_contra hr
  exact h (getV_result_of_ne s b hr)

theorem eq_of_getV_resultFlag_ne {s : State} {x r : Nibble} {b f : Byte}
    (h : (s.resultFlag x b f).getV r ≠ s.getV r) : r = x ∨ r = 0xF := by
  by_contra hr
  obtain ⟨hx, hF⟩ := not_or.1 hr
  exact h ((resultFlag_frame s x b f).1 r hx hF)

/-- Settles O51: an instruction that changes a register is one that the table lists for the registers, and of those
each writes a plain result, a result with a flag, the registers of a load, or the collision. -/
theorem registersChangeOnlyUnderTheirWriters : Obligations.RegistersChangeOnlyUnderTheirWriters := by
  intro i s t r hexec hr
  have hlisted := mem_changedParts hexec .v fun hsame => hr (hsame r)
  cases i <;> simp [changedParts] at hlisted
  case ldImm | addImm | ldReg | or | and | xor | rnd | ldVxDT =>
    obtain rfl := Host.Outcome.next.inj hexec
    exact eq_of_getV_result_ne hr
  case addReg | sub | shr | subn | shl =>
    obtain rfl := Host.Outcome.next.inj hexec
    exact eq_of_getV_resultFlag_ne hr
  case ldVxK x =>
    by_cases hkeys : s.inp.keys = 0
    · obtain rfl := Host.Outcome.next.inj ((exec_ldVxK_no_key x hkeys).symm.trans hexec)
      exact absurd rfl hr
    · obtain rfl := Host.Outcome.next.inj ((exec_ldVxK_key x hkeys).symm.trans hexec)
      exact eq_of_getV_result_ne hr
  case load x =>
    obtain rfl := Host.Outcome.next.inj hexec
    by_contra hnot
    exact hr ((State.getV_loaded s x r).trans (if_neg hnot))
  case drw x y n =>
    obtain rfl := Host.Outcome.next.inj hexec
    by_contra hnot
    exact hr (getV_afterDraw_of_ne hnot x y n s)

/-! ### Memory -/

/-- Settles O52: the two instructions that the table lists for memory write a window, and a byte outside it stays. -/
theorem memoryChangesOnlyWhereStored : Obligations.MemoryChangesOnlyWhereStored := by
  intro i s t hs hexec a hnot
  by_contra hchanged
  have hlisted := mem_changedParts hexec .mem fun hsame => hchanged (hsame a)
  cases i <;> simp [changedParts] at hlisted
  case ldB x =>
    obtain rfl := Host.Outcome.next.inj hexec
    exact hchanged (readByte_writeBytes_outside (s := s.advance) hs s.i (by simp [bcdDigits])
      fun k hk ha => hnot ⟨k, hk, ha⟩)
  case store x =>
    obtain rfl := Host.Outcome.next.inj hexec
    refine hchanged (readByte_writeBytes_outside (s := s.advance) hs s.i (regBytes_length_le s x)
      fun k hk ha => hnot ⟨k, ?_, ha⟩)
    rwa [State.regBytes_length, Nat.lt_succ_iff] at hk

/-! ### The rest of the state: who is listed -/

theorem no_instr_changes_cfg_quirks_host (i : Instr) :
    .cfg ∉ changedParts i ∧ .quirks ∉ changedParts i ∧ .host ∉ changedParts i := by
  cases i <;> simp [changedParts]

theorem writer_of_i {i : Instr} (h : .i ∈ changedParts i) : (∃ a, i = .ldI a) ∨
    (∃ x, i = .addI x ∨ i = .ldF x ∨ i = .ldHF x) ∨ ∃ x, i = .store x ∨ i = .load x := by
  cases i <;> simp_all [changedParts]

theorem writer_of_stack {i : Instr} (h : .stack ∈ changedParts i) : i = .ret ∨ ∃ a, i = .call a := by
  cases i <;> simp_all [changedParts]

theorem writer_of_sv {i : Instr} (h : .sv ∈ changedParts i) : i = .ret ∨ ∃ a, i = .call a := by
  cases i <;> simp_all [changedParts]

theorem writer_of_dt {i : Instr} (h : .dt ∈ changedParts i) : ∃ x, i = .ldDTVx x := by
  cases i <;> simp_all [changedParts]

theorem writer_of_st {i : Instr} (h : .st ∈ changedParts i) : ∃ x, i = .ldSTVx x := by
  cases i <;> simp_all [changedParts]

theorem writer_of_hires {i : Instr} (h : .hires ∈ changedParts i) : i = .low ∨ i = .high := by
  cases i <;> simp_all [changedParts]

theorem writer_of_fatal {i : Instr} (h : .fatal ∈ changedParts i) : i = .low ∨ i = .high := by
  cases i <;> simp_all [changedParts]

theorem writer_of_active {i : Instr} (h : .active ∈ changedParts i) : ∃ m, i = .plane m := by
  cases i <;> simp_all [changedParts]

theorem writer_of_halted {i : Instr} (h : .halted ∈ changedParts i) : i = .exit := by
  cases i <;> simp_all [changedParts]

theorem writer_of_exitCode {i : Instr} (h : .exitCode ∈ changedParts i) : i = .exit := by
  cases i <;> simp_all [changedParts]

theorem writer_of_planes {i : Instr} (h : .planes ∈ changedParts i) : i = .cls ∨ i = .low ∨ i = .high ∨
    i = .scr ∨ i = .scl ∨ (∃ n, i = .scd n ∨ i = .scu n) ∨ (∃ x y n, i = .drw x y n) ∨ ∃ m, i = .plane m := by
  cases i <;> simp_all [changedParts]

/-! ### The rest of the state: what the statement says beyond the table -/

/-- I moves past the window only under `Q_LOADSTORE` (R203, R204). -/
theorem loadStore_of_indexAfter_ne {s : State} {x : Nibble} (h : s.indexAfter x ≠ s.i) :
    s.quirks.loadStore = true := by
  by_contra hclear
  exact h (if_neg hclear)

/-- `SV` is sticky (R48): a violation sets it, and no instruction clears it. -/
theorem sv_of_exec {i : Instr} {s t : State} (hexec : exec i s = .next t) (hsv : s.sv = true) : t.sv = true := by
  by_cases hlisted : .sv ∈ changedParts i
  · rcases writer_of_sv hlisted with rfl | ⟨nnn, rfl⟩
    · rcases execRet_cases s with ⟨l, a, -, heq⟩ | ⟨-, heq⟩ <;>
        obtain rfl := Host.Outcome.next.inj (heq.symm.trans hexec)
      · exact hsv
      · rfl
    · rcases execCall_cases nnn s with ⟨-, heq⟩ | ⟨-, heq⟩ <;>
        obtain rfl := Host.Outcome.next.inj (heq.symm.trans hexec)
      · exact hsv
      · rfl
  · have hsame : t.sv = s.sv := sameExcept_of_exec hexec .sv hlisted
    exact hsame.trans hsv

theorem scroll_planes_length (s : State) (dir : ScrollDir) (amt : Nat) :
    (s.scroll dir amt).planes.length = s.planes.length := by
  unfold State.scroll
  split
  · rfl
  · exact mapActive_length _ _ _ _

theorem switchTo_planes_length (s : State) (hires : Bool) :
    (s.switchTo hires).planes.length = s.planes.length := by
  unfold State.switchTo
  split
  · exact List.length_map ..
  · rfl

/-- Only a plane select changes the number of planes, to no less (R250). -/
theorem planes_length_of_exec {i : Instr} {s t : State} (hexec : exec i s = .next t) :
    t.planes.length = s.planes.length ∨ s.planes.length ≤ t.planes.length ∧ ∃ m, i = .plane m := by
  by_cases hlisted : .planes ∈ changedParts i
  · cases i <;> simp [changedParts] at hlisted
    case cls => obtain rfl := Host.Outcome.next.inj hexec; exact .inl (mapActive_length _ _ _ _)
    case scd | scu | scr | scl =>
      obtain rfl := Host.Outcome.next.inj hexec; exact .inl (scroll_planes_length s.advance _ _)
    case low | high => obtain rfl := Host.Outcome.next.inj hexec; exact .inl (switchTo_planes_length s _)
    case drw x y n => obtain rfl := Host.Outcome.next.inj hexec; exact .inl (s.draw_length x y n)
    case plane m =>
      obtain rfl := Host.Outcome.next.inj hexec
      exact .inr ⟨(le_max_left _ _).trans_eq (growPlanes_length ..).symm, m, rfl⟩
  · exact .inl (congrArg List.length (sameExcept_of_exec hexec .planes hlisted))

/-- Settles O53: each clause is a lookup in the table, but for the quirk that lets the store and the load write I, the
number of planes, and the sticky `SV`. -/
theorem controlStateChangesOnlyUnderItsWriters : Obligations.ControlStateChangesOnlyUnderItsWriters := by
  intro i s t hexec
  have hsame := sameExcept_of_exec hexec
  have hlisted := mem_changedParts hexec
  obtain ⟨hcfg, hquirks, hhost⟩ := no_instr_changes_cfg_quirks_host i
  obtain ⟨hinp, hpending, hseq⟩ := hsame .host hhost
  have hplanes := planes_length_of_exec hexec
  refine ⟨hsame .cfg hcfg, hsame .quirks hquirks, hinp, hpending, hseq, fun h => ?index,
    fun h => writer_of_stack (hlisted .stack h), fun h => writer_of_dt (hlisted .dt h),
    fun h => writer_of_st (hlisted .st h), fun h => writer_of_hires (hlisted .hires h),
    fun h => writer_of_active (hlisted .active h), fun h => writer_of_planes (hlisted .planes h),
    hplanes.elim (fun heq => heq.ge) And.left, fun h => (hplanes.resolve_left h).2, fun h => ?halt,
    fun h => writer_of_fatal (hlisted .fatal h), fun h => writer_of_sv (hlisted .sv h), sv_of_exec hexec⟩
  case index =>
    refine (writer_of_i (hlisted .i h)).imp_right (Or.imp_right ?_)
    rintro ⟨x, rfl | rfl⟩ <;> obtain rfl := Host.Outcome.next.inj hexec
    · exact ⟨loadStore_of_indexAfter_ne h, x, .inl rfl⟩
    · exact ⟨loadStore_of_indexAfter_ne h, x, .inr rfl⟩
  case halt =>
    exact h.elim (fun h => writer_of_halted (hlisted .halted h)) fun h => writer_of_exitCode (hlisted .exitCode h)

end Sys2Proof.Spec
end

-- ==== proofs: the program counter ====
section
/-! PROOFS. The PC column of 10_state.md R36. Most instructions leave the fetch advance as it is; the others are the
jumps, the skips, the transfers through the stack, the key wait and the two that can be undone. -/

namespace Sys2Proof.Spec

open Sys2Proof.Machine

theorem scroll_pc (s : State) (dir : ScrollDir) (amt : Nat) : (s.scroll dir amt).pc = s.pc := by
  unfold State.scroll
  split <;> rfl

/-- A switch that is undone takes the fetch advance back too (60_exceptions.md R311). -/
theorem switchTo_pc (s : State) (hires : Bool) :
    (s.switchTo hires).pc = if s.inp.geomOk hires then s.pc + 2 else s.pc := by
  unfold State.switchTo
  split <;> rfl

/-- A skip passes one word where the comparison `P` that its test decides holds. -/
theorem skipIf_pc (s : State) {c : Bool} {P : Prop} [Decidable P] (hc : c = true ↔ P) :
    (s.advance.skipIf c).pc = if P then s.pc + 4 else s.pc + 2 := by
  rw [State.advance_skipIf, State.setPC_pc]
  simp only [hc]
  split <;> rfl

/-- The same with the branches of R36 the other way round. -/
theorem skipIf_pc_not (s : State) {c : Bool} {P : Prop} [Decidable P] (hc : c = true ↔ ¬ P) :
    (s.advance.skipIf c).pc = if P then s.pc + 2 else s.pc + 4 := by
  rw [skipIf_pc s hc, ite_not]

theorem not_keyDown_iff (s : State) (v : Byte) : (!keyDown s.inp.keys v) = true ↔ ¬ KeyIsDown s v := by
  rw [Bool.not_eq_true', ← Bool.not_eq_true, keyDown_iff]

theorem add_zext12 (a : Addr) (b : Byte) : a + zext12 b = BitVec.ofNat 12 (a.toNat + b.toNat) := by
  apply BitVec.eq_of_toNat_eq
  rw [toNat_add_zext12, BitVec.toNat_ofNat]

/-- Settles O20: the PC of each kind of instruction, from the law of what it does. -/
theorem everyInstructionLeavesTheListedPc : Obligations.EveryInstructionLeavesTheListedPc := by
  intro i s
  cases i
  case ldImm | addImm | ldReg | or | and | xor | addReg | sub | shr | subn | shl | rnd | ldVxDT | ldI | addI | ldF
      | ldHF | ldDTVx | ldSTVx | cls | plane | exit | drw | jp =>
    exact (completes_next _ _).2 rfl
  case ldB | store => exact (completes_next _ _).2 (State.writeBytes_pc s.advance _ _)
  case load => exact (completes_next _ _).2 (State.setRegs_pc s.advance _ _)
  case scd | scu | scr | scl => exact (completes_next _ _).2 (scroll_pc s.advance _ _)
  case low => exact (completes_next _ _).2 (switchTo_pc s false)
  case high => exact (completes_next _ _).2 (switchTo_pc s true)
  case seImm | seReg => exact (completes_next _ _).2 (skipIf_pc s beq_iff_eq)
  case sneImm | sneReg => exact (completes_next _ _).2 (skipIf_pc_not s bne_iff_ne)
  case skp => exact (completes_next _ _).2 (skipIf_pc s (keyDown_iff s _))
  case sknp => exact (completes_next _ _).2 (skipIf_pc_not s (not_keyDown_iff s _))
  case jpV0 nnn =>
    rw [exec_jpV0, completes_next, State.setPC_pc, add_zext12, State.jumpRegister, pcAfter]
    split <;> rfl
  case ldVxK x =>
    by_cases hkeys : s.inp.keys = 0
    · rw [exec_ldVxK_no_key x hkeys, completes_next, pcAfter, if_pos hkeys]
    · rw [exec_ldVxK_key x hkeys, completes_next, pcAfter, if_neg hkeys]
      rfl
  case call nnn =>
    rw [exec_call, pcAfter]
    rcases execCall_cases nnn s with ⟨hroom, heq⟩ | ⟨hfull, heq⟩ <;> rw [heq, completes_next]
    · rw [if_neg (Nat.not_le_of_lt hroom)]
      rfl
    · rw [if_pos hfull]
      rfl
  case ret =>
    rw [exec_ret, pcAfter]
    rcases execRet_cases s with ⟨l, a, hstack, heq⟩ | ⟨hempty, heq⟩ <;> rw [heq, completes_next]
    · rw [hstack, List.getLast?_concat]
      rfl
    · rw [hempty]
      rfl

end Sys2Proof.Spec
end

-- ==== proofs: outcomes ====
section
/-! PROOFS. The outcome of a `STEP` (60_exceptions.md section 1) against what the step leaves in `FATAL`, `HALTED` and
`SV`. Only five instructions write one of them, and those are the five with an outcome of their own. -/

namespace Sys2Proof.Spec

open Sys2Proof.Machine

/-- What the flags of `t` say about the outcome `o` of a step from a running block `s`. -/
def ShowsOutcome (s : State) (o : CommandOutcome) (t : State) : Prop :=
  (t.fatal = true ↔ o = .terminalTooSmall) ∧ (t.halted = true ↔ o = .exit) ∧
    (t.sv = true ↔ s.sv = true ∨ o = .stackOverflow ∨ o = .stackUnderflow) ∧ o ≠ .romTooLarge

/-- A normal outcome shows as three flags that stay. -/
theorem showsOutcome_normal {s t : State} (hhalted : s.halted = false) (hfatal : s.fatal = false)
    {ps : List Part} (hframe : SameExcept ps s t) (hps : .fatal ∉ ps ∧ .halted ∉ ps ∧ .sv ∉ ps) :
    ShowsOutcome s .normal t := by
  obtain ⟨hf, hh, hv⟩ := hps
  have hfatal' : t.fatal = s.fatal := hframe .fatal hf
  have hhalted' : t.halted = s.halted := hframe .halted hh
  have hsv' : t.sv = s.sv := hframe .sv hv
  simp [ShowsOutcome, hfatal', hhalted', hsv', hhalted, hfatal]

/-- A violation shows in `SV` alone. -/
theorem showsOutcome_violation {s : State} (hhalted : s.halted = false) (hfatal : s.fatal = false)
    {o : CommandOutcome} (ho : o = .stackOverflow ∨ o = .stackUnderflow) :
    ShowsOutcome s o s.advance.violation := by
  rcases ho with rfl | rfl <;> simp [ShowsOutcome, hhalted, hfatal]

/-- Both verdicts of a resolution switch. -/
theorem showsOutcome_switchTo {s : State} (hhalted : s.halted = false) (hfatal : s.fatal = false) (hires : Bool) :
    ShowsOutcome s (if s.inp.geomOk hires then .normal else .terminalTooSmall) (s.switchTo hires) := by
  cases hgeom : s.inp.geomOk hires <;> simp [ShowsOutcome, State.switchTo, State.resize, hgeom, hhalted, hfatal]

/-- An instruction that writes none of the three flags has no outcome but the normal one. -/
theorem instrOutcome_of_quiet {i : Instr} (s : State)
    (hquiet : .fatal ∉ changedParts i ∧ .halted ∉ changedParts i ∧ .sv ∉ changedParts i) :
    instrOutcome i s = .normal := by
  cases i
  case ret | call | exit | low | high => simp [changedParts] at hquiet
  all_goals rfl

/-- The flags after an instruction show its outcome. -/
theorem exec_showsOutcome (i : Instr) {s : State} (hhalted : s.halted = false) (hfatal : s.fatal = false) :
    Completes (exec i s) (ShowsOutcome s (instrOutcome i s)) := by
  by_cases hquiet : .fatal ∉ changedParts i ∧ .halted ∉ changedParts i ∧ .sv ∉ changedParts i
  · obtain ⟨t, ht, hframe⟩ := exec_changes_only i s
    exact ⟨t, ht, instrOutcome_of_quiet s hquiet ▸ showsOutcome_normal hhalted hfatal hframe hquiet⟩
  · cases i <;> simp [changedParts] at hquiet
    case ret =>
      rw [exec_ret]
      rcases execRet_cases s with ⟨l, a, hstack, heq⟩ | ⟨hempty, heq⟩ <;> rw [heq, completes_next, instrOutcome]
      · rw [hstack, if_neg (by simp)]
        exact showsOutcome_normal hhalted hfatal (sameExcept_advance_setStack_setPC s l a) (by simp)
      · rw [hempty, List.isEmpty_nil, if_pos rfl]
        exact showsOutcome_violation hhalted hfatal (.inr rfl)
    case call nnn =>
      rw [exec_call]
      rcases execCall_cases nnn s with ⟨hroom, heq⟩ | ⟨hfull, heq⟩ <;>
        rw [heq, completes_next, instrOutcome, State.stackFull]
      · rw [if_neg (by simpa using hroom)]
        exact showsOutcome_normal hhalted hfatal (sameExcept_advance_setStack_setPC s _ nnn) (by simp)
      · rw [if_pos (by simpa using hfull)]
        exact showsOutcome_violation hhalted hfatal (.inl rfl)
    case exit =>
      rw [exec_exit, completes_next]
      simp [ShowsOutcome, instrOutcome, hfatal]
    case low => exact (completes_next _ _).2 (showsOutcome_switchTo hhalted hfatal false)
    case high => exact (completes_next _ _).2 (showsOutcome_switchTo hhalted hfatal true)

/-- Settles O47: a `STEP` of a running block is the fetched word's action, and an action that is no instruction writes
none of the three flags. -/
theorem stepOutcomeMatchesItsEffect : Obligations.StepOutcomeMatchesItsEffect := by
  intro s inp hhalted hfatal
  have hrun := stopped_eq_false hhalted hfatal
  have houtcome : commandOutcome (.step inp) s = actionOutcome (decodeAction s.cfg s.fetch) (s.sample inp) := by
    rw [commandOutcome, hrun, if_neg Bool.false_ne_true]
  rw [stepCommand_running hrun, houtcome]
  change Completes (runAction (decodeAction s.cfg s.fetch) (s.sample inp)) (ShowsOutcome (s.sample inp) _)
  cases decodeAction s.cfg s.fetch with
  | run i => exact exec_showsOutcome i hhalted hfatal
  | toggle f =>
    exact (completes_next _ _).2 (showsOutcome_normal (s := s.sample inp) hhalted hfatal
      ((sameExcept_advance _).trans (sameExcept_setQuirks _ _)) (by simp))
  | unmapped r =>
    exact (completes_next _ _).2 (showsOutcome_normal (s := s.sample inp) hhalted hfatal
      (sameExcept_advance _) (by simp))

end Sys2Proof.Spec
end

-- ==== proofs: inputs and the sound timer ====
section
/-! PROOFS. What an instruction does not read makes no difference to it. The sampled inputs and the sound timer are
overlaid with other values, all at once, and each instruction is shown once to commute with that, unless it reads or
writes what was changed; each statement is the case of one input, or of the timer. -/

namespace Sys2Proof.Spec

open Sys2Proof.Machine

/-! ### The overlay -/

/-- The state with its sampled inputs changed by `g` and its sound timer by `h`. -/
def overlay (g : StepInputs → StepInputs) (h : Byte → Byte) (s : State) : State :=
  { s with inp := g s.inp, st := h s.st }

section
variable (g : StepInputs → StepInputs) (h : Byte → Byte)

theorem readBytes_overlay (s : State) (a : Addr) (n : Nat) :
    (overlay g h s).readBytes a n = s.readBytes a n := by
  induction n generalizing a with
  | zero => rfl
  | succ n ih => exact congrArg (s.readByte a :: ·) (ih (a + 1))

theorem writeBytes_overlay (s : State) (a : Addr) (bs : List Byte) :
    (overlay g h s).writeBytes a bs = overlay g h (s.writeBytes a bs) := by
  induction bs generalizing s a with
  | nil => rfl
  | cons b bs ih => exact ih (s.writeByte a b) (a + 1)

theorem setRegs_overlay (s : State) (k : Nat) (bs : List Byte) :
    (overlay g h s).setRegs k bs = overlay g h (s.setRegs k bs) := by
  induction bs generalizing s k with
  | nil => rfl
  | cons b bs ih => exact ih (s.setV (BitVec.ofNat 4 k) b) (k + 1)

theorem scroll_overlay (s : State) (dir : ScrollDir) (amt : Nat) :
    (overlay g h s).scroll dir amt = overlay g h (s.scroll dir amt) := by
  have hmode : (overlay g h s).cfg.scrollMode = s.cfg.scrollMode := rfl
  unfold State.scroll
  rw [hmode]
  cases s.cfg.scrollMode <;> rfl

theorem draw_overlay (s : State) (x y n : Nibble) : (overlay g h s).draw x y n = s.draw x y n := by
  unfold State.draw
  rw [readBytes_overlay]
  rfl

theorem skip_overlay (s : State) (c : Bool) :
    (overlay g h s).advance.skipIf c = overlay g h (s.advance.skipIf c) := by
  cases c <;> rfl

theorem switchTo_overlay {hires : Bool} (hgeom : ∀ inp, (g inp).geomOk hires = inp.geomOk hires) (s : State) :
    (overlay g h s).switchTo hires = overlay g h (s.switchTo hires) := by
  have hverdict : (overlay g h s).inp.geomOk hires = s.inp.geomOk hires := hgeom s.inp
  unfold State.switchTo
  rw [hverdict]
  split <;> rfl

theorem call_overlay (nnn : Addr) (s : State) :
    execCall nnn (overlay g h s) = mapNext (overlay g h) (execCall nnn s) := by
  rcases execCall_cases nnn s with ⟨hroom, heq⟩ | ⟨hfull, heq⟩ <;> rw [heq]
  · exact execCall_room nnn (overlay g h s) hroom
  · exact execCall_full nnn (overlay g h s) hfull

theorem ret_overlay (s : State) : execRet (overlay g h s) = mapNext (overlay g h) (execRet s) := by
  rcases execRet_cases s with ⟨l, a, hstack, heq⟩ | ⟨hempty, heq⟩ <;> rw [heq]
  · exact execRet_append (overlay g h s) l a hstack
  · exact execRet_nil (overlay g h s) hempty

theorem ldVxK_overlay (hkeys : ∀ inp, (g inp).keys = inp.keys) (x : Nibble) (s : State) :
    exec (.ldVxK x) (overlay g h s) = mapNext (overlay g h) (exec (.ldVxK x) s) := by
  have hsame : (overlay g h s).inp.keys = s.inp.keys := hkeys s.inp
  by_cases hnone : s.inp.keys = 0
  · rw [exec_ldVxK_no_key x hnone, exec_ldVxK_no_key x (hsame.trans hnone)]
    rfl
  · rw [exec_ldVxK_key x hnone, exec_ldVxK_key x (hsame ▸ hnone), hsame]
    rfl

/-- An instruction commutes with an overlay of what it does not read, `ST` being also what it may not write. -/
theorem exec_overlay (i : Instr) (s : State)
    (hkeys : (∀ x, i ≠ .skp x ∧ i ≠ .sknp x ∧ i ≠ .ldVxK x) ∨ ∀ inp, (g inp).keys = inp.keys)
    (hrnd : (∀ x nn, i ≠ .rnd x nn) ∨ ∀ inp, (g inp).rnd = inp.rnd)
    (hgeom : (i ≠ .low ∧ i ≠ .high) ∨ ∀ inp r, (g inp).geomOk r = inp.geomOk r)
    (hst : (∀ x, i ≠ .ldSTVx x) ∨ ∀ b, h b = b) :
    exec i (overlay g h s) = mapNext (overlay g h) (exec i s) := by
  cases i
  case jp | jpV0 | ldImm | addImm | ldReg | or | and | xor | addReg | sub | shr | subn | shl | ldVxDT | ldI | addI
      | ldF | ldHF | ldDTVx | exit | cls | plane => rfl
  case seImm | sneImm | seReg | sneReg => exact congrArg _ (skip_overlay g h s _)
  case call nnn => exact call_overlay g h nnn s
  case ret => exact ret_overlay g h s
  case scd | scu | scr | scl => exact congrArg _ (scroll_overlay g h s.advance _ _)
  case ldB => exact congrArg _ (writeBytes_overlay g h s.advance _ _)
  case store x =>
    exact congrArg (fun u => (.next (State.setI u (s.indexAfter x)) : Result)) (writeBytes_overlay g h s.advance _ _)
  case load x =>
    rw [exec_load, exec_load, readBytes_overlay]
    exact congrArg (fun u => (.next (State.setI u (s.indexAfter x)) : Result)) (setRegs_overlay g h s.advance _ _)
  case drw x y n =>
    rw [exec_drw, exec_drw, draw_overlay]
    rfl
  case skp x =>
    have hsame : (overlay g h s).inp.keys = s.inp.keys := hkeys.resolve_left (fun hno => (hno x).1 rfl) s.inp
    rw [exec_skp, exec_skp, skip_overlay, hsame]
    rfl
  case sknp x =>
    have hsame : (overlay g h s).inp.keys = s.inp.keys := hkeys.resolve_left (fun hno => (hno x).2.1 rfl) s.inp
    rw [exec_sknp, exec_sknp, skip_overlay, hsame]
    rfl
  case ldVxK x => exact ldVxK_overlay g h (hkeys.resolve_left fun hno => (hno x).2.2 rfl) x s
  case rnd x nn =>
    have hsame : (overlay g h s).inp.rnd = s.inp.rnd := hrnd.resolve_left (fun hno => hno x nn rfl) s.inp
    rw [exec_rnd, exec_rnd, hsame]
    rfl
  case low =>
    exact congrArg _ (switchTo_overlay g h (fun inp => hgeom.resolve_left (fun hno => hno.1 rfl) inp false) s)
  case high =>
    exact congrArg _ (switchTo_overlay g h (fun inp => hgeom.resolve_left (fun hno => hno.2 rfl) inp true) s)
  case ldSTVx x =>
    have hsame : h (s.getV x) = s.getV x := hst.resolve_left (fun hno => hno x rfl) _
    exact congrArg (fun b => (.next ((overlay g h s).advance.setST b) : Result)) hsame.symm

end

/-! ### One input at a time, and the timer -/

/-- Settles O54: each of the three is an overlay of one input, the other inputs and the timer staying. -/
theorem inputsReachOnlyTheirReaders : Obligations.InputsReachOnlyTheirReaders := by
  refine fun i s => ⟨fun hkeys k => ?_, fun hrnd b => ?_, fun hlow hhigh l h => ?_⟩
  · exact exec_overlay (fun inp => { inp with keys := k }) id i s (.inl hkeys) (.inr fun _ => rfl)
      (.inr fun _ _ => rfl) (.inr fun _ => rfl)
  · exact exec_overlay (fun inp => { inp with rnd := b }) id i s (.inr fun _ => rfl) (.inl hrnd)
      (.inr fun _ _ => rfl) (.inr fun _ => rfl)
  · exact exec_overlay (fun inp => { inp with geomLores := l, geomHires := h }) id i s (.inr fun _ => rfl)
      (.inr fun _ => rfl) (.inl ⟨hlow, hhigh⟩) (.inr fun _ => rfl)

/-- Settles O55: another value in `ST` is an overlay of the timer, the inputs staying. -/
theorem noInstructionReadsSoundTimer : Obligations.NoInstructionReadsSoundTimer := by
  intro i s b hst
  exact exec_overlay id (fun _ => b) i s (.inr fun _ => rfl) (.inr fun _ => rfl) (.inr fun _ _ => rfl) (.inl hst)

end Sys2Proof.Spec
end

-- ==== proofs: fetch and step ====
section
/-! PROOFS. 30_encoding.md section 2: the fetched word, and what a `STEP` of a running block makes of it; and that a
stopped block takes commands off and does nothing. Also the read after a write of one byte (20_memory.md section 4). -/

namespace Sys2Proof.Spec

open Sys2Proof.Machine

/-! ### One byte -/

/-- Settles O16: the law of a read after a write, and the frame of a write of one byte. -/
theorem readAfterWrite : Obligations.ReadAfterWrite := by
  intro s a b v hs
  exact ⟨s.readByte_writeByte a v b hs, sameExcept_writeBytes s a [v]⟩

/-! ### The fetched word -/

theorem fetch_toNat (s : State) :
    s.fetch.toNat = 256 * (s.readByte s.pc).toNat + (s.readByte (s.pc + 1)).toNat := by
  rw [State.fetch, wordOfBytes, toNat_concat]
  omega

/-- Settles O7: a word is its two bytes, the high one first, and so is what `MemRead` makes of them. -/
theorem fetchIsBigEndianAndWraps : Obligations.FetchIsBigEndianAndWraps := by
  intro s
  have hmemRead : s.memRead s.pc 2 = (0 * 256 + (s.readByte s.pc).toNat) * 256 + (s.readByte (s.pc + 1)).toNat := rfl
  have hnext : BitVec.ofNat 12 ((s.pc.toNat + 1) % 4096) = s.pc + 1 := (addr_add_ofNat s.pc 1).symm
  rw [fetch_toNat, hmemRead, hnext]
  exact ⟨rfl, by omega⟩

/-! ### A STEP of a running block -/

theorem decodeAction_of_ok {c : Config} {w : Word16} {i : Instr} (htoggle : toggleField c w = none)
    (hok : decodeWord w = .ok i) : decodeAction c w = .run i := by
  rw [decodeAction, htoggle, hok]

/-- Settles O6: the two bytes at PC are the fetched word, and a step of a running block is that word's action. -/
theorem stepRunsDecodedInstruction : Obligations.StepRunsDecodedInstruction := by
  intro s i hhalted hfatal _ hdecode htoggle
  have hrun := stopped_eq_false hhalted hfatal
  have hok : decodeWord s.fetch = .ok i := congrArg Prod.fst hdecode
  have haction : decodeAction s.cfg s.fetch = .run i := decodeAction_of_ok htoggle hok
  refine ⟨fun inp rest hpending => ?_, fun hpending => ?_⟩
  · rw [step_of_pending_step hrun hpending, haction]
    rfl
  · rw [step_of_nil hpending, stepCommand_running hrun]
    exact congrArg (runAction · (s.sample (freeInputs s.seq))) haction

/-- The word that 16 bits of a number make is that number. -/
theorem tableWord_16 (w : Nat) : tableWord 16 w = BitVec.ofNat 16 w := by
  apply BitVec.eq_of_toNat_eq
  simp [tableWord]

theorem decodeTableWord_eq_some {nbits w : Nat} {i : Instr} :
    decodeTableWord nbits w = some i ↔ decodeWord (tableWord nbits w) = .ok i := by
  have hbytes := decodeBytes_bytesOfWord (tableWord nbits w) []
  rw [List.append_nil] at hbytes
  rw [decodeTableWord, hbytes, toOption_eq_some]

theorem placeWord_cfg (s : State) (w : Word16) : (s.placeWord w).cfg = s.cfg := State.writeBytes_cfg ..

theorem placeWord_seq (s : State) (w : Word16) : (s.placeWord w).seq = s.seq := State.writeBytes_seq ..

theorem placeWord_stopped (s : State) (w : Word16) : (s.placeWord w).stopped = false := rfl

theorem placeWord_pending {s : State} (hpending : s.pending = []) (w : Word16) : (s.placeWord w).pending = [] :=
  congrArg fromFirstStep hpending

/-- Settles O8: the fetch reads the word that was placed, and the step runs what it decodes to. -/
theorem placedWordIsRunNext : Obligations.PlacedWordIsRunNext := by
  intro s w i hs _ hpending hdecode htoggle
  rw [← tableWord_16] at htoggle
  have haction := decodeAction_of_ok htoggle (decodeTableWord_eq_some.1 hdecode)
  have hcfg (inp : StepInputs) : ((s.placeWord (tableWord 16 w)).sample inp).cfg = s.cfg :=
    placeWord_cfg s (tableWord 16 w)
  rw [State.withFetchWord, step_of_nil (placeWord_pending hpending _), stepCommand_running (placeWord_stopped s _),
    fetchExecute, State.sample_fetch, s.placeWord_fetch _ hs, placeWord_seq, hcfg, haction]
  rfl

/-! ### A stopped block -/

theorem stopped_eq_true {s : State} (h : s.halted = true ∨ s.fatal = true) : s.stopped = true := by
  rw [State.stopped, Bool.or_eq_true]
  exact h

/-- Settles O10: a `STEP` and a `TICK` each check first whether the block is stopped. -/
theorem stoppedBlockIgnoresStepAndTick : Obligations.StoppedBlockIgnoresStepAndTick := by
  intro s h
  have hstopped := stopped_eq_true h
  refine ⟨fun hpending => ?_, fun inp rest hpending => ?_, fun rest hpending => ?_⟩
  · rw [step_of_nil hpending, stepCommand_stopped hstopped]
  · rw [step_of_cons hpending, runCommand, stepCommand_stopped (s := s.setPending rest) hstopped]
  · rw [step_of_cons hpending, runCommand, tickCommand, State.setPending_stopped, if_pos hstopped]

end Sys2Proof.Spec
end

-- ==== proofs: reset ====
section
/-! PROOFS. 70_reset_and_hazards.md section 1: what `RESET` leaves when it can be done and when it cannot. -/

namespace Sys2Proof.Spec

open Sys2Proof.Machine

/-! ### A reset that is done -/

theorem step_of_pending_reset {s : State} {rom : List Byte} {g : Bool} {rest : List Command}
    (hpending : s.pending = .reset rom g :: rest) :
    step s = .next (resetCommand rom g (s.setPending rest)) := by
  rw [step_of_cons hpending, runCommand]

theorem resetCommand_of_fits {rom : List Byte} (hfits : rom.length ≤ 3584) (s : State) :
    resetCommand rom true s = s.loaded rom := by
  have hsize : ¬ rom.length > romMax := Nat.not_lt.2 hfits
  rw [resetCommand, if_neg hsize, if_pos rfl]

/-- Memory after a load: the program from 0x200 on, the fonts and zeros elsewhere (R340). -/
theorem loaded_readByte (s : State) (rom : List Byte) (a : Addr) : (s.loaded rom).readByte a =
    if 0x200 ≤ a.toNat then (rom[a.toNat - 0x200]?).getD (background s.cfg a.toNat)
    else background s.cfg a.toNat :=
  romImage_read ..

/-- Outside the program the background shows. -/
theorem loaded_readByte_outside (s : State) {rom : List Byte} {a : Addr}
    (ha : a.toNat < 0x200 ∨ 0x200 + rom.length ≤ a.toNat) :
    (s.loaded rom).readByte a = background s.cfg a.toNat := by
  rw [loaded_readByte]
  split
  case isTrue hle => rw [List.getElem?_eq_none (by omega), Option.getD_none]
  case isFalse => rfl

theorem loaded_readByte_program (s : State) {rom : List Byte} (hfits : rom.length ≤ 3584) {k : Nat}
    (hk : k < rom.length) : (s.loaded rom).readByte (BitVec.ofNat 12 (0x200 + k)) = rom[k] := by
  have ha : (BitVec.ofNat 12 (0x200 + k)).toNat = 0x200 + k := by
    rw [BitVec.toNat_ofNat]
    omega
  rw [loaded_readByte, ha, if_pos (Nat.le_add_right _ _), Nat.add_sub_cancel_left, List.getElem?_eq_getElem hk,
    Option.getD_some]

theorem background_small (c : Config) {a : Nat} (ha : a < 0x050) : background c a = c.fontSmall.getD a 0 :=
  if_pos ha

theorem background_large (c : Config) {a : Nat} (hlo : 0x050 ≤ a) (hhi : a < 0x0F0) :
    background c a = (c.fontLarge.getD []).getD (a - 0x050) 0 := by
  rw [background, if_neg (Nat.not_lt.2 hlo), if_pos hhi]
  cases c.fontLarge <;> rfl

theorem background_rest (c : Config) {a : Nat} (ha : 0x0F0 ≤ a) : background c a = 0 := by
  rw [background, if_neg (by omega), if_neg (by omega)]

theorem loaded_getV (s : State) (rom : List Byte) (r : Nibble) : (s.loaded rom).getV r = 0 := by
  simp [State.getV, State.loaded, State.afterReset, resetV]

/-- Settles O13: the fields are those that the reset state is built with, and memory is the loaded program over the
background. -/
theorem resetLeavesListedValues : Obligations.ResetLeavesListedValues := by
  intro s rom rest hfits hpending
  rw [step_of_pending_reset hpending, resetCommand_of_fits hfits, completes_next]
  refine ⟨loaded_getV _ rom, rfl, rfl, rfl, rfl, rfl, rfl, rfl, rfl, rfl, rfl, rfl, rfl, rfl, rfl,
    fun k hk => loaded_readByte_program _ hfits hk, fun a ha => ?small, fun a hlo hhi => ?large,
    fun a hlo hout => ?zeros⟩
  case small => exact (loaded_readByte_outside _ (.inl (by omega))).trans (background_small s.cfg ha)
  case large => exact (loaded_readByte_outside _ (.inl (by omega))).trans (background_large s.cfg hlo hhi)
  case zeros => exact (loaded_readByte_outside _ hout).trans (background_rest s.cfg hlo)

/-! ### A reset that cannot be done -/

theorem resetCommand_rejected {rom : List Byte} {g : Bool} (h : 3584 < rom.length ∨ g = false) (s : State) :
    resetCommand rom g s = s.raiseConfigurationError := by
  unfold resetCommand
  split_ifs with hsize hgeom
  · rfl
  · exact absurd (h.resolve_left hsize) (by simp [hgeom])
  · rfl

/-- The outcome names the first of the two checks that failed (60_exceptions.md R316). -/
theorem commandOutcome_reset_rejected {rom : List Byte} {g : Bool} (h : 3584 < rom.length ∨ g = false) (s : State) :
    commandOutcome (.reset rom g) s = if 3584 < rom.length then .romTooLarge else .terminalTooSmall := by
  rw [commandOutcome]
  by_cases hsize : 3584 < rom.length
  · rw [if_pos hsize]
    exact if_pos hsize
  · rw [if_neg hsize, h.resolve_left hsize]
    exact if_neg hsize

/-- Settles O14: either check that fails raises a ConfigurationError. -/
theorem rejectedResetOnlySetsFatal : Obligations.RejectedResetOnlySetsFatal := by
  intro s rom g rest hpending h
  refine ⟨?_, commandOutcome_reset_rejected h s⟩
  rw [step_of_pending_reset hpending, resetCommand_rejected h, completes_next]
  exact ⟨rfl, ((sameExcept_setPending s rest).trans (sameExcept_raiseConfigurationError _)).mono (by simp), rfl⟩

/-! ### The reset state -/

/-- Two reset states with the same parameters and memory differ in the model's own fields alone. -/
theorem sameExcept_afterReset (c : Config) (m : Memory) {inp inp' : StepInputs} {pending pending' : List Command}
    {seq seq' : Nat} : SameExcept [.host] (State.afterReset c m inp pending seq)
      (State.afterReset c m inp' pending' seq') := by
  intro p hp
  cases p
  case host => exact absurd List.mem_cons_self hp
  case mem | v => exact fun _ => rfl
  all_goals rfl

/-- Settles O15: the empty ROM's image lists no byte, and glyph A is in the small font. -/
theorem resetStateIsEmptyRomReset : Obligations.ResetStateIsEmptyRomReset := by
  intro s hcfg
  refine ⟨?_, rfl, by decide⟩
  rw [resetCommand_of_fits (Nat.zero_le _), State.loaded, hcfg]
  exact sameExcept_afterReset defaultConfig []

end Sys2Proof.Spec
end

-- ==== proofs: the draw, pixel by pixel ====
section
/-! PROOFS. What `DRW` leaves (44_display.md R264), assembled from the laws of the draw: its pixels, its collision, and
the frame of its writes. -/

namespace Sys2Proof.Spec

open Sys2Proof.Machine

theorem vf_afterDraw (x y n : Nibble) (s : State) :
    (afterDraw x y n s).getV 0xF = 1 ∨ (afterDraw x y n s).getV 0xF = 0 := by
  rw [afterDraw, State.setVF, State.getV_setV_self]
  exact (flagByte_eq _).symm

/-- Settles O40: the pixels and the collision are those of the places that the sprite turns over. -/
theorem drawXorsSpritePixelwise : Obligations.DrawXorsSpritePixelwise := by
  intro x y n s hs
  rw [exec_drw_eq_afterDraw, completes_next]
  exact ⟨fun _ _ _ hturned => planePixel_draw_of_turned hs hturned,
    fun _ _ _ hstays => planePixel_draw_of_not_turned hs hstays, vf_afterDraw x y n s,
    (vf_afterDraw_iff x y n s).trans (coll_draw_iff hs x y n), fun _ hr => getV_afterDraw_of_ne hr x y n s,
    s.draw_length x y n, (planesSound_afterDraw hs x y n).1, rfl, sameExcept_afterDraw x y n s⟩

end Sys2Proof.Spec
end
